-- ==== Sys2Proof/Word.lean ====
section
/-! DEFINITION. The two word types of the register port: 32-bit register values (R10) and payload bytes. -/

namespace Sys2Proof

/-- A register value (R10: every register access is 32 bits wide). -/
abbrev Word := BitVec 32

/-- A payload or response byte (R17). -/
abbrev Byte := BitVec 8

end Sys2Proof
end

