-- ==== Sys2Proof/Config.lean ====
section
/-! DEFINITION. What an implementation fixes: the parameter types of 00_scope.md R9 with the register map of
10_state.md R36 to R48, and the free values. Default values stand in Machine/RegTable.lean. -/

namespace Sys2Proof

/-- The two variants of the driven controller (R3, R9, R36). -/
inductive Variant where
  | dsi0
  | dsi1
  deriving DecidableEq, Repr, Inhabited

/-- The registers the core accesses, by the names of R36. -/
inductive RegName where
  | ctrl
  | txpkt1c
  | txpkt1h
  | rxpkt1h
  | cmdFifo
  | pixFifo
  | rxFifo
  | intStat
  | intEn
  | stat
  | phyc
  | hsClt0
  | hsClt1
  | hsClt2
  | hsDlt3
  | hsDlt4
  | hsDlt5
  | hsDlt6
  | hsDlt7
  | phyAfec0
  deriving DecidableEq, Repr, Inhabited

/-- A field of a register: bits `hi` down to `lo` (R12, R14). -/
structure Field where
  hi : Nat
  lo : Nat
  deriving DecidableEq, Repr, Inhabited

/-- The byte offset of each register (R36). -/
structure Offsets where
  ctrl : Nat
  txpkt1c : Nat
  txpkt1h : Nat
  rxpkt1h : Nat
  cmdFifo : Nat
  pixFifo : Nat
  rxFifo : Nat
  intStat : Nat
  intEn : Nat
  stat : Nat
  phyc : Nat
  hsClt0 : Nat
  hsClt1 : Nat
  hsClt2 : Nat
  hsDlt3 : Nat
  hsDlt4 : Nat
  hsDlt5 : Nat
  hsDlt6 : Nat
  hsDlt7 : Nat
  phyAfec0 : Nat
  deriving DecidableEq, Repr, Inhabited

/-- Bit positions in CTRL (R37). -/
structure CtrlBits where
  clrLdf : Nat
  clrRxf : Nat
  clrPdf : Nat
  clrCdf : Nat
  en : Nat
  deriving DecidableEq, Repr, Inhabited

/-- Fields and bit positions of the control word TXPKT1C (R38). -/
structure Txpkt1cBits where
  trigCmd : Field
  cmdRepeat : Field
  displayNo : Field
  cmdTxTime : Field
  cmdCtrl : Field
  cmdModeLp : Nat
  cmdTypeLong : Nat
  cmdTeEn : Nat
  cmdEn : Nat
  deriving DecidableEq, Repr, Inhabited

/-- Fields of the header word TXPKT1H (R39). -/
structure Txpkt1hBits where
  bcCmdFifo : Field
  bcParam : Field
  bcDt : Field
  deriving DecidableEq, Repr, Inhabited

/-- Fields and bit positions of the response header RXPKT1H (R40). -/
structure Rxpkt1hBits where
  crcErr : Nat
  detErr : Nat
  eccErr : Nat
  corErr : Nat
  incompPkt : Nat
  pktTypeLong : Nat
  bcParam : Field
  short1 : Field
  short0 : Field
  dt : Field
  deriving DecidableEq, Repr, Inhabited

/-- Bit positions in INT_STAT and INT_EN (R42, R43). Bit 31 is reserved. -/
structure IntBits where
  phyD3Ulps : Nat
  phyD3Stop : Nat
  phyD2Ulps : Nat
  phyD2Stop : Nat
  phyD1Ulps : Nat
  phyD1Stop : Nat
  phyD0Ulps : Nat
  phyD0Stop : Nat
  fifoErr : Nat
  phyDirRtf : Nat
  phyRxlpdt : Nat
  phyRxtrig : Nat
  phyD0Lpdt : Nat
  phyDirFtr : Nat
  phyClockUlps : Nat
  phyClockHs : Nat
  phyClockStop : Nat
  prTo : Nat
  taTo : Nat
  lprxTo : Nat
  hstxTo : Nat
  errContLp1 : Nat
  errContLp0 : Nat
  errControl : Nat
  errSyncEsc : Nat
  rxpkt2 : Nat
  rxpkt1 : Nat
  txpkt2Done : Nat
  txpkt2End : Nat
  txpkt1Done : Nat
  txpkt1End : Nat
  deriving DecidableEq, Repr, Inhabited

/-- Bit positions in STAT (R45). -/
structure StatBits where
  phyD3Ulps : Nat
  phyD3Stop : Nat
  phyD2Ulps : Nat
  phyD2Stop : Nat
  phyD1Ulps : Nat
  phyD1Stop : Nat
  phyD0Ulps : Nat
  phyD0Stop : Nat
  fifoErr : Nat
  phyRxlpdt : Nat
  phyRxtrig : Nat
  phyD0Lpdt : Nat
  phyDir : Nat
  phyClockUlps : Nat
  phyClockHs : Nat
  phyClockStop : Nat
  prTo : Nat
  taTo : Nat
  lprxTo : Nat
  hstxTo : Nat
  errContLp1 : Nat
  errContLp0 : Nat
  errControl : Nat
  errSyncEsc : Nat
  rxpkt2 : Nat
  rxpkt1 : Nat
  txpkt2Busy : Nat
  txpkt2Done : Nat
  txpkt2End : Nat
  txpkt1Busy : Nat
  txpkt1Done : Nat
  txpkt1End : Nat
  deriving DecidableEq, Repr, Inhabited

/-- Fields and bit positions of PHYC (R46). -/
structure PhycBits where
  escClkLpdt : Field
  hsClkContinuous : Nat
  clockUlps : Nat
  clockEnable : Nat
  dlane3Ulps : Nat
  dlane3Enable : Nat
  dlane2Ulps : Nat
  dlane2Enable : Nat
  dlane1Ulps : Nat
  dlane1Enable : Nat
  dlane0ForceStop : Nat
  dlane0Ulps : Nat
  dlane0Enable : Nat
  deriving DecidableEq, Repr, Inhabited

/-- The field of each timing value in its timing register (R47, R137). The register a value belongs to is fixed by
R137; its width (R213) is the width of this field. -/
structure TimingFields where
  czero : Field
  cpre : Field
  cprep : Field
  ctrail : Field
  cpost : Field
  wup : Field
  exit : Field
  zero : Field
  pre : Field
  anlat : Field
  trail : Field
  lpx : Field
  init : Field
  taGet : Field
  taSure : Field
  taGo : Field
  lpLpx : Field
  lpWup : Field
  deriving DecidableEq, Repr, Inhabited

/-- The configuration table `RegMap` (R36): offsets and field positions, selected once by the variant. -/
structure RegMap where
  offsets : Offsets
  ctrl : CtrlBits
  txpkt1c : Txpkt1cBits
  txpkt1h : Txpkt1hBits
  rxpkt1h : Rxpkt1hBits
  int : IntBits
  stat : StatBits
  phyc : PhycBits
  timing : TimingFields
  /-- Bit LATCH_ULPS of PHY_AFEC0 (R48). -/
  latchUlps : Nat
  deriving DecidableEq, Repr, Inhabited

/-- The table `TimingConstants` (R214). -/
structure TimingConstants where
  czeroNs : Nat
  czeroUi : Nat
  cpreNs : Nat
  cpreUi : Nat
  cprepNs : Nat
  cprepUi : Nat
  ctrailNs : Nat
  ctrailUi : Nat
  cpostNs : Nat
  cpostUi : Nat
  wupNs : Nat
  exitNs : Nat
  exitUi : Nat
  zeroNs : Nat
  zeroUi : Nat
  preNs : Nat
  preUi : Nat
  lpxNs : Nat
  trailANs : Nat
  trailAUi : Nat
  trailBNs : Nat
  trailBUi : Nat
  anlat : Nat
  initNs : Nat
  taGetMult : Nat
  taSureMult : Nat
  taGoMult : Nat
  lpWupNs : Nat
  deriving DecidableEq, Repr, Inhabited

/-- The implementation parameters of R9. State holds them as data that no step changes, so a statement about every
state is a statement about every choice of parameters (log 9). -/
structure Params where
  variant : Variant
  regMap : RegMap
  timing : TimingConstants
  /-- `PIX_FIFO_WIDTH`, in bytes per pixel-FIFO word. The rules R115, R245, R247 and R250 write its default 4; the model
  reads the parameter there (log 28). -/
  pixFifoWidth : Nat
  /-- `CMD_FIFO_DEPTH`, in bytes. -/
  cmdFifoDepth : Nat
  /-- `PIX_FIFO_DEPTH`, in words. -/
  pixFifoDepth : Nat
  /-- `RX_FIFO_DEPTH`, in bytes; OPEN, none where it is not given (R9, R197). -/
  rxFifoDepth : Option Nat
  maxLanes : Nat
  escClkHz : Nat
  uiNumerator : Nat
  byteQuantum : Nat
  cmdRepeat : Nat
  fifoResetMask : Word
  intStatLatchesMasked : Bool
  irqShared : Bool
  /-- `XFER_TIMEOUT`, in milliseconds. No rule of the untimed model reads it (R420). -/
  xferTimeoutMs : Nat
  /-- `ULPS_TIMEOUT`, in units. No rule of the untimed model reads it (R420). -/
  ulpsTimeoutUnits : Nat
  /-- The length of a unit of `ULPS_TIMEOUT`, in nanoseconds; OPEN, none where it is not given (D38). No rule of the
  untimed model reads it (R420). -/
  ulpsTimeoutUnitNs : Option Nat
  /-- `SETTLE_DELAY`; OPEN, none where it is not given (D49). No rule of the untimed model reads it (R386). -/
  settleDelay : Option Nat
  deriving DecidableEq, Repr, Inhabited

/-- FREE VALUE (log 3). The n-th draw of the run: any 32-bit value. Used for the read-back of TXPKT1C bit 0 (R185), of
the CTRL clear bits (R186) and of an empty response FIFO (R189). It has no body, so nothing can be proved of it. -/
opaque Config.draw : Nat → Word

/-- FREE VALUE (log 9). The register map of the DSI0 variant, which no source gives (R57). -/
opaque Config.regMapDsi0 : RegMap

end Sys2Proof
end

