-- ==== Sys2Proof/Machine/RegTable.lean ====
section
/-! DEFINITION. The default parameter values of 00_scope.md R9, the DSI1 register map of 10_state.md R36 to R48, and the
two lookups between register names and offsets. All positions are the spec's general-knowledge defaults (log 9). -/

namespace Sys2Proof

/-- The DSI1 offsets (R36). -/
def Offsets.dsi1 : Offsets :=
  { ctrl := 0x00, txpkt1c := 0x04, txpkt1h := 0x08, rxpkt1h := 0x14, cmdFifo := 0x1C, pixFifo := 0x20,
    rxFifo := 0x24, intStat := 0x30, intEn := 0x34, stat := 0x38, phyc := 0x4C, hsClt0 := 0x50, hsClt1 := 0x54,
    hsClt2 := 0x58, hsDlt3 := 0x5C, hsDlt4 := 0x60, hsDlt5 := 0x64, hsDlt6 := 0x68, hsDlt7 := 0x6C,
    phyAfec0 := 0x70 }

/-- CTRL (R37). -/
def CtrlBits.dsi1 : CtrlBits := { clrLdf := 7, clrRxf := 6, clrPdf := 5, clrCdf := 4, en := 0 }

/-- TXPKT1C (R38). -/
def Txpkt1cBits.dsi1 : Txpkt1cBits :=
  { trigCmd := ⟨31, 24⟩, cmdRepeat := ⟨23, 10⟩, displayNo := ⟨9, 8⟩, cmdTxTime := ⟨7, 6⟩, cmdCtrl := ⟨5, 4⟩,
    cmdModeLp := 3, cmdTypeLong := 2, cmdTeEn := 1, cmdEn := 0 }

/-- TXPKT1H (R39). -/
def Txpkt1hBits.dsi1 : Txpkt1hBits := { bcCmdFifo := ⟨31, 24⟩, bcParam := ⟨23, 8⟩, bcDt := ⟨7, 0⟩ }

/-- RXPKT1H (R40). -/
def Rxpkt1hBits.dsi1 : Rxpkt1hBits :=
  { crcErr := 31, detErr := 30, eccErr := 29, corErr := 28, incompPkt := 25, pktTypeLong := 24,
    bcParam := ⟨23, 8⟩, short1 := ⟨23, 16⟩, short0 := ⟨15, 8⟩, dt := ⟨7, 0⟩ }

/-- INT_STAT and INT_EN (R42, R43). -/
def IntBits.dsi1 : IntBits :=
  { phyD3Ulps := 30, phyD3Stop := 29, phyD2Ulps := 28, phyD2Stop := 27, phyD1Ulps := 26, phyD1Stop := 25,
    phyD0Ulps := 24, phyD0Stop := 23, fifoErr := 22, phyDirRtf := 21, phyRxlpdt := 20, phyRxtrig := 19,
    phyD0Lpdt := 18, phyDirFtr := 17, phyClockUlps := 16, phyClockHs := 15, phyClockStop := 14, prTo := 13,
    taTo := 12, lprxTo := 11, hstxTo := 10, errContLp1 := 9, errContLp0 := 8, errControl := 7, errSyncEsc := 6,
    rxpkt2 := 5, rxpkt1 := 4, txpkt2Done := 3, txpkt2End := 2, txpkt1Done := 1, txpkt1End := 0 }

/-- STAT (R45). -/
def StatBits.dsi1 : StatBits :=
  { phyD3Ulps := 31, phyD3Stop := 30, phyD2Ulps := 29, phyD2Stop := 28, phyD1Ulps := 27, phyD1Stop := 26,
    phyD0Ulps := 25, phyD0Stop := 24, fifoErr := 23, phyRxlpdt := 22, phyRxtrig := 21, phyD0Lpdt := 20,
    phyDir := 19, phyClockUlps := 18, phyClockHs := 17, phyClockStop := 16, prTo := 15, taTo := 14, lprxTo := 13,
    hstxTo := 12, errContLp1 := 11, errContLp0 := 10, errControl := 9, errSyncEsc := 8, rxpkt2 := 7, rxpkt1 := 6,
    txpkt2Busy := 5, txpkt2Done := 4, txpkt2End := 3, txpkt1Busy := 2, txpkt1Done := 1, txpkt1End := 0 }

/-- PHYC (R46). -/
def PhycBits.dsi1 : PhycBits :=
  { escClkLpdt := ⟨25, 20⟩, hsClkContinuous := 18, clockUlps := 17, clockEnable := 16, dlane3Ulps := 13,
    dlane3Enable := 12, dlane2Ulps := 9, dlane2Enable := 8, dlane1Ulps := 5, dlane1Enable := 4,
    dlane0ForceStop := 2, dlane0Ulps := 1, dlane0Enable := 0 }

/-- HS_CLT0 to HS_DLT7 (R47). -/
def TimingFields.dsi1 : TimingFields :=
  { czero := ⟨26, 18⟩, cpre := ⟨17, 9⟩, cprep := ⟨8, 0⟩, ctrail := ⟨17, 9⟩, cpost := ⟨8, 0⟩, wup := ⟨23, 0⟩,
    exit := ⟨26, 18⟩, zero := ⟨17, 9⟩, pre := ⟨8, 0⟩, anlat := ⟨22, 18⟩, trail := ⟨17, 9⟩, lpx := ⟨8, 0⟩,
    init := ⟨23, 0⟩, taGet := ⟨31, 24⟩, taSure := ⟨23, 16⟩, taGo := ⟨15, 8⟩, lpLpx := ⟨7, 0⟩, lpWup := ⟨23, 0⟩ }

/-- The default register map, DSI1 (R36). -/
def RegMap.dsi1 : RegMap :=
  { offsets := .dsi1, ctrl := .dsi1, txpkt1c := .dsi1, txpkt1h := .dsi1, rxpkt1h := .dsi1, int := .dsi1,
    stat := .dsi1, phyc := .dsi1, timing := .dsi1, latchUlps := 14 }

/-- The map a variant selects (R36, R57). The DSI0 map is open. -/
def RegMap.ofVariant : Variant → RegMap
  | .dsi0 => Config.regMapDsi0
  | .dsi1 => .dsi1

/-- The default timing constants (R214). -/
def TimingConstants.default : TimingConstants :=
  { czeroNs := 262, czeroUi := 0, cpreNs := 0, cpreUi := 8, cprepNs := 38, cprepUi := 0, ctrailNs := 60, ctrailUi := 0,
    cpostNs := 60, cpostUi := 52, wupNs := 1000000, exitNs := 100, exitUi := 0, zeroNs := 105, zeroUi := 6,
    preNs := 40, preUi := 4, lpxNs := 60, trailANs := 0, trailAUi := 8, trailBNs := 60, trailBUi := 4, anlat := 0,
    initNs := 5000000, taGetMult := 5, taSureMult := 1, taGoMult := 4, lpWupNs := 1000000 }

/-- The default parameters with a variant's map (R9, R57). -/
def Params.ofVariant (v : Variant) : Params :=
  { variant := v, regMap := RegMap.ofVariant v, timing := .default, pixFifoWidth := 4, cmdFifoDepth := 16,
    pixFifoDepth := 256, rxFifoDepth := none, maxLanes := 4, escClkHz := 100000000, uiNumerator := 500000000, byteQuantum := 8,
    cmdRepeat := 1, fifoResetMask := 0x00000070, intStatLatchesMasked := true, irqShared := true,
    xferTimeoutMs := 100, ulpsTimeoutUnits := 20, ulpsTimeoutUnitNs := none, settleDelay := none }

/-- The default parameters (R9). -/
def Params.default : Params := Params.ofVariant .dsi1

/-- Every register name, in the order of R36. -/
def RegName.all : List RegName :=
  [.ctrl, .txpkt1c, .txpkt1h, .rxpkt1h, .cmdFifo, .pixFifo, .rxFifo, .intStat, .intEn, .stat, .phyc,
   .hsClt0, .hsClt1, .hsClt2, .hsDlt3, .hsDlt4, .hsDlt5, .hsDlt6, .hsDlt7, .phyAfec0]

/-- The offset `RegMap` gives a register (R36). -/
def RegMap.offsetOf (m : RegMap) : RegName → Nat
  | .ctrl => m.offsets.ctrl
  | .txpkt1c => m.offsets.txpkt1c
  | .txpkt1h => m.offsets.txpkt1h
  | .rxpkt1h => m.offsets.rxpkt1h
  | .cmdFifo => m.offsets.cmdFifo
  | .pixFifo => m.offsets.pixFifo
  | .rxFifo => m.offsets.rxFifo
  | .intStat => m.offsets.intStat
  | .intEn => m.offsets.intEn
  | .stat => m.offsets.stat
  | .phyc => m.offsets.phyc
  | .hsClt0 => m.offsets.hsClt0
  | .hsClt1 => m.offsets.hsClt1
  | .hsClt2 => m.offsets.hsClt2
  | .hsDlt3 => m.offsets.hsDlt3
  | .hsDlt4 => m.offsets.hsDlt4
  | .hsDlt5 => m.offsets.hsDlt5
  | .hsDlt6 => m.offsets.hsDlt6
  | .hsDlt7 => m.offsets.hsDlt7
  | .phyAfec0 => m.offsets.phyAfec0

/-- The register an offset names, if it names one (R100, R106). -/
def RegMap.nameAt (m : RegMap) (off : Nat) : Option RegName :=
  RegName.all.find? fun r => m.offsetOf r == off

/-- A map whose offsets name one register each, at multiples of 4 (R100, R102). -/
def RegMap.offsetsValid (m : RegMap) : Bool :=
  RegName.all.all (fun r => m.offsetOf r % 4 == 0 && m.nameAt (m.offsetOf r) == some r)

/-- The DSI1 registers the core never accesses (R49). None is in the map, so an access to one faults (R190). -/
def unmappedDsi1 : List Nat :=
  [0x0C, 0x10, 0x18, 0x28, 0x2C, 0x3C, 0x40, 0x44, 0x48, 0x74, 0x78, 0x7C, 0x80, 0x84, 0x88, 0x8C]

end Sys2Proof
end

