-- ==== Sys2Proof/Syntax.lean ====
section
/-! DEFINITION. The instructions: one constructor for each row of spec/opcode_table.json (30_encoding.md R144), with the
operand records of R131, and the images a requester, a bus master or the interrupt input presents. -/

namespace Sys2Proof

/-- The operand record of CONFIGURE (R131). `format` is a natural here, since R240 checks it against 3 (log 10). -/
structure ConfigRecord where
  lanes : Nat
  format : Nat
  videoMode : Bool
  clkNoncontinuous : Bool
  lpmPref : Bool
  channel : Nat
  deriving DecidableEq, Repr, Inhabited

/-- The `Packet` record, "Outbound Packet" (R131). -/
structure Packet where
  isLong : Bool
  channel : Nat
  dataType : Nat
  bytes : List Byte
  expectsResponse : Bool
  rxLen : Nat
  lp : Bool
  deriving DecidableEq, Repr, Inhabited

/-- The operand record that accompanies a request word (R131). -/
inductive Operands where
  | none
  | config (c : ConfigRecord)
  | rate (hz : Nat)
  | packet (p : Packet)
  deriving DecidableEq, Repr, Inhabited

/-- A request: the 32-bit request word and its operand record (R130, R131). -/
structure Request where
  word : Word
  operands : Operands
  deriving DecidableEq, Repr, Inhabited

/-- A transaction on the register master port (R139): `dir` is 0 for READ32 and 1 for WRITE32. -/
structure BusAccess where
  dir : BitVec 1
  off : Nat
  data : Word
  deriving DecidableEq, Repr, Inhabited

/-- What can be presented to the machine, one alternative for each format of R144. -/
inductive Image where
  | request (r : Request)
  | event
  | bus (t : BusAccess)
  | mmio (t : BusAccess)
  deriving DecidableEq, Repr, Inhabited

/-- The two forms of an access to a named register (R180, R181). -/
inductive Access where
  | read
  | write (v : Word)
  deriving DecidableEq, Repr, Inhabited

/-- The instructions, one constructor for each row of the opcode table (R144). -/
inductive Instr where
  | configure (c : ConfigRecord)
  | timingCompute (rateHz : Nat)
  | programTiming
  | encode (pkt : Packet)
  | ulpsEnter
  | ulpsExit
  | transfer (pkt : Packet)
  | phyState
  | irqClassify
  | read32 (off : Nat)
  | write32 (off : Nat) (v : Word)
  | mmioCtrl (a : Access)
  | mmioTxpkt1c (a : Access)
  | mmioTxpkt1h (a : Access)
  | mmioRxpkt1h (a : Access)
  | mmioTxpktCmdFifo (a : Access)
  | mmioTxpktPixFifo (a : Access)
  | mmioRxpktFifo (a : Access)
  | mmioIntStat (a : Access)
  | mmioIntEn (a : Access)
  | mmioStat (a : Access)
  | mmioPhyc (a : Access)
  | mmioHsClt0 (a : Access)
  | mmioHsClt1 (a : Access)
  | mmioHsClt2 (a : Access)
  | mmioHsDlt3 (a : Access)
  | mmioHsDlt4 (a : Access)
  | mmioHsDlt5 (a : Access)
  | mmioHsDlt6 (a : Access)
  | mmioHsDlt7 (a : Access)
  | mmioPhyAfec0 (a : Access)
  deriving DecidableEq, Repr, Inhabited

/-- The pseudo-operations (R143). -/
inductive Pseudo where
  | enable
  | dcsWrite0 (ch : Nat) (cmd : Byte) (lp : Bool)
  | dcsWrite1 (ch : Nat) (cmd p : Byte) (lp : Bool)
  | dcsLwrite (ch : Nat) (bytes : List Byte) (lp : Bool)
  | dcsRead (ch : Nat) (cmd : Byte) (n : Nat) (lp : Bool)
  | genLwrite (ch : Nat) (bytes : List Byte) (lp : Bool)
  deriving DecidableEq, Repr, Inhabited

end Sys2Proof
end

