-- ==== Sys2Proof/WellFormed.lean ====
section
/-! DEFINITION. The legal operand ranges the spec states. An instruction outside them still runs: the machine answers it
with the result code, the refusal or the fault the spec gives. -/

namespace Sys2Proof

/-- The legal CONFIGURE operands (R32, R131, R240). -/
def ConfigRecord.wellFormed (p : Params) (c : ConfigRecord) : Bool :=
  decide (1 ≤ c.lanes) && decide (c.lanes ≤ p.maxLanes) && decide (c.format ≤ 3) && decide (c.channel ≤ 3)

/-- The legal packets: the ranges of R131 and the packet conditions 3 to 7 of R246. -/
def Packet.wellFormed (k : Packet) : Bool :=
  decide (k.channel ≤ 3) && decide (k.dataType ≤ 0x3F) && (k.isLong || decide (k.bytes.length ≤ 2)) &&
    (k.expectsResponse == decide (k.rxLen ≠ 0)) && decide (k.rxLen ≤ 65535)

/-- The legal offsets of a bus access: those `RegMap` names, all multiples of 4 (R102, R106). -/
def RegMap.legalOffset (m : RegMap) (off : Nat) : Bool := off % 4 == 0 && (m.nameAt off).isSome

/-- The forms a register's access class allows (R180, R181, R190): no read of a push port, no write of RXPKT1H or of the
pop port. -/
def Access.allowedOn (r : RegName) : Access → Bool
  | .read => r != .cmdFifo && r != .pixFifo
  | .write _ => r != .rxpkt1h && r != .rxFifo

/-- The well-formed instructions under the parameters `p`. -/
def Instr.wellFormed (p : Params) : Instr → Bool
  | .configure c => c.wellFormed p
  | .timingCompute r => decide (1 ≤ r)
  | .programTiming => true
  | .encode k => k.wellFormed
  | .ulpsEnter => true
  | .ulpsExit => true
  | .transfer k => k.wellFormed
  | .phyState => true
  | .irqClassify => true
  | .read32 off => p.regMap.legalOffset off && ((p.regMap.nameAt off).all fun r => Access.allowedOn r .read)
  | .write32 off v => p.regMap.legalOffset off && ((p.regMap.nameAt off).all fun r => Access.allowedOn r (.write v))
  | .mmioCtrl a => a.allowedOn .ctrl
  | .mmioTxpkt1c a => a.allowedOn .txpkt1c
  | .mmioTxpkt1h a => a.allowedOn .txpkt1h
  | .mmioRxpkt1h a => a.allowedOn .rxpkt1h
  | .mmioTxpktCmdFifo a => a.allowedOn .cmdFifo
  | .mmioTxpktPixFifo a => a.allowedOn .pixFifo
  | .mmioRxpktFifo a => a.allowedOn .rxFifo
  | .mmioIntStat a => a.allowedOn .intStat
  | .mmioIntEn a => a.allowedOn .intEn
  | .mmioStat a => a.allowedOn .stat
  | .mmioPhyc a => a.allowedOn .phyc
  | .mmioHsClt0 a => a.allowedOn .hsClt0
  | .mmioHsClt1 a => a.allowedOn .hsClt1
  | .mmioHsClt2 a => a.allowedOn .hsClt2
  | .mmioHsDlt3 a => a.allowedOn .hsDlt3
  | .mmioHsDlt4 a => a.allowedOn .hsDlt4
  | .mmioHsDlt5 a => a.allowedOn .hsDlt5
  | .mmioHsDlt6 a => a.allowedOn .hsDlt6
  | .mmioHsDlt7 a => a.allowedOn .hsDlt7
  | .mmioPhyAfec0 a => a.allowedOn .phyAfec0

end Sys2Proof
end

