-- ==== Sys2Proof/Decode.lean ====
section
/-! DEFINITION. The decoder of each format of 30_encoding.md R144, total and rejecting by name, the encoder, the decoder
of a bare opcode-table word, and the pseudo-operations of R143. -/

namespace Sys2Proof

/-- Why an image decodes to no instruction: the three decode-time refusals of R372 in their order, and an mmio offset
that no row of the table names (R190). -/
inductive DecodeError where
  | reservedOp
  | rsvNonzero
  | badOperands
  | badOffset (off : Nat)
  deriving DecidableEq, Repr, Inhabited

/-- Field `op`, bits 3:0 of a request word (R130). -/
def opField (w : Word) : BitVec 4 := w.extractLsb' 0 4

/-- Field `rsv`, bits 31:4 of a request word (R130). -/
def rsvField (w : Word) : BitVec 28 := w.extractLsb' 4 28

/-- The operand record of an operation has the shape its `op` selects, or the request is refused (R131, R140). -/
def decodeOperands (op : Nat) (ops : Operands) : Except DecodeError Instr :=
  match op, ops with
  | 0x1, .config c => .ok (.configure c)
  | 0x2, .rate hz => .ok (.timingCompute hz)
  | 0x3, .none => .ok .programTiming
  | 0x4, .packet p => .ok (.encode p)
  | 0x5, .none => .ok .ulpsEnter
  | 0x6, .none => .ok .ulpsExit
  | 0x7, .packet p => .ok (.transfer p)
  | 0x8, .none => .ok .phyState
  | _, _ => .error .badOperands

/-- The request decoder (R130, R140, R141), its rejections in the order of R372. -/
def decodeRequest (r : Request) : Except DecodeError Instr :=
  if opField r.word = 0 ∨ 9 ≤ (opField r.word).toNat then .error .reservedOp
  else if rsvField r.word ≠ 0 then .error .rsvNonzero
  else decodeOperands (opField r.word).toNat r.operands

/-- The form of a transaction: `dir` 0 reads, `dir` 1 writes its data (R139). -/
def BusAccess.access (t : BusAccess) : Access := if t.dir = 0 then .read else .write t.data

/-- The transaction decoder of the bus rows (R139, R144). -/
def decodeBus (t : BusAccess) : Instr :=
  if t.dir = 0 then .read32 t.off else .write32 t.off t.data

/-- The mmio row of a register (R144). -/
def mmioInstr : RegName → Access → Instr
  | .ctrl => .mmioCtrl
  | .txpkt1c => .mmioTxpkt1c
  | .txpkt1h => .mmioTxpkt1h
  | .rxpkt1h => .mmioRxpkt1h
  | .cmdFifo => .mmioTxpktCmdFifo
  | .pixFifo => .mmioTxpktPixFifo
  | .rxFifo => .mmioRxpktFifo
  | .intStat => .mmioIntStat
  | .intEn => .mmioIntEn
  | .stat => .mmioStat
  | .phyc => .mmioPhyc
  | .hsClt0 => .mmioHsClt0
  | .hsClt1 => .mmioHsClt1
  | .hsClt2 => .mmioHsClt2
  | .hsDlt3 => .mmioHsDlt3
  | .hsDlt4 => .mmioHsDlt4
  | .hsDlt5 => .mmioHsDlt5
  | .hsDlt6 => .mmioHsDlt6
  | .hsDlt7 => .mmioHsDlt7
  | .phyAfec0 => .mmioPhyAfec0

/-- The decoder of the mmio rows: an offset that `RegMap` names selects its row (R144). -/
def decodeMmio (m : RegMap) (t : BusAccess) : Except DecodeError Instr :=
  match m.nameAt t.off with
  | some r => .ok (mmioInstr r t.access)
  | none => .error (.badOffset t.off)

/-- The decoder of every format (R144). -/
def decode (m : RegMap) : Image → Except DecodeError Instr
  | .request r => decodeRequest r
  | .event => .ok .irqClassify
  | .bus t => .ok (decodeBus t)
  | .mmio t => decodeMmio m t

/-- The transaction of an access to an offset (R139). -/
def busAccess (off : Nat) : Access → BusAccess
  | .read => ⟨0, off, 0⟩
  | .write v => ⟨1, off, v⟩

/-- The encoder: the image of an instruction, from the same tables (R130, R139, R144). -/
def encode (m : RegMap) : Instr → Image
  | .configure c => .request ⟨0x1, .config c⟩
  | .timingCompute hz => .request ⟨0x2, .rate hz⟩
  | .programTiming => .request ⟨0x3, .none⟩
  | .encode p => .request ⟨0x4, .packet p⟩
  | .ulpsEnter => .request ⟨0x5, .none⟩
  | .ulpsExit => .request ⟨0x6, .none⟩
  | .transfer p => .request ⟨0x7, .packet p⟩
  | .phyState => .request ⟨0x8, .none⟩
  | .irqClassify => .event
  | .read32 off => .bus (busAccess off .read)
  | .write32 off v => .bus (busAccess off (.write v))
  | .mmioCtrl a => .mmio (busAccess (m.offsetOf .ctrl) a)
  | .mmioTxpkt1c a => .mmio (busAccess (m.offsetOf .txpkt1c) a)
  | .mmioTxpkt1h a => .mmio (busAccess (m.offsetOf .txpkt1h) a)
  | .mmioRxpkt1h a => .mmio (busAccess (m.offsetOf .rxpkt1h) a)
  | .mmioTxpktCmdFifo a => .mmio (busAccess (m.offsetOf .cmdFifo) a)
  | .mmioTxpktPixFifo a => .mmio (busAccess (m.offsetOf .pixFifo) a)
  | .mmioRxpktFifo a => .mmio (busAccess (m.offsetOf .rxFifo) a)
  | .mmioIntStat a => .mmio (busAccess (m.offsetOf .intStat) a)
  | .mmioIntEn a => .mmio (busAccess (m.offsetOf .intEn) a)
  | .mmioStat a => .mmio (busAccess (m.offsetOf .stat) a)
  | .mmioPhyc a => .mmio (busAccess (m.offsetOf .phyc) a)
  | .mmioHsClt0 a => .mmio (busAccess (m.offsetOf .hsClt0) a)
  | .mmioHsClt1 a => .mmio (busAccess (m.offsetOf .hsClt1) a)
  | .mmioHsClt2 a => .mmio (busAccess (m.offsetOf .hsClt2) a)
  | .mmioHsDlt3 a => .mmio (busAccess (m.offsetOf .hsDlt3) a)
  | .mmioHsDlt4 a => .mmio (busAccess (m.offsetOf .hsDlt4) a)
  | .mmioHsDlt5 a => .mmio (busAccess (m.offsetOf .hsDlt5) a)
  | .mmioHsDlt6 a => .mmio (busAccess (m.offsetOf .hsDlt6) a)
  | .mmioHsDlt7 a => .mmio (busAccess (m.offsetOf .hsDlt7) a)
  | .mmioPhyAfec0 a => .mmio (busAccess (m.offsetOf .phyAfec0) a)

/-- The operand record of an operation with every operand zero, false or empty. -/
def zeroOperands (op : Nat) : Operands :=
  match op with
  | 0x1 => .config ⟨0, 0, false, false, false, 0⟩
  | 0x2 => .rate 0
  | 0x4 => .packet ⟨false, 0, 0, [], false, 0, false⟩
  | 0x7 => .packet ⟨false, 0, 0, [], false, 0, false⟩
  | _ => .none

/-- The request a bare request word stands for: its operand record all zero. -/
def bareRequest (w : Word) : Request := ⟨w, zeroOperands (opField w).toNat⟩

/-- The image a bare opcode-table word stands for (log 11): no bits, the interrupt event; 8 bits, the `dir` of a bus
transaction; 32 bits, a request word, or, where the request decoder refuses it, the offset of an mmio row. -/
def tableImage (m : RegMap) (nbits w : Nat) : Option Image :=
  if nbits = 0 then some .event
  else if nbits = 8 then
    if w < 2 then some (.bus ⟨BitVec.ofNat 1 w, 0, 0⟩) else none
  else if nbits = 32 ∧ w < 2 ^ 32 then
    match decodeRequest (bareRequest (BitVec.ofNat 32 w)), m.nameAt w with
    | .error _, some _ => some (.mmio ⟨0, w, 0⟩)
    | _, _ => some (.request (bareRequest (BitVec.ofNat 32 w)))
  else none

/-- The instruction the decoder reads from a bare opcode-table word, under the default map (log 11). -/
def decodeTableWord (nbits w : Nat) : Option Instr :=
  match tableImage RegMap.dsi1 nbits w with
  | some img =>
    match decode RegMap.dsi1 img with
    | .ok i => some i
    | .error _ => none
  | none => none

/-- The expansion of a pseudo-operation (R143). -/
def Pseudo.expand : Pseudo → Instr
  | .enable => .programTiming
  | .dcsWrite0 ch cmd lp => .transfer ⟨false, ch, 0x05, [cmd], false, 0, lp⟩
  | .dcsWrite1 ch cmd p lp => .transfer ⟨false, ch, 0x15, [cmd, p], false, 0, lp⟩
  | .dcsLwrite ch bytes lp => .transfer ⟨true, ch, 0x39, bytes, false, 0, lp⟩
  | .dcsRead ch cmd n lp => .transfer ⟨false, ch, 0x06, [cmd], true, n, lp⟩
  | .genLwrite ch bytes lp => .transfer ⟨true, ch, 0x29, bytes, false, 0, lp⟩

end Sys2Proof
end

