-- ==== Sys2Proof/Machine/State.lean ====
section
/-! DEFINITION. The state of the machine: the core's registers (10_state.md sections 1 and 2), the controller the model
must hold (sections 4 and 5), the ports (00_scope.md R4), and the two fields of the model's own. -/

namespace Sys2Proof.Machine

open Sys2Proof

/-- The result codes (R370). -/
inductive Code where
  | ok
  | config
  | capacity
  | timeout
  | mismatch
  | seqTimeout
  | seqDegraded
  deriving DecidableEq, Repr, Inhabited

/-- The value of the completion slot `xfer_signal` (R35, R346). -/
inductive Signal where
  | ok
  | timeout
  deriving DecidableEq, Repr, Inhabited

/-- The PHY power state the sequencer reports (R52). -/
inductive PhyState where
  | active
  | enteringUlps
  | ulps
  | exitingUlps
  | stop
  deriving DecidableEq, Repr, Inhabited

/-- The step the interrupt classifier is at (R54). -/
inductive ClsState where
  | cIdle
  | cRead
  | cClear
  | cClassify
  deriving DecidableEq, Repr, Inhabited

/-- The pixel formats (R32). -/
inductive PixelFormat where
  | rgb888
  | rgb666
  | rgb666Packed
  | rgb565
  deriving DecidableEq, Repr, Inhabited

/-- The eight always-on error bits (R44, R343). -/
inductive ErrBit where
  | errSyncEsc
  | errControl
  | errContLp0
  | errContLp1
  | hstxTo
  | lprxTo
  | taTo
  | prTo
  deriving DecidableEq, Repr, Inhabited

/-- The events of the diagnostic output (R388). -/
inductive Event where
  | irqErr (b : ErrBit)
  | irqHandled
  | irqUnhandled
  | seqTimeoutUlps (t : Bool)
  | seqTimeoutStop (t : Bool)
  deriving DecidableEq, Repr, Inhabited

/-- The Timing Parameters bundle (R213). -/
structure Bundle where
  czero : Nat
  cpre : Nat
  cprep : Nat
  ctrail : Nat
  cpost : Nat
  wup : Nat
  exit : Nat
  zero : Nat
  pre : Nat
  lpx : Nat
  trail : Nat
  anlat : Nat
  init : Nat
  taGet : Nat
  taSure : Nat
  taGo : Nat
  lpLpx : Nat
  lpWup : Nat
  deriving DecidableEq, Repr, Inhabited

/-- The `Encoded` record (R133). -/
structure Encoded where
  header : Word
  control : Word
  cmdBytes : List Byte
  pixWords : List Word
  deriving DecidableEq, Repr, Inhabited

/-- The operation-specific part of a result (R132). -/
inductive Value where
  | none
  | bundle (b : Bundle)
  | encoded (e : Encoded)
  | phy (state : PhyState) (degraded : Bool) (latch : Bool)
  deriving DecidableEq, Repr, Inhabited

/-- A result record `(code, bytes, diag, value)` (R132). -/
structure Result where
  code : Code
  bytes : List Byte
  diag : Word
  value : Value
  deriving DecidableEq, Repr, Inhabited

/-- The Link Configuration register `cfg` (R32). -/
structure LinkConfig where
  configured : Bool
  lanes : Nat
  format : PixelFormat
  videoMode : Bool
  clkNoncontinuous : Bool
  lpmPref : Bool
  channel : Nat
  deriving DecidableEq, Repr, Inhabited

/-- The Transfer State slot `xfer` (R34). -/
structure XferSlot where
  pending : Bool
  result : Code
  rxBuf : List Byte
  deriving DecidableEq, Repr, Inhabited

/-- The step labels of PROGRAM_TIMING after P0 (R220). -/
inductive PLabel where
  | p1
  | p2
  | p3
  | p4
  | p5
  | p6
  | p7
  | p8
  | p9
  deriving DecidableEq, Repr, Inhabited

/-- The step labels of `ulps_seq` after S0 (R274). -/
inductive SLabel where
  | s1
  | s2
  | s3
  | s4
  | s5
  | s6
  | s7
  | s8
  | s9
  | s10
  | s11
  | s4t
  | s4u
  | s10t
  | s10u
  deriving DecidableEq, Repr, Inhabited

/-- The step labels of TRANSFER after T0 (R300). T19 and T20 are unused. -/
inductive TLabel where
  | t1
  | t2
  | t3
  | t4
  | t5
  | t6
  | t7
  | t8
  | t9
  | t10
  | t11
  | t12
  | t13
  | t14
  | t15
  | t16
  | t17
  | t18
  | t21
  deriving DecidableEq, Repr, Inhabited

/-- The pseudocode variables of `ulps_seq` (R274): the values read from PHY_AFEC0 and PHYC, the prior state, and
whether the running poll has had a failed read (R275). -/
structure SeqLocals where
  a : Word
  p : Word
  prior : PhyState
  pollFailed : Bool
  deriving DecidableEq, Repr, Inhabited

/-- The pseudocode variables of TRANSFER (R300): the encoded words, the bytes and words still to push, the result so
far, the values read from TXPKT1C and CTRL, the response bytes so far and the number still to drain. -/
structure XferLocals where
  header : Word
  control : Word
  cmdLeft : List Byte
  pixLeft : List Word
  r : Code
  c : Word
  k : Word
  rx : List Byte
  rxLeft : Nat
  deriving DecidableEq, Repr, Inhabited

/-- `op_state` (R31): IDLE, or the running operation, the label of its next step and its variables. The labels P0, S0
and T0 name the step taken when a request is accepted, at which `op_state` still reads IDLE (R380; log 13). -/
inductive OpState where
  | idle
  | programTiming (l : PLabel) (b : Bundle)
  | ulps (t : Bool) (l : SLabel) (v : SeqLocals)
  | transfer (pkt : Packet) (l : TLabel) (v : XferLocals)
  deriving DecidableEq, Repr, Inhabited

/-- The DSI controller (10_state.md sections 4 and 5): the registers of R37 to R48, the queues of R50, the hidden state
of R51, and what the read-back rules R185 and R186 need to remember of the last writes (log 19). -/
structure Controller where
  ctrl : Word
  txpkt1c : Word
  txpkt1h : Word
  rxpkt1h : Word
  intStat : Word
  intEn : Word
  stat : Word
  phyc : Word
  hsClt0 : Word
  hsClt1 : Word
  hsClt2 : Word
  hsDlt3 : Word
  hsDlt4 : Word
  hsDlt5 : Word
  hsDlt6 : Word
  hsDlt7 : Word
  phyAfec0 : Word
  cmdQ : List Byte
  pixQ : List Word
  rxQ : List Byte
  txActive : Bool
  txHdr : Word
  txCtl : Word
  /-- The environment has run a transmit step since the last write of TXPKT1C (R185). -/
  txStepped : Bool
  /-- The clear bits that the last write of CTRL wrote as 1 (R186). -/
  ctrlClears : Word
  deriving DecidableEq, Repr, Inhabited

/-- The environment's own steps (R195 to R198), with their draws, and the inputs other parties drive: the clock
provider's rate (R210) and the shared interrupt line (R340). -/
inductive EnvStep where
  /-- Set the INT_STAT bits `e` (R195). -/
  | intStat (e : Word)
  /-- The transmit step: `k` bytes and `m` words sent, TXPKT1_DONE set or not (R196). -/
  | transmit (k m : Nat) (done : Bool)
  /-- The response step: a header loaded or not, bytes appended, PHY_DIR_RTF set or not (R197). -/
  | response (header : Option Word) (bytes : List Byte) (rtf : Bool)
  /-- Set the STAT bits `e` (R198). -/
  | lanes (e : Word)
  /-- The clock provider drives `phy_rate_hz` (R210). -/
  | rate (hz : Nat)
  /-- Another user of a shared interrupt line asserts or releases it (R340). -/
  | sharedLine (b : Bool)
  deriving DecidableEq, Repr, Inhabited

/-- One scheduling choice: which agent takes the next step (R5, R108), with the draws of that step. -/
inductive Choice where
  /-- The operation engine; `deadline` says whether the time base lets a running wait time out at this step (R385). -/
  | engine (deadline : Bool)
  /-- The interrupt classifier (R341). -/
  | classifier
  /-- The environment (R195 to R198, R210, R340). -/
  | env (e : EnvStep)
  /-- A requester presents a request (R380). -/
  | present (r : Request)
  /-- A bus master outside the core presents a transaction, decoded by the bus rows (R139, R190). -/
  | bus (t : BusAccess)
  /-- The same, decoded by the mmio rows (R144). -/
  | mmio (t : BusAccess)
  /-- The core's reset is asserted (R400, R402). -/
  | reset
  deriving DecidableEq, Repr, Inhabited

/-- The transmit queues a push can overflow (R187, R188). -/
inductive TxQueue where
  | cmd
  | pix
  deriving DecidableEq, Repr, Inhabited

/-- The access classes of a register (R180, R181). -/
inductive AccessClass where
  | rw
  | roEnv
  | w1c
  | txpkt1c
  | ctrl
  | push (q : TxQueue)
  | pop
  deriving DecidableEq, Repr, Inhabited

/-- The faults of R371. All come from the register port and name what the faulting access named (R190). Each is safe:
the spec itself stops the model there, and the faulting access has no effect. -/
inductive Fault where
  /-- Raised by READ32, WRITE32 and the mmio decoder: the offset is not in `RegMap` or not a multiple of 4. Safe. -/
  | badOffset (off : Nat)
  /-- Raised by a read of a push port. Safe. -/
  | readOfWriteOnly (off : Nat)
  /-- Raised by a write of RXPKT1H or of the pop port. Safe. -/
  | writeOfReadOnly (off : Nat)
  /-- Raised by a push onto a full queue; of the core's own rules only TRANSFER T1 and T2 can raise it. Safe. -/
  | fifoOverflow (q : TxQueue)
  deriving DecidableEq, Repr, Inhabited

/-- The refusals of R372, in the order they are checked. Each is safe: the spec assigns the request no behaviour. -/
inductive Refusal where
  /-- Raised by exec for an instruction that has no meaning yet. Safe. -/
  | notModelled (mnemonic : String)
  /-- Raised by the request decoder. Safe. -/
  | reservedOp
  /-- Raised by the request decoder. Safe. -/
  | rsvNonzero
  /-- Raised by the request decoder. Safe. -/
  | badOperands
  /-- Raised by a second CONFIGURE (R240). Safe. -/
  | alreadyConfigured
  /-- Raised by TIMING_COMPUTE and PROGRAM_TIMING at rate 0 (R211). Safe. -/
  | zeroRate
  /-- Raised by PROGRAM_TIMING on a value too wide for its field (R219). Safe. -/
  | fieldOverflow
  deriving DecidableEq, Repr, Inhabited

/-- The whole state. -/
structure State where
  /-- The parameters of R9; no step changes them (log 9). -/
  params : Params
  op : OpState
  cfg : LinkConfig
  bundle : Option Bundle
  xfer : XferSlot
  signal : Option Signal
  phyState : PhyState
  phyDegraded : Bool
  clsState : ClsState
  clsWord : Word
  diag : Word
  ctl : Controller
  /-- The clock-rate input (R210). -/
  phyRateHz : Nat
  /-- The `spurious` part of `irq_in`: another user asserts a shared line (R340). -/
  sharedLine : Bool
  /-- The time base: a running wait may time out at this engine step (R385; log 4). -/
  deadline : Bool
  /-- The request port: the one request presented and not yet accepted (R380). -/
  port : Option Request
  /-- The result records placed on the port, oldest first (R132, R380). -/
  results : List Result
  /-- The bus trace: every register access, oldest first (R139). -/
  trace : List BusAccess
  /-- The diagnostic output, oldest first (R388). -/
  events : List Event
  /-- MODEL FIELD (log 1). The scheduling choices still to be taken, next first. -/
  agenda : List Choice
  /-- MODEL FIELD (log 3). How many free values have been drawn. -/
  draws : Nat
  deriving DecidableEq, Repr, Inhabited

/-- `cfg` at reset (R32). The fields other than `configured` are DESIGN CHOICE values (log 5). -/
def LinkConfig.reset : LinkConfig :=
  { configured := false, lanes := 0, format := .rgb888, videoMode := false, clkNoncontinuous := false,
    lpmPref := false, channel := 0 }

/-- `xfer` at reset (R34). -/
def XferSlot.reset : XferSlot := { pending := false, result := .ok, rxBuf := [] }

/-- A launch state of the controller (R401). The spec leaves every register and queue open; zero and empty are DESIGN
CHOICE values (log 6). `txActive`, `txHdr` and `txCtl` are as R51 gives them. -/
def Controller.launch : Controller :=
  { ctrl := 0, txpkt1c := 0, txpkt1h := 0, rxpkt1h := 0, intStat := 0, intEn := 0, stat := 0, phyc := 0,
    hsClt0 := 0, hsClt1 := 0, hsClt2 := 0, hsDlt3 := 0, hsDlt4 := 0, hsDlt5 := 0, hsDlt6 := 0, hsDlt7 := 0,
    phyAfec0 := 0, cmdQ := [], pixQ := [], rxQ := [], txActive := false, txHdr := 0, txCtl := 0,
    txStepped := false, ctrlClears := 0 }

/-- The machine right after reset over a launch state of the controller, a choice of parameters and a clock rate
(R56, R400, R401). -/
def State.initial (p : Params) (c : Controller) (rateHz : Nat) : State :=
  { params := p, op := .idle, cfg := .reset, bundle := none, xfer := .reset, signal := none, phyState := .active,
    phyDegraded := false, clsState := .cIdle, clsWord := 0, diag := 0, ctl := c, phyRateHz := rateHz,
    sharedLine := false, deadline := false, port := none, results := [], trace := [], events := [],
    agenda := [], draws := 0 }

/-- The machine right after reset (R56): the default parameters, the launch state of log 6, and the clock rate
500 MHz (DESIGN CHOICE, log 7). -/
def State.reset : State := State.initial .default .launch 500000000

end Sys2Proof.Machine
end

