-- ==== Sys2Proof/Machine/Operands.lean ====
section
/-! DEFINITION. Pure arithmetic on operands and words: the primitives of 00_scope.md R12 to R14, the controller words of
30_encoding.md R134 to R138, and the byte orders of 20_memory.md R115 and R116. -/

namespace Sys2Proof.Machine

open Sys2Proof

/-- `ceil_div(a, b)`, the least `q` with `q * b ≥ a`, for `b ≥ 1` (R13). DESIGN CHOICE (log 34): for `b = 0`, which R13
does not define and only a parameter of 0 reaches, it is 0. -/
def ceilDiv (a b : Nat) : Nat := (a + b - 1) / b

/-- `roundup(x, m)` (R13). For `m = 0` it is 0 (log 34). -/
def roundup (x m : Nat) : Nat := ceilDiv x m * m

/-- The word with bit `n` set alone, `1 << n` (R12). -/
def bit (n : Nat) : Word := (1 : Word) <<< n

/-- The bit `v[n]` (R12). -/
def bitOf (v : Word) (n : Nat) : Bool := v.getLsbD n

/-- The width of a field in bits (R14). -/
def fieldWidth (f : Field) : Nat := f.hi - f.lo + 1

/-- `set_field(v, hi, lo)` (R14). -/
def setField (f : Field) (v : Nat) : Word := BitVec.ofNat 32 (v % 2 ^ fieldWidth f) <<< f.lo

/-- `get_field(w, hi, lo)` (R12, R14). -/
def getField (f : Field) (w : Word) : Nat := (w.toNat / 2 ^ f.lo) % 2 ^ fieldWidth f

/-- `zext_32` of a byte (R12). -/
def zext (b : Byte) : Word := b.zeroExtend 32

/-- Bits 7:0 of a word (R12). -/
def lowByte (w : Word) : Byte := w.truncate 8

/-- Element `i` of a byte list, 0 beyond its end (R17, R134). -/
def byteAt (p : List Byte) (i : Nat) : Byte := p.getD i 0

/-- `pix_word(p, base)` with `width` bytes in a word: payload byte `k` of the group goes to bits `8k+7 : 8k` (R115). With
the default width 4 these are the four bytes of R115; bytes above bit 31 are lost at a greater width (log 28). -/
def pixWord (width : Nat) (p : List Byte) (base : Nat) : Word :=
  (List.range width).foldl (fun w k => w ||| zext (byteAt p (base + k)) <<< (8 * k)) 0

/-- The four bytes of a pixel word in little-endian order (R115). -/
def wordBytes (w : Word) : List Byte :=
  [lowByte w, lowByte (w >>> 8), lowByte (w >>> 16), lowByte (w >>> 24)]

/-- `cmd_len`: the number of payload bytes a packet puts in the command FIFO (R245, R250, R251). -/
def cmdLen (p : Params) (k : Packet) : Nat := if k.isLong then k.bytes.length % p.pixFifoWidth else 0

/-- `pix_words`: the number of words a packet puts in the pixel FIFO (R245, R250, R251). -/
def pixCount (p : Params) (k : Packet) : Nat :=
  if k.isLong then (k.bytes.length - k.bytes.length % p.pixFifoWidth) / p.pixFifoWidth else 0

/-- The command-FIFO bytes of a packet: the first `cmd_len` payload bytes (R250, R251). -/
def cmdBytesOf (p : Params) (k : Packet) : List Byte := if k.isLong then k.bytes.take (cmdLen p k) else []

/-- The pixel words of a packet (R245, R250, R251). -/
def pixWordsOf (p : Params) (k : Packet) : List Word :=
  (List.range (pixCount p k)).map fun i => pixWord p.pixFifoWidth k.bytes (cmdLen p k + p.pixFifoWidth * i)

/-- The data-type byte (R134). -/
def dtByte (k : Packet) : Nat := (k.channel <<< 6) ||| k.dataType

/-- The 16-bit parameter of the header (R134, R251). -/
def headerParam (k : Packet) : Nat :=
  if k.isLong then k.bytes.length else (byteAt k.bytes 0).toNat ||| ((byteAt k.bytes 1).toNat <<< 8)

/-- The header word (R134, R116). -/
def headerWord (p : Params) (k : Packet) : Word :=
  let m := p.regMap
  setField m.txpkt1h.bcDt (dtByte k) ||| setField m.txpkt1h.bcParam (headerParam k) |||
    (if k.isLong then setField m.txpkt1h.bcCmdFifo (cmdLen p k) else 0)

/-- The control word (R135, R248, R249). -/
def controlWord (p : Params) (k : Packet) : Word :=
  let b := p.regMap.txpkt1c
  setField b.cmdRepeat p.cmdRepeat ||| setField b.displayNo (if 0 < pixCount p k then 2 else 0) |||
    setField b.cmdCtrl (if k.expectsResponse then 1 else 0) ||| (if k.lp then bit b.cmdModeLp else 0) |||
    (if k.isLong then bit b.cmdTypeLong else 0) ||| bit b.cmdEn

/-- `encode(pkt)` (R245). -/
def encodePacket (p : Params) (k : Packet) : Encoded :=
  { header := headerWord p k, control := controlWord p k, cmdBytes := cmdBytesOf p k, pixWords := pixWordsOf p k }

/-- `is_long_resp` (R136). -/
def respIsLong (m : RegMap) (h : Word) : Bool := bitOf h m.rxpkt1h.pktTypeLong

/-- `long_count` (R136). -/
def respCount (m : RegMap) (h : Word) : Nat := getField m.rxpkt1h.bcParam h

/-- `[short_b0, short_b1]` (R136, R116). -/
def respShort (m : RegMap) (h : Word) : List Byte :=
  [BitVec.ofNat 8 (getField m.rxpkt1h.short0 h), BitVec.ofNat 8 (getField m.rxpkt1h.short1 h)]

/-- The words of the eight timing registers (R137), in the order PROGRAM_TIMING writes them (R220). -/
def clt0 (f : TimingFields) (b : Bundle) : Word :=
  setField f.czero b.czero ||| setField f.cpre b.cpre ||| setField f.cprep b.cprep

/-- HS_CLT1 (R137). -/
def clt1 (f : TimingFields) (b : Bundle) : Word := setField f.ctrail b.ctrail ||| setField f.cpost b.cpost

/-- HS_CLT2 (R137). -/
def clt2 (f : TimingFields) (b : Bundle) : Word := setField f.wup b.wup

/-- HS_DLT3 (R137). -/
def dlt3 (f : TimingFields) (b : Bundle) : Word :=
  setField f.exit b.exit ||| setField f.zero b.zero ||| setField f.pre b.pre

/-- HS_DLT4 (R137). -/
def dlt4 (f : TimingFields) (b : Bundle) : Word :=
  setField f.anlat b.anlat ||| setField f.trail b.trail ||| setField f.lpx b.lpx

/-- HS_DLT5 (R137). -/
def dlt5 (f : TimingFields) (b : Bundle) : Word := setField f.init b.init

/-- HS_DLT6 (R137). -/
def dlt6 (f : TimingFields) (b : Bundle) : Word :=
  setField f.taGet b.taGet ||| setField f.taSure b.taSure ||| setField f.taGo b.taGo ||| setField f.lpLpx b.lpLpx

/-- HS_DLT7 (R137). -/
def dlt7 (f : TimingFields) (b : Bundle) : Word := setField f.lpWup b.lpWup

/-- `PHYC_ULPS(n)` (R138). -/
def phycUlps (m : RegMap) (n : Nat) : Word :=
  bit m.phyc.clockUlps ||| bit m.phyc.dlane0Ulps ||| (if 1 < n then bit m.phyc.dlane1Ulps else 0) |||
    (if 2 < n then bit m.phyc.dlane2Ulps else 0) ||| (if 3 < n then bit m.phyc.dlane3Ulps else 0)

/-- `STAT_ULPS(n)` (R138). -/
def statUlps (m : RegMap) (n : Nat) : Word :=
  bit m.stat.phyClockUlps ||| bit m.stat.phyD0Ulps ||| (if 1 < n then bit m.stat.phyD1Ulps else 0) |||
    (if 2 < n then bit m.stat.phyD2Ulps else 0) ||| (if 3 < n then bit m.stat.phyD3Ulps else 0)

/-- `STAT_STOP(n)` (R138). -/
def statStop (m : RegMap) (n : Nat) : Word :=
  bit m.stat.phyClockStop ||| bit m.stat.phyD0Stop ||| (if 1 < n then bit m.stat.phyD1Stop else 0) |||
    (if 2 < n then bit m.stat.phyD2Stop else 0) ||| (if 3 < n then bit m.stat.phyD3Stop else 0)

/-- The `LATCH` bit of PHY_AFEC0 (R48, R274). -/
def latchMask (m : RegMap) : Word := bit m.latchUlps

/-- The codes of `format` (R131). -/
def formatOf (code : Nat) : PixelFormat :=
  match code with
  | 0 => .rgb888
  | 1 => .rgb666
  | 2 => .rgb666Packed
  | _ => .rgb565

/-- Bits per pixel of a format (R222, informative: no rule of the core uses it). -/
def bitsPerPixel : PixelFormat → Nat
  | .rgb888 => 24
  | .rgb666 => 24
  | .rgb666Packed => 18
  | .rgb565 => 16

end Sys2Proof.Machine
end

