-- ==== Sys2Proof/Machine/Flags.lean ====
section
/-! DEFINITION. The status bits and masks of 10_state.md R44, the interrupt input of 45_interrupt.md R340, and the numbers
of the result codes of 60_exceptions.md R370. The core has no condition codes (R53). -/

namespace Sys2Proof.Machine

open Sys2Proof

/-- The INT_STAT bit of an always-on error (R42). -/
def ErrBit.mask (m : RegMap) : ErrBit → Word
  | .errSyncEsc => bit m.int.errSyncEsc
  | .errControl => bit m.int.errControl
  | .errContLp0 => bit m.int.errContLp0
  | .errContLp1 => bit m.int.errContLp1
  | .hstxTo => bit m.int.hstxTo
  | .lprxTo => bit m.int.lprxTo
  | .taTo => bit m.int.taTo
  | .prTo => bit m.int.prTo

/-- The always-on errors in the order they are classified (R343). -/
def errOrder : List ErrBit :=
  [.errSyncEsc, .errControl, .errContLp0, .errContLp1, .hstxTo, .lprxTo, .taTo, .prTo]

/-- The OR of the masks of a list of errors. -/
def errMask (m : RegMap) (bs : List ErrBit) : Word := bs.foldl (fun w b => w ||| b.mask m) 0

/-- `ALWAYS_ON` (R44). -/
def alwaysOn (m : RegMap) : Word := errMask m errOrder

/-- `DONE_TX` (R44). -/
def doneTx (m : RegMap) : Word := bit m.int.txpkt1Done

/-- `DONE_RX` (R44). -/
def doneRx (m : RegMap) : Word := bit m.int.phyDirRtf

/-- `COMPLETION` (R44). -/
def completion (m : RegMap) : Word := doneTx m ||| doneRx m

/-- The recognized bits (R342). -/
def recognized (m : RegMap) : Word := alwaysOn m ||| completion m

/-- `done`, the completion bit of this transfer (R300, R305). -/
def doneBit (m : RegMap) (k : Packet) : Word := if k.expectsResponse then doneRx m else doneTx m

/-- The always-on errors set in a status word, in classification order (R343). -/
def errorsIn (m : RegMap) (w : Word) : List ErrBit := errOrder.filter fun b => w &&& b.mask m != 0

/-- `irq_in` (R340). -/
def irqIn (s : State) : Bool :=
  (s.ctl.intStat &&& s.ctl.intEn != 0) || (s.params.irqShared && s.sharedLine)

/-- The number of a result code (R370). -/
def Code.toNat : Code → Nat
  | .ok => 0
  | .config => 1
  | .capacity => 2
  | .timeout => 3
  | .mismatch => 4
  | .seqTimeout => 5
  | .seqDegraded => 6

/-- The result a signal carries (R307, R346). -/
def Signal.code : Signal → Code
  | .ok => .ok
  | .timeout => .timeout

end Sys2Proof.Machine
end

