-- ==== Sys2Proof/Machine/Ops.lean ====
section
/-! DEFINITION. The named operations over the state: the register port (40_register_port.md R180 to R190), results,
events, the completion slot, interrupt entry and return, the request port's hold, and the core's reset. -/

namespace Sys2Proof.Machine

open Sys2Proof

/-- The three outcomes of a step of this machine. -/
abbrev Out := Host.Outcome State Fault Refusal

/-- The access class of each register (R36, R182 to R189). -/
def classOf : RegName → AccessClass
  | .ctrl => .ctrl
  | .txpkt1c => .txpkt1c
  | .rxpkt1h => .roEnv
  | .cmdFifo => .push .cmd
  | .pixFifo => .push .pix
  | .rxFifo => .pop
  | .intStat => .w1c
  | .stat => .w1c
  | .txpkt1h => .rw
  | .intEn => .rw
  | .phyc => .rw
  | .hsClt0 => .rw
  | .hsClt1 => .rw
  | .hsClt2 => .rw
  | .hsDlt3 => .rw
  | .hsDlt4 => .rw
  | .hsDlt5 => .rw
  | .hsDlt6 => .rw
  | .hsDlt7 => .rw
  | .phyAfec0 => .rw

/-- `reg[r]`. The three FIFO ports hold no register (R41). -/
def Controller.reg (c : Controller) : RegName → Word
  | .ctrl => c.ctrl
  | .txpkt1c => c.txpkt1c
  | .txpkt1h => c.txpkt1h
  | .rxpkt1h => c.rxpkt1h
  | .intStat => c.intStat
  | .intEn => c.intEn
  | .stat => c.stat
  | .phyc => c.phyc
  | .hsClt0 => c.hsClt0
  | .hsClt1 => c.hsClt1
  | .hsClt2 => c.hsClt2
  | .hsDlt3 => c.hsDlt3
  | .hsDlt4 => c.hsDlt4
  | .hsDlt5 => c.hsDlt5
  | .hsDlt6 => c.hsDlt6
  | .hsDlt7 => c.hsDlt7
  | .phyAfec0 => c.phyAfec0
  | .cmdFifo => 0
  | .pixFifo => 0
  | .rxFifo => 0

/-- `reg[r] <- v`. The three FIFO ports hold no register (R41). -/
def Controller.setReg (c : Controller) (r : RegName) (v : Word) : Controller :=
  match r with
  | .ctrl => { c with ctrl := v }
  | .txpkt1c => { c with txpkt1c := v }
  | .txpkt1h => { c with txpkt1h := v }
  | .rxpkt1h => { c with rxpkt1h := v }
  | .intStat => { c with intStat := v }
  | .intEn => { c with intEn := v }
  | .stat => { c with stat := v }
  | .phyc => { c with phyc := v }
  | .hsClt0 => { c with hsClt0 := v }
  | .hsClt1 => { c with hsClt1 := v }
  | .hsClt2 => { c with hsClt2 := v }
  | .hsDlt3 => { c with hsDlt3 := v }
  | .hsDlt4 => { c with hsDlt4 := v }
  | .hsDlt5 => { c with hsDlt5 := v }
  | .hsDlt6 => { c with hsDlt6 := v }
  | .hsDlt7 => { c with hsDlt7 := v }
  | .phyAfec0 => { c with phyAfec0 := v }
  | .cmdFifo => c
  | .pixFifo => c
  | .rxFifo => c

/-- The offset of a register under the state's map. -/
def State.off (s : State) (r : RegName) : Nat := s.params.regMap.offsetOf r

/-- Append one transaction to the bus trace (R139). -/
def State.logged (s : State) (dir : BitVec 1) (r : RegName) (v : Word) : State :=
  { s with trace := s.trace ++ [⟨dir, s.off r, v⟩] }

/-- `w` with its bits under `mask` replaced by those of the draw `d`. -/
def mixBits (mask w d : Word) : Word := (w &&& ~~~mask) ||| (d &&& mask)

/-- A read-back whose bits under `mask` are a draw (R185, R186). With no bit under `mask` nothing is drawn. -/
def drawBits (mask w : Word) (s : State) : Word × State :=
  if mask = 0 then (w, s) else (mixBits mask w (Config.draw s.draws), { s with draws := s.draws + 1 })

/-- The bits of a TXPKT1C read-back that are a draw (R185). -/
def txpkt1cDrawn (s : State) : Word := if s.ctl.txStepped then bit s.params.regMap.txpkt1c.cmdEn else 0

/-- The bits of CTRL whose read-back is a draw once written 1: `FIFO_RESET_MASK` and CLR_LDF (R186). -/
def ctrlClearBits (p : Params) : Word := p.fifoResetMask ||| bit p.regMap.ctrl.clrLdf

/-- `pop(RXPKT_FIFO)`: the head of `rx_q`, or a draw when it is empty (R189). -/
def popRx (s : State) : Word × State :=
  match s.ctl.rxQ with
  | [] => (Config.draw s.draws, { s with draws := s.draws + 1 })
  | b :: rest => (zext b, { s with ctl := { s.ctl with rxQ := rest } })

/-- The value a read of a readable register returns, and the state after its side effect (R180, R182 to R186, R189). -/
def readValue (r : RegName) (s : State) : Word × State :=
  match classOf r with
  | .txpkt1c => drawBits (txpkt1cDrawn s) s.ctl.txpkt1c s
  | .ctrl => drawBits s.ctl.ctrlClears s.ctl.ctrl s
  | .pop => popRx s
  | _ => (s.ctl.reg r, s)

/-- READ32 of a named register (R180): a fault for a push port, else the value read and the transaction recorded. -/
def readReg (r : RegName) (s : State) : Except Fault (Word × State) :=
  match classOf r with
  | .push _ => .error (.readOfWriteOnly (s.off r))
  | _ => .ok ((readValue r s).1, (readValue r s).2.logged 0 r (readValue r s).1)

/-- WRITE32 of TXPKT1C: start a transmission, or stop it (R185). -/
def writeTxpkt1c (v : Word) (s : State) : State :=
  let c := { s.ctl with txpkt1c := v, txStepped := false }
  if bitOf v s.params.regMap.txpkt1c.cmdEn then
    { s with ctl := { c with txActive := true, txHdr := s.ctl.txpkt1h, txCtl := v } }
  else { s with ctl := { c with txActive := false } }

/-- WRITE32 of CTRL: the clear bits empty their queues (R186). -/
def writeCtrl (v : Word) (s : State) : State :=
  let b := s.params.regMap.ctrl
  { s with ctl :=
      { s.ctl with
        cmdQ := if bitOf v b.clrCdf then [] else s.ctl.cmdQ
        pixQ := if bitOf v b.clrPdf then [] else s.ctl.pixQ
        rxQ := if bitOf v b.clrRxf then [] else s.ctl.rxQ
        ctrl := v
        ctrlClears := v &&& ctrlClearBits s.params } }

/-- A push onto a transmit queue, or a fault when it is full (R187, R188). -/
def pushTx (q : TxQueue) (v : Word) (s : State) : Except Fault State :=
  match q with
  | .cmd =>
    if s.params.cmdFifoDepth ≤ s.ctl.cmdQ.length then .error (.fifoOverflow .cmd)
    else .ok { s with ctl := { s.ctl with cmdQ := s.ctl.cmdQ ++ [lowByte v] } }
  | .pix =>
    if s.params.pixFifoDepth ≤ s.ctl.pixQ.length then .error (.fifoOverflow .pix)
    else .ok { s with ctl := { s.ctl with pixQ := s.ctl.pixQ ++ [v] } }

/-- The effect of a write on the controller, before the transaction is recorded (R181). -/
def writeEffect (r : RegName) (v : Word) (s : State) : Except Fault State :=
  match classOf r with
  | .rw => .ok { s with ctl := s.ctl.setReg r v }
  | .roEnv => .error (.writeOfReadOnly (s.off r))
  | .w1c => .ok { s with ctl := s.ctl.setReg r (s.ctl.reg r &&& ~~~v) }
  | .txpkt1c => .ok (writeTxpkt1c v s)
  | .ctrl => .ok (writeCtrl v s)
  | .push q => pushTx q v s
  | .pop => .error (.writeOfReadOnly (s.off r))

/-- WRITE32 of a named register (R181): the effect and the recorded transaction, or a fault with no effect (R371). -/
def writeReg (r : RegName) (v : Word) (s : State) : Except Fault State :=
  match writeEffect r v s with
  | .ok s' => .ok (s'.logged 1 r v)
  | .error f => .error f

/-- READ32 of an offset (R180). -/
def readOffset (off : Nat) (s : State) : Except Fault (Word × State) :=
  if off % 4 ≠ 0 then .error (.badOffset off)
  else
    match s.params.regMap.nameAt off with
    | some r => readReg r s
    | none => .error (.badOffset off)

/-- WRITE32 of an offset (R181). -/
def writeOffset (off : Nat) (v : Word) (s : State) : Except Fault State :=
  if off % 4 ≠ 0 then .error (.badOffset off)
  else
    match s.params.regMap.nameAt off with
    | some r => writeReg r v s
    | none => .error (.badOffset off)

/-- An engine or classifier step that makes one read and goes on with the value. -/
def withRead (r : RegName) (s : State) (k : Word → State → Out) : Out :=
  match readReg r s with
  | .ok (v, s') => k v s'
  | .error f => .fault f

/-- An engine or classifier step that makes one write and goes on. -/
def withWrite (r : RegName) (v : Word) (s : State) (k : State → Out) : Out :=
  match writeReg r v s with
  | .ok s' => k s'
  | .error f => .fault f

/-- One access to a named register, as an instruction of its own (the bus and mmio rows of R144). -/
def accessReg (r : RegName) (a : Access) (s : State) : Out :=
  match a with
  | .read => withRead r s fun _ s' => .next s'
  | .write v => withWrite r v s fun s' => .next s'

/-- `emit(event)` (R16, R388). -/
def State.emit (s : State) (e : Event) : State := { s with events := s.events ++ [e] }

/-- The engine's next label (R31). -/
def State.goto (s : State) (o : OpState) : State := { s with op := o }

/-- `return (code, bytes, diag, value)`: the result is placed on the port and `op_state` is IDLE (R16, R31, R380). -/
def State.finish (s : State) (code : Code) (bytes : List Byte) (diag : Word) (value : Value) : State :=
  { s with op := .idle, results := s.results ++ [⟨code, bytes, diag, value⟩] }

/-- `signal(r)`: the first signal since the last slot reset wins (R346). -/
def State.raiseSignal (s : State) (r : Signal) : State :=
  match s.signal with
  | none => { s with signal := some r }
  | some _ => s

/-- TAKING AN INTERRUPT (R376): the classifier leaves C_IDLE for C_READ; nothing is saved, masked or vectored. -/
def State.enterInterrupt (s : State) : State := { s with clsState := .cRead }

/-- RETURNING FROM AN INTERRUPT (R377): the classifier returns to C_IDLE; nothing is restored. -/
def State.returnInterrupt (s : State) : State := { s with clsState := .cIdle }

/-- Presenting a request: a free port takes it; an occupied port carries one request and takes no other (R380; log 14). -/
def State.present (s : State) (r : Request) : State := { s with port := s.port.or (some r) }

/-- A request that is not accepted because the engine is busy is held by the port (R380). -/
def State.hold (s : State) (i : Instr) : State :=
  match encode s.params.regMap i with
  | .request r => s.present r
  | _ => s

/-- A request runs only when the engine is idle; else the port holds it (R380). -/
def whenIdle (i : Instr) (s : State) (run : State → Out) : Out :=
  match s.op with
  | .idle => run s
  | _ => .next (s.hold i)

/-- The core's reset (R400, R402): every core-internal register takes its reset value; the controller, the parameters,
the inputs, the held request and what was already put out stay (log 15). -/
def State.coreReset (s : State) : State :=
  { s with op := .idle, cfg := .reset, bundle := none, xfer := .reset, signal := none, phyState := .active,
           phyDegraded := false, clsState := .cIdle, clsWord := 0, diag := 0 }

end Sys2Proof.Machine
end

