-- ==== Sys2Proof/Machine/Classifier.lean ====
section
/-! DEFINITION. The Interrupt Classifier (45_interrupt.md): the steps of R341 and the meaning of IRQ_CLASSIFY. -/

namespace Sys2Proof.Machine

open Sys2Proof

/-- The error part of `classify(s)`: one event and one `diag` bit for each error set, in order (R343). -/
def reportErrors (w : Word) (s : State) : State :=
  let bs := errorsIn s.params.regMap w
  { s with events := s.events ++ bs.map Event.irqErr, diag := s.diag ||| errMask s.params.regMap bs }

/-- The waking part of `classify(s)`: a completion wins over HSTX_TO (R344). -/
def wake (w : Word) (s : State) : State :=
  let m := s.params.regMap
  if w &&& completion m ≠ 0 then s.raiseSignal .ok
  else if w &&& ErrBit.hstxTo.mask m ≠ 0 then s.raiseSignal .timeout
  else s

/-- `handled` (R341): an error or a completion bit was set. -/
def handled (m : RegMap) (w : Word) : Bool := !(errorsIn m w).isEmpty || (w &&& completion m != 0)

/-- `classify(s)` (R341, R343 to R345). -/
def classify (w : Word) (s : State) : State :=
  (wake w (reportErrors w s)).emit (if handled s.params.regMap w then .irqHandled else .irqUnhandled)

/-- One step of the classifier (R341). -/
def classifierStep (s : State) : Out :=
  match s.clsState with
  | .cIdle => if irqIn s then .next s.enterInterrupt else .next s
  | .cRead => withRead .intStat s fun w s' => .next { s' with clsWord := w, clsState := .cClear }
  | .cClear => withWrite .intStat s.clsWord s fun s' => .next { s' with clsState := .cClassify }
  | .cClassify => .next (classify s.clsWord s).returnInterrupt

/-- IRQ_CLASSIFY: the classifier's next step (R341). -/
def execIrqClassify (s : State) : Out := classifierStep s

end Sys2Proof.Machine
end

