-- ==== Sys2Proof/Machine/Encoder.lean ====
section
/-! DEFINITION. The Packet Encoder (42_encoder.md): the checks R246 and R247 and the meanings of CONFIGURE (R240) and
ENCODE (R245). The words themselves are in Operands.lean. -/

namespace Sys2Proof.Machine

open Sys2Proof

/-- The configuration CONFIGURE stores (R240). -/
def linkConfigOf (c : ConfigRecord) : LinkConfig :=
  { configured := true, lanes := c.lanes, format := formatOf c.format, videoMode := c.videoMode,
    clkNoncontinuous := c.clkNoncontinuous, lpmPref := c.lpmPref, channel := c.channel }

/-- CONFIGURE's one step (R240). -/
def configureRun (c : ConfigRecord) (s : State) : Out :=
  if s.cfg.configured then .refused .alreadyConfigured
  else if c.lanes < 1 ∨ s.params.maxLanes < c.lanes then .next (s.finish .config [] 0 .none)
  else if 3 < c.format ∨ 3 < c.channel then .next (s.finish .config [] 0 .none)
  else .next ({ s with cfg := linkConfigOf c }.finish .ok [] 0 .none)

/-- CONFIGURE (R240). -/
def execConfigure (c : ConfigRecord) (s : State) : Out := whenIdle (.configure c) s (configureRun c)

/-- `check_config(pkt)`: the conditions of R246 in their order. -/
def checkConfig (p : Params) (cfg : LinkConfig) (k : Packet) : Code :=
  if cfg.configured = false then .config
  else if cfg.lanes < 1 ∨ p.maxLanes < cfg.lanes then .config
  else if 3 < k.channel then .config
  else if 0x3F < k.dataType then .config
  else if k.isLong = false ∧ 2 < k.bytes.length then .config
  else if (k.expectsResponse = true ∧ k.rxLen = 0) ∨ (k.expectsResponse = false ∧ k.rxLen ≠ 0) then .config
  else if 65535 < k.rxLen then .config
  else .ok

/-- `check_capacity(pkt)`: the conditions of R247 in their order. A short packet always passes. -/
def checkCapacity (p : Params) (k : Packet) : Code :=
  if k.isLong = false then .ok
  else if 65535 < k.bytes.length then .capacity
  else if p.pixFifoDepth < pixCount p k then .capacity
  else if p.cmdFifoDepth < cmdLen p k then .capacity
  else .ok

/-- The code ENCODE returns: all CONFIG checks come before all CAPACITY checks (R245, R246). -/
def encodeCode (p : Params) (cfg : LinkConfig) (k : Packet) : Code :=
  match checkConfig p cfg k with
  | .ok => checkCapacity p k
  | e => e

/-- ENCODE's one step (R245). -/
def encodeRun (k : Packet) (s : State) : Out :=
  match encodeCode s.params s.cfg k with
  | .ok => .next (s.finish .ok [] 0 (.encoded (encodePacket s.params k)))
  | e => .next (s.finish e [] 0 .none)

/-- ENCODE (R245). -/
def execEncode (k : Packet) (s : State) : Out := whenIdle (.encode k) s (encodeRun k)

end Sys2Proof.Machine
end

