-- ==== Sys2Proof/Machine/RegisterPort.lean ====
section
/-! DEFINITION. The register-port rows of the opcode table (30_encoding.md R144): READ32 (40_register_port.md R180),
WRITE32 (R181), and one MMIO row for each register of `RegMap`, each an access to that register. The value a read returns
is the data of the transaction it appends to the bus trace (R139). -/

namespace Sys2Proof.Machine

open Sys2Proof

/-- READ32 (R180). -/
def execRead32 (off : Nat) (s : State) : Out :=
  match readOffset off s with
  | .ok (_, s') => .next s'
  | .error f => .fault f

/-- WRITE32 (R181). -/
def execWrite32 (off : Nat) (v : Word) (s : State) : Out :=
  match writeOffset off v s with
  | .ok s' => .next s'
  | .error f => .fault f

/-- MMIO_CTRL (R186). -/
def execMmioCtrl (a : Access) (s : State) : Out := accessReg .ctrl a s

/-- MMIO_TXPKT1C (R185). -/
def execMmioTxpkt1c (a : Access) (s : State) : Out := accessReg .txpkt1c a s

/-- MMIO_TXPKT1H (R182). -/
def execMmioTxpkt1h (a : Access) (s : State) : Out := accessReg .txpkt1h a s

/-- MMIO_RXPKT1H (R183). -/
def execMmioRxpkt1h (a : Access) (s : State) : Out := accessReg .rxpkt1h a s

/-- MMIO_TXPKT_CMD_FIFO (R187). -/
def execMmioTxpktCmdFifo (a : Access) (s : State) : Out := accessReg .cmdFifo a s

/-- MMIO_TXPKT_PIX_FIFO (R188). -/
def execMmioTxpktPixFifo (a : Access) (s : State) : Out := accessReg .pixFifo a s

/-- MMIO_RXPKT_FIFO (R189). -/
def execMmioRxpktFifo (a : Access) (s : State) : Out := accessReg .rxFifo a s

/-- MMIO_INT_STAT (R184). -/
def execMmioIntStat (a : Access) (s : State) : Out := accessReg .intStat a s

/-- MMIO_INT_EN (R182). -/
def execMmioIntEn (a : Access) (s : State) : Out := accessReg .intEn a s

/-- MMIO_STAT (R184). -/
def execMmioStat (a : Access) (s : State) : Out := accessReg .stat a s

/-- MMIO_PHYC (R182). -/
def execMmioPhyc (a : Access) (s : State) : Out := accessReg .phyc a s

/-- MMIO_HS_CLT0 (R182). -/
def execMmioHsClt0 (a : Access) (s : State) : Out := accessReg .hsClt0 a s

/-- MMIO_HS_CLT1 (R182). -/
def execMmioHsClt1 (a : Access) (s : State) : Out := accessReg .hsClt1 a s

/-- MMIO_HS_CLT2 (R182). -/
def execMmioHsClt2 (a : Access) (s : State) : Out := accessReg .hsClt2 a s

/-- MMIO_HS_DLT3 (R182). -/
def execMmioHsDlt3 (a : Access) (s : State) : Out := accessReg .hsDlt3 a s

/-- MMIO_HS_DLT4 (R182). -/
def execMmioHsDlt4 (a : Access) (s : State) : Out := accessReg .hsDlt4 a s

/-- MMIO_HS_DLT5 (R182). -/
def execMmioHsDlt5 (a : Access) (s : State) : Out := accessReg .hsDlt5 a s

/-- MMIO_HS_DLT6 (R182). -/
def execMmioHsDlt6 (a : Access) (s : State) : Out := accessReg .hsDlt6 a s

/-- MMIO_HS_DLT7 (R182). -/
def execMmioHsDlt7 (a : Access) (s : State) : Out := accessReg .hsDlt7 a s

/-- MMIO_PHY_AFEC0 (R182). -/
def execMmioPhyAfec0 (a : Access) (s : State) : Out := accessReg .phyAfec0 a s

end Sys2Proof.Machine
end

