-- ==== Sys2Proof/Machine/Sequencer.lean ====
section
/-! DEFINITION. The Power-State Sequencer (43_power_sequencer.md): the procedure `ulps_seq` of R274 and the meanings of
ULPS_ENTER (R272), ULPS_EXIT (R273) and PHY_STATE (R279). -/

namespace Sys2Proof.Machine

open Sys2Proof

/-- The state a latch value stands for (R271). -/
def latchState (t : Bool) : PhyState := if t then .ulps else .active

/-- The state reported during phase 1 of a run with target `t` (R276). -/
def enteringState (t : Bool) : PhyState := if t then .enteringUlps else .exitingUlps

/-- `pu` (R270). -/
def State.pu (s : State) : Word := phycUlps s.params.regMap s.cfg.lanes

/-- `su` (R270). -/
def State.su (s : State) : Word := statUlps s.params.regMap s.cfg.lanes

/-- `ss` (R270). -/
def State.ss (s : State) : Word := statStop s.params.regMap s.cfg.lanes

/-- The latch step's value: `a` with the latch bit at `t` (R274, S6). -/
def latchValue (m : RegMap) (t : Bool) (a : Word) : Word :=
  if t then a ||| latchMask m else a &&& ~~~latchMask m

/-- S0: unconfigured, already in the target state, or the start of a run (R270, R274, R277). -/
def ulpsStart (t : Bool) (s : State) : Out :=
  if s.cfg.configured = false then .next (s.finish .config [] 0 .none)
  else
    withRead .phyAfec0 s fun a s' =>
      let cur := bitOf a s.params.regMap.latchUlps
      if cur = t ∧ s.phyDegraded = false then
        .next ({ s' with phyState := latchState t }.finish .ok [] 0 .none)
      else
        .next ({ s' with phyState := enteringState t }.goto
          (.ulps t .s1 { a := a, p := 0, prior := latchState cur, pollFailed := false }))

/-- One step of a poll of STAT for `mask` (R275, R385): after a failed read the step may be the timeout branch, which
makes no access; any other step reads STAT once and tests it. -/
def pollStep (t : Bool) (mask : Word) (here done timeout : SLabel) (v : SeqLocals) (s : State) : Out :=
  if v.pollFailed ∧ s.deadline then .next (s.goto (.ulps t timeout v))
  else
    withRead .stat s fun w s' =>
      if w &&& mask = mask then .next (s'.goto (.ulps t done { v with pollFailed := false }))
      else .next (s'.goto (.ulps t here { v with pollFailed := true }))

/-- S1 to S11 and the two timeout paths (R274). -/
def ulpsStep (t : Bool) (l : SLabel) (v : SeqLocals) (s : State) : Out :=
  match l with
  | .s1 => withWrite .stat s.su s fun s' => .next (s'.goto (.ulps t .s2 v))
  | .s2 => withRead .phyc s fun p s' => .next (s'.goto (.ulps t .s3 { v with p := p }))
  | .s3 => withWrite .phyc (v.p ||| s.pu) s fun s' => .next (s'.goto (.ulps t .s4 { v with pollFailed := false }))
  | .s4 => pollStep t s.su .s4 .s5 .s4t v s
  | .s5 => withRead .phyAfec0 s fun a s' => .next (s'.goto (.ulps t .s6 { v with a := a }))
  | .s6 => withWrite .phyAfec0 (latchValue s.params.regMap t v.a) s fun s' =>
      .next ({ s' with phyState := if t then .stop else s'.phyState }.goto (.ulps t .s7 v))
  | .s7 => withWrite .stat s.ss s fun s' => .next (s'.goto (.ulps t .s8 v))
  | .s8 => withRead .phyc s fun p s' => .next (s'.goto (.ulps t .s9 { v with p := p }))
  | .s9 => withWrite .phyc (v.p &&& ~~~s.pu) s fun s' =>
      .next (s'.goto (.ulps t .s10 { v with pollFailed := false }))
  | .s10 => pollStep t s.ss .s10 .s11 .s10t v s
  | .s11 => .next ({ s with phyState := latchState t, phyDegraded := false }.finish .ok [] 0 .none)
  | .s4t => withRead .phyc (s.emit (.seqTimeoutUlps t)) fun p s' => .next (s'.goto (.ulps t .s4u { v with p := p }))
  | .s4u => withWrite .phyc (v.p &&& ~~~s.pu) s fun s' =>
      .next ({ s' with phyState := v.prior }.finish .seqTimeout [] 0 .none)
  | .s10t => withRead .phyc (s.emit (.seqTimeoutStop t)) fun p s' => .next (s'.goto (.ulps t .s10u { v with p := p }))
  | .s10u => withWrite .phyc (v.p &&& ~~~s.pu) s fun s' =>
      .next ({ s' with phyState := latchState t, phyDegraded := true }.finish .seqDegraded [] 0 .none)

/-- The next step of a sequencer operation with target `t`. A request while another operation runs is held (R380). -/
def ulpsSeq (i : Instr) (t : Bool) (s : State) : Out :=
  match s.op with
  | .idle => ulpsStart t s
  | .ulps t' l v => if t' = t then ulpsStep t l v s else .next (s.hold i)
  | _ => .next (s.hold i)

/-- ULPS_ENTER: the next step of `ulps_seq(1)` (R272). -/
def execUlpsEnter (s : State) : Out := ulpsSeq .ulpsEnter true s

/-- ULPS_EXIT: the next step of `ulps_seq(0)` (R273). -/
def execUlpsExit (s : State) : Out := ulpsSeq .ulpsExit false s

/-- PHY_STATE's one step (R279). -/
def phyStateRun (s : State) : Out :=
  withRead .phyAfec0 s fun a s' =>
    .next (s'.finish .ok [] 0 (.phy s.phyState s.phyDegraded (bitOf a s.params.regMap.latchUlps)))

/-- PHY_STATE (R279). -/
def execPhyState (s : State) : Out := whenIdle .phyState s phyStateRun

end Sys2Proof.Machine
end

