-- ==== Sys2Proof/Machine/Timing.lean ====
section
/-! DEFINITION. The Timing Calculator (41_timing.md): the formulas of R211 to R213, the field-fit check R219, and the
meanings of TIMING_COMPUTE (R215) and PROGRAM_TIMING (R220). -/

namespace Sys2Proof.Machine

open Sys2Proof

/-- `ui_ns(R)`, for `R ≥ 1` (R211). -/
def uiNs (p : Params) (rateHz : Nat) : Nat := ceilDiv p.uiNumerator rateHz

/-- `hs_timing(ui_ns, ns, ui)` (R212). -/
def hsTiming (p : Params) (u ns ui : Nat) : Nat := roundup (ui + ceilDiv ns u) p.byteQuantum

/-- `esc_timing(ns)`: the least number of escape cycles that lasts `ns` (R212). At the default `ESC_CLK_HZ` this is
`ceil_div(ns, 10)`. DESIGN CHOICE (log 29): at another escape clock, which R212 does not cover, no period is rounded. -/
def escTiming (p : Params) (ns : Nat) : Nat := ceilDiv (ns * p.escClkHz) 1000000000

/-- `lpx` (R213). -/
def lpxCycles (p : Params) : Nat := escTiming p p.timing.lpxNs

/-- The Timing Parameters bundle at a UI duration (R213). -/
def bundleAt (p : Params) (u : Nat) : Bundle :=
  let t := p.timing
  let lpx := lpxCycles p
  { czero := hsTiming p u t.czeroNs t.czeroUi
    cpre := hsTiming p u t.cpreNs t.cpreUi
    cprep := hsTiming p u t.cprepNs t.cprepUi
    ctrail := hsTiming p u t.ctrailNs t.ctrailUi
    cpost := hsTiming p u t.cpostNs t.cpostUi
    wup := hsTiming p u t.wupNs 0
    exit := hsTiming p u t.exitNs t.exitUi
    zero := hsTiming p u t.zeroNs t.zeroUi
    pre := hsTiming p u t.preNs t.preUi
    lpx := hsTiming p u (lpx * 10) 0
    trail := max (hsTiming p u t.trailANs t.trailAUi) (hsTiming p u t.trailBNs t.trailBUi)
    anlat := t.anlat
    init := hsTiming p u t.initNs 0
    taGet := t.taGetMult * lpx
    taSure := t.taSureMult * lpx
    taGo := t.taGoMult * lpx
    lpLpx := lpx
    lpWup := escTiming p t.lpWupNs }

/-- The bundle of a rate (R211, R213). -/
def bundleOf (p : Params) (rateHz : Nat) : Bundle := bundleAt p (uiNs p rateHz)

/-- A value fits its field (R219). -/
def fitsField (f : Field) (v : Nat) : Bool := decide (v < 2 ^ fieldWidth f)

/-- `fits(B)` (R219). -/
def fits (f : TimingFields) (b : Bundle) : Bool :=
  fitsField f.czero b.czero && fitsField f.cpre b.cpre && fitsField f.cprep b.cprep &&
  fitsField f.ctrail b.ctrail && fitsField f.cpost b.cpost && fitsField f.wup b.wup &&
  fitsField f.exit b.exit && fitsField f.zero b.zero && fitsField f.pre b.pre &&
  fitsField f.lpx b.lpx && fitsField f.trail b.trail && fitsField f.anlat b.anlat &&
  fitsField f.init b.init && fitsField f.taGet b.taGet && fitsField f.taSure b.taSure &&
  fitsField f.taGo b.taGo && fitsField f.lpLpx b.lpLpx && fitsField f.lpWup b.lpWup

/-- TIMING_COMPUTE's one step (R215). -/
def timingComputeRun (rateHz : Nat) (s : State) : Out :=
  if rateHz = 0 then .refused .zeroRate
  else .next (s.finish .ok [] 0 (.bundle (bundleOf s.params rateHz)))

/-- TIMING_COMPUTE (R215). -/
def execTimingCompute (rateHz : Nat) (s : State) : Out :=
  whenIdle (.timingCompute rateHz) s (timingComputeRun rateHz)

/-- P0: the bundle is computed whole and checked before any write (R220). -/
def programTimingStart (s : State) : Out :=
  if s.phyRateHz = 0 then .refused .zeroRate
  else
    let b := bundleOf s.params s.phyRateHz
    if fits s.params.regMap.timing b then .next (s.goto (.programTiming .p1 b)) else .refused .fieldOverflow

/-- P1 to P9 (R220, R221). -/
def programTimingStep (l : PLabel) (b : Bundle) (s : State) : Out :=
  let f := s.params.regMap.timing
  match l with
  | .p1 => withWrite .hsClt0 (clt0 f b) s fun s' => .next (s'.goto (.programTiming .p2 b))
  | .p2 => withWrite .hsClt1 (clt1 f b) s fun s' => .next (s'.goto (.programTiming .p3 b))
  | .p3 => withWrite .hsClt2 (clt2 f b) s fun s' => .next (s'.goto (.programTiming .p4 b))
  | .p4 => withWrite .hsDlt3 (dlt3 f b) s fun s' => .next (s'.goto (.programTiming .p5 b))
  | .p5 => withWrite .hsDlt4 (dlt4 f b) s fun s' => .next (s'.goto (.programTiming .p6 b))
  | .p6 => withWrite .hsDlt5 (dlt5 f b) s fun s' => .next (s'.goto (.programTiming .p7 b))
  | .p7 => withWrite .hsDlt6 (dlt6 f b) s fun s' => .next (s'.goto (.programTiming .p8 b))
  | .p8 => withWrite .hsDlt7 (dlt7 f b) s fun s' => .next (s'.goto (.programTiming .p9 b))
  | .p9 => withWrite .intEn (alwaysOn s.params.regMap) s fun s' =>
      .next ({ s' with bundle := some b }.finish .ok [] 0 .none)

/-- PROGRAM_TIMING: its next step (R220). Issued while another operation runs, it is held (R380). -/
def execProgramTiming (s : State) : Out :=
  match s.op with
  | .idle => programTimingStart s
  | .programTiming l b => programTimingStep l b s
  | _ => .next (s.hold .programTiming)

end Sys2Proof.Machine
end

