-- ==== Sys2Proof/Machine/Transfer.lean ====
section
/-! DEFINITION. The Transfer Engine (44_transfer.md): the steps T0 to T21 of R300 and the meaning of TRANSFER. -/

namespace Sys2Proof.Machine

open Sys2Proof

/-- The label after the command-FIFO pushes: T2 while pixel words are left, else T3 (R300). -/
def afterCmd (v : XferLocals) : TLabel := if v.pixLeft = [] then .t3 else .t2

/-- The label after T0: T1 while command bytes are left, else as after the command pushes (R300). -/
def afterEncode (v : XferLocals) : TLabel := if v.cmdLeft = [] then afterCmd v else .t1

/-- The pseudocode variables after T0 (R300). -/
def xferLocals (e : Encoded) : XferLocals :=
  { header := e.header, control := e.control, cmdLeft := e.cmdBytes, pixLeft := e.pixWords, r := .ok, c := 0, k := 0,
    rx := [], rxLeft := 0 }

/-- T0: an encoding error returns at once; else the pushes begin (R301). -/
def transferStart (k : Packet) (s : State) : Out :=
  match encodeCode s.params s.cfg k with
  | .ok =>
    let v := xferLocals (encodePacket s.params k)
    .next (s.goto (.transfer k (afterEncode v) v))
  | e => .next (s.finish e [] 0 .none)

/-- T1: push one command-FIFO byte (R302). -/
def transferT1 (k : Packet) (v : XferLocals) (s : State) : Out :=
  match v.cmdLeft with
  | [] => .next (s.goto (.transfer k (afterCmd v) v))
  | b :: rest => withWrite .cmdFifo (zext b) s fun s' =>
      .next (s'.goto (.transfer k (afterEncode { v with cmdLeft := rest }) { v with cmdLeft := rest }))

/-- T2: push one pixel word (R302). -/
def transferT2 (k : Packet) (v : XferLocals) (s : State) : Out :=
  match v.pixLeft with
  | [] => .next (s.goto (.transfer k .t3 v))
  | w :: rest => withWrite .pixFifo w s fun s' =>
      .next (s'.goto (.transfer k (afterCmd { v with pixLeft := rest }) { v with pixLeft := rest }))

/-- T3: the slot reset, one internal step (R303). -/
def transferT3 (k : Packet) (v : XferLocals) (s : State) : Out :=
  .next ({ s with signal := none, diag := 0, xfer := { s.xfer with pending := true, rxBuf := [] } }.goto
    (.transfer k .t4 v))

/-- T8: a signal in the slot ends the wait with its value; with none, the wait goes on or times out (R307, R385). -/
def transferT8 (k : Packet) (v : XferLocals) (s : State) : Out :=
  match s.signal with
  | some sg => .next (s.goto (.transfer k .t10 { v with r := sg.code }))
  | none => if s.deadline then .next (s.goto (.transfer k .t9 v)) else .next s

/-- T9: the race check (R308). -/
def transferT9 (k : Packet) (v : XferLocals) (s : State) : Out :=
  withRead .intStat s fun w s' =>
    let r := if w &&& doneBit s.params.regMap k ≠ 0 ∨ s.signal = some .ok then Code.ok else Code.timeout
    .next (s'.goto (.transfer k .t10 { v with r := r }))

/-- The label after T10 (R300, R309). -/
def afterWait (k : Packet) (r : Code) : TLabel :=
  if r ≠ .ok then .t11 else if k.expectsResponse then .t17 else .t21

/-- T10: the re-mask (R309). -/
def transferT10 (k : Packet) (v : XferLocals) (s : State) : Out :=
  withWrite .intEn (alwaysOn s.params.regMap) s fun s' =>
    .next ({ s' with xfer := { s'.xfer with pending := false } }.goto (.transfer k (afterWait k v.r) v))

/-- T17: the response header (R312, R314). -/
def transferT17 (k : Packet) (v : XferLocals) (s : State) : Out :=
  withRead .rxpkt1h s fun h s' =>
    let m := s.params.regMap
    if respIsLong m h then
      if respCount m h ≠ k.rxLen then .next (s'.goto (.transfer k .t11 { v with r := .mismatch }))
      else
        .next (s'.goto (.transfer k (if k.rxLen = 0 then .t21 else .t18) { v with rx := [], rxLeft := k.rxLen }))
    else .next (s'.goto (.transfer k .t21 { v with rx := (respShort m h).take (min k.rxLen 2) }))

/-- T18: drain one response byte (R313). -/
def transferT18 (k : Packet) (v : XferLocals) (s : State) : Out :=
  match v.rxLeft with
  | 0 => .next (s.goto (.transfer k .t21 v))
  | n + 1 => withRead .rxFifo s fun w s' =>
      .next (s'.goto (.transfer k (if n = 0 then .t21 else .t18) { v with rx := v.rx ++ [lowByte w], rxLeft := n }))

/-- T21: the return (R315). -/
def transferT21 (v : XferLocals) (s : State) : Out :=
  .next ({ s with xfer := { s.xfer with result := v.r, rxBuf := v.rx } }.finish v.r v.rx s.diag .none)

/-- T1 to T21 (R300). -/
def transferStep (k : Packet) (l : TLabel) (v : XferLocals) (s : State) : Out :=
  let m := s.params.regMap
  match l with
  | .t1 => transferT1 k v s
  | .t2 => transferT2 k v s
  | .t3 => transferT3 k v s
  | .t4 => withWrite .intStat (completion m) s fun s' => .next (s'.goto (.transfer k .t5 v))
  | .t5 => withWrite .intEn (alwaysOn m ||| doneBit m k) s fun s' => .next (s'.goto (.transfer k .t6 v))
  | .t6 => withWrite .txpkt1h v.header s fun s' => .next (s'.goto (.transfer k .t7 v))
  | .t7 => withWrite .txpkt1c v.control s fun s' => .next (s'.goto (.transfer k .t8 v))
  | .t8 => transferT8 k v s
  | .t9 => transferT9 k v s
  | .t10 => transferT10 k v s
  | .t11 => withRead .txpkt1c s fun c s' => .next (s'.goto (.transfer k .t12 { v with c := c }))
  | .t12 => withWrite .txpkt1c (v.c &&& ~~~bit m.txpkt1c.cmdEn) s fun s' => .next (s'.goto (.transfer k .t13 v))
  | .t13 => .next (s.goto (.transfer k .t14 v))
  | .t14 => withRead .ctrl s fun w s' => .next (s'.goto (.transfer k .t15 { v with k := w }))
  | .t15 => withWrite .ctrl (v.k ||| s.params.fifoResetMask) s fun s' => .next (s'.goto (.transfer k .t16 v))
  | .t16 => withWrite .txpkt1c 0 s fun s' => .next (s'.goto (.transfer k .t21 { v with rx := [] }))
  | .t17 => transferT17 k v s
  | .t18 => transferT18 k v s
  | .t21 => transferT21 v s

/-- TRANSFER: its next step (R300). Issued while another operation runs, it is held (R380). -/
def execTransfer (k : Packet) (s : State) : Out :=
  match s.op with
  | .idle => transferStart k s
  | .transfer k' l v => if k' = k then transferStep k l v s else .next (s.hold (.transfer k))
  | _ => .next (s.hold (.transfer k))

end Sys2Proof.Machine
end

