-- ==== Sys2Proof/Machine/Dispatch.lean ====
section
/-! DEFINITION. One arm per instruction. An operation that takes several steps (R300, R274, R220, R341) takes its next
one: `exec i s` is the step the agent that owns `i` takes at `s`. -/

namespace Sys2Proof.Machine

open Sys2Proof

def exec (i : Instr) (s : State) : Host.Outcome State Fault Refusal :=
  match i with
  | .configure c => Sys2Proof.Machine.execConfigure c s
  | .timingCompute r => Sys2Proof.Machine.execTimingCompute r s
  | .programTiming => Sys2Proof.Machine.execProgramTiming s
  | .encode k => Sys2Proof.Machine.execEncode k s
  | .ulpsEnter => Sys2Proof.Machine.execUlpsEnter s
  | .ulpsExit => Sys2Proof.Machine.execUlpsExit s
  | .transfer k => Sys2Proof.Machine.execTransfer k s
  | .phyState => Sys2Proof.Machine.execPhyState s
  | .irqClassify => Sys2Proof.Machine.execIrqClassify s
  | .read32 off => Sys2Proof.Machine.execRead32 off s
  | .write32 off v => Sys2Proof.Machine.execWrite32 off v s
  | .mmioCtrl a => Sys2Proof.Machine.execMmioCtrl a s
  | .mmioTxpkt1c a => Sys2Proof.Machine.execMmioTxpkt1c a s
  | .mmioTxpkt1h a => Sys2Proof.Machine.execMmioTxpkt1h a s
  | .mmioRxpkt1h a => Sys2Proof.Machine.execMmioRxpkt1h a s
  | .mmioTxpktCmdFifo a => Sys2Proof.Machine.execMmioTxpktCmdFifo a s
  | .mmioTxpktPixFifo a => Sys2Proof.Machine.execMmioTxpktPixFifo a s
  | .mmioRxpktFifo a => Sys2Proof.Machine.execMmioRxpktFifo a s
  | .mmioIntStat a => Sys2Proof.Machine.execMmioIntStat a s
  | .mmioIntEn a => Sys2Proof.Machine.execMmioIntEn a s
  | .mmioStat a => Sys2Proof.Machine.execMmioStat a s
  | .mmioPhyc a => Sys2Proof.Machine.execMmioPhyc a s
  | .mmioHsClt0 a => Sys2Proof.Machine.execMmioHsClt0 a s
  | .mmioHsClt1 a => Sys2Proof.Machine.execMmioHsClt1 a s
  | .mmioHsClt2 a => Sys2Proof.Machine.execMmioHsClt2 a s
  | .mmioHsDlt3 a => Sys2Proof.Machine.execMmioHsDlt3 a s
  | .mmioHsDlt4 a => Sys2Proof.Machine.execMmioHsDlt4 a s
  | .mmioHsDlt5 a => Sys2Proof.Machine.execMmioHsDlt5 a s
  | .mmioHsDlt6 a => Sys2Proof.Machine.execMmioHsDlt6 a s
  | .mmioHsDlt7 a => Sys2Proof.Machine.execMmioHsDlt7 a s
  | .mmioPhyAfec0 a => Sys2Proof.Machine.execMmioPhyAfec0 a s

end Sys2Proof.Machine
end

