-- ==== Sys2Proof/Machine/Agents.lean ====
section
/-! DEFINITION. The agents' steps: the engine accepting a request or going on with the running operation (60_exceptions.md
R380), the environment (40_register_port.md R195 to R198), the outside bus master (30_encoding.md R139), the scheduling
choice when the agenda is empty, and how a bare table word is placed where the next step fetches it. -/

namespace Sys2Proof.Machine

open Sys2Proof

/-- A decode error as the outcome the spec gives it (R190, R372). -/
def rejected : DecodeError → Out
  | .reservedOp => .refused .reservedOp
  | .rsvNonzero => .refused .rsvNonzero
  | .badOperands => .refused .badOperands
  | .badOffset off => .fault (.badOffset off)

/-- The operation `op_state` is in, if any (R31). -/
def OpState.instr : OpState → Option Instr
  | .idle => none
  | .programTiming _ _ => some .programTiming
  | .ulps true _ _ => some .ulpsEnter
  | .ulps false _ _ => some .ulpsExit
  | .transfer k _ _ => some (.transfer k)

/-- A step of the operation engine: the running operation's next step, or, when idle, the acceptance of the request on
the port and its operation's first step (R380). With neither, the engine waits on the request port (R400). -/
def engineStep (s : State) : Out :=
  match s.op.instr with
  | some i => exec i s
  | none =>
    match s.port with
    | none => .next s
    | some r =>
      match decodeRequest r with
      | .ok i => exec i { s with port := none }
      | .error e => rejected e

/-- The INT_STAT bits the environment may set (R195): all it wants to, or only unmasked ones. -/
def State.latched (s : State) (e : Word) : Word :=
  if s.params.intStatLatchesMasked then e else e &&& s.ctl.intEn

/-- `INT_STAT <- INT_STAT | E`, under the mask condition (R195). -/
def State.setIntStat (s : State) (e : Word) : State :=
  { s with ctl := { s.ctl with intStat := s.ctl.intStat ||| s.latched e } }

/-- How many bytes the response FIFO still takes of a list (R197). -/
def rxAccepted (p : Params) (q bytes : List Byte) : List Byte :=
  match p.rxFifoDepth with
  | none => bytes
  | some d => bytes.take (d - q.length)

/-- The transmit step, enabled while `tx_active` (R196). -/
def transmitStep (k m : Nat) (done : Bool) (s : State) : State :=
  if s.ctl.txActive then
    let s' := { s with ctl :=
      { s.ctl with cmdQ := s.ctl.cmdQ.drop k, pixQ := s.ctl.pixQ.drop m, txActive := false, txStepped := true } }
    if done then s'.setIntStat (doneTx s.params.regMap) else s'
  else s

/-- The response step (R197). -/
def responseStep (header : Option Word) (bytes : List Byte) (rtf : Bool) (s : State) : State :=
  let s' := { s with ctl :=
    { s.ctl with rxpkt1h := header.getD s.ctl.rxpkt1h,
                 rxQ := s.ctl.rxQ ++ rxAccepted s.params s.ctl.rxQ bytes } }
  if rtf then s'.setIntStat (doneRx s.params.regMap) else s'

/-- A step of the environment (R195 to R198) or of a party that drives an input (R210, R340). -/
def envStep (e : EnvStep) (s : State) : State :=
  match e with
  | .intStat w => s.setIntStat w
  | .transmit k m done => transmitStep k m done s
  | .response h bytes rtf => responseStep h bytes rtf s
  | .lanes w => { s with ctl := { s.ctl with stat := s.ctl.stat ||| w } }
  | .rate hz => { s with phyRateHz := hz }
  | .sharedLine b => { s with sharedLine := b }

/-- A transaction presented by an outside bus master or trace (R139, R144, R190). -/
def imageStep (img : Image) (s : State) : Out :=
  match decode s.params.regMap img with
  | .ok i => exec i s
  | .error e => rejected e

/-- The step of the agent a choice names. -/
def choiceStep (c : Choice) (s : State) : Out :=
  match c with
  | .engine d => engineStep { s with deadline := d }
  | .classifier => exec .irqClassify s
  | .env e => .next (envStep e s)
  | .present r => .next (s.present r)
  | .bus t => imageStep (.bus t) s
  | .mmio t => imageStep (.mmio t) s
  | .reset => .next s.coreReset

/-- The classifier is running, or an enabled interrupt is pending (R341). A spurious assertion is not counted: it is a
draw, taken by scheduling the classifier. -/
def classifierReady (s : State) : Bool := s.clsState != .cIdle || (s.ctl.intStat &&& s.ctl.intEn != 0)

/-- The choice taken when the agenda is empty (DESIGN CHOICE, log 2): the classifier while it has a step to take, else
the engine, with the time base as it is: a wait whose deadline has not passed may go on forever (R385). -/
def defaultChoice (s : State) : Choice := if classifierReady s then .classifier else .engine s.deadline

/-- The choice the next step takes: the first of the agenda, or the default choice (log 1, 2). -/
def chosen (s : State) : Choice :=
  match s.agenda with
  | [] => defaultChoice s
  | c :: _ => c

/-- One step of the machine: the chosen agent's step, with the agenda moved on (R5, R108; log 1, 2). -/
def scheduledStep (s : State) : Out := choiceStep (chosen s) { s with agenda := s.agenda.tail }

/-- Place an image where the next step runs it (log 11): a request is put on the port of an idle engine and the
engine is scheduled; the interrupt event is asserted on the shared line of an idle classifier, which is scheduled; a
transaction is scheduled as it is. -/
def placeImage (img : Image) (s : State) : State :=
  match img with
  | .request r => { s with op := .idle, port := some r, agenda := .engine false :: s.agenda }
  | .event => { s with clsState := .cIdle, sharedLine := true, agenda := .classifier :: s.agenda }
  | .bus t => { s with agenda := .bus t :: s.agenda }
  | .mmio t => { s with agenda := .mmio t :: s.agenda }

/-- Place a bare table word (log 11). A word of no known length is placed as the request word of its low 32 bits. -/
def placeTableWord (nbits w : Nat) (s : State) : State :=
  match tableImage RegMap.dsi1 nbits w with
  | some img => placeImage img s
  | none => placeImage (.request (bareRequest (BitVec.ofNat 32 w))) s

end Sys2Proof.Machine
end

