-- ==== Sys2Proof/Machine/Step.lean ====
section
/-! DEFINITION. One step of the machine, and the placing of a bare opcode-table word where the next step runs it. -/

namespace Sys2Proof.Machine

/-- One step: one agent's step, as the agenda says (R5, R108). -/
def step (s : State) : Host.Outcome State Fault Refusal := scheduledStep s

/-- `s` with a bare table word placed so that the very next step runs it (log 11). -/
def State.withFetchWord (s : State) (nbits w : Nat) : State := placeTableWord nbits w s

end Sys2Proof.Machine
end

