-- ==== Sys2Proof/Safety.lean ====
section
/-! DEFINITION. What counts as a run, the named assumptions CLEAN_LAUNCH (70_reset_and_hazards.md R401) and
ENV_WELL_BEHAVED (40_register_port.md R199), and the invariants that claims about the machine use. -/

namespace Sys2Proof.Machine

open Sys2Proof

/-! ### Runs -/

/-- `n` consecutive steps of one instruction, each a step of the agent that owns it, with no other agent between. -/
def execTimes : Nat → Instr → State → Out
  | 0, _, s => .next s
  | n + 1, i, s =>
    match exec i s with
    | .next s' => execTimes n i s'
    | .fault f => .fault f
    | .refused r => .refused r

/-- `t` is reached from `s` by steps of the machine. -/
def Reaches (s t : State) : Prop := ∃ n, Sys2Proof.core.run n s = .next t

/-- No run from `s` stops in a fault or a refusal: what a proof about the core must show (R371, R372). -/
def NeverStops (s : State) : Prop := ∀ n, ∃ t, Sys2Proof.core.run n s = .next t

/-- An infinite run of the machine (R108). -/
def IsRun (σ : Nat → State) : Prop := ∀ n, step (σ n) = .next (σ (n + 1))

/-! ### Named assumptions -/

/-- `CLEAN_LAUNCH` (R401). -/
abbrev Controller.cleanLaunch (p : Params) (c : Controller) : Prop :=
  c.cmdQ = [] ∧ c.pixQ = [] ∧ c.rxQ = [] ∧ c.intStat = 0 ∧ c.stat = 0 ∧ c.txpkt1c = 0 ∧ c.txActive = false ∧
    c.ctrl &&& (bit p.regMap.ctrl.clrCdf ||| bit p.regMap.ctrl.clrPdf ||| bit p.regMap.ctrl.clrRxf |||
      bit p.regMap.ctrl.clrLdf) = 0

/-- At step `n` of a run, `v` is written to the register `r`. -/
def WritesAt (σ : Nat → State) (n : Nat) (r : RegName) (v : Word) : Prop :=
  (σ (n + 1)).trace = (σ n).trace ++ [⟨1, (σ n).off r, v⟩]

/-- The engine has taken the timeout branch of a wait (R385). -/
def timedOut (s : State) : Bool :=
  match s.op with
  | .transfer _ .t9 _ => true
  | .ulps _ .s4t _ => true
  | .ulps _ .s10t _ => true
  | _ => false

/-- Step `m` of a run is an environment step with the property `q`. -/
def EnvTakes (σ : Nat → State) (m : Nat) (q : State → EnvStep → Prop) : Prop :=
  ∃ e, chosen (σ m) = .env e ∧ q (σ m) e

/-- No wait has timed out from step `n + 1` to step `m` of a run (R199, clause 5). DESIGN CHOICE (log 35): every wait
between the two steps, TRANSFER's T8 and both polls, is taken for "the corresponding timeout". -/
def NoTimeout (σ : Nat → State) (n m : Nat) : Prop := ∀ i, n < i → i ≤ m → timedOut (σ i) = false

/-- An environment step with the property `q` is taken at step `m` of a run, after step `n` and before any wait times
out. -/
def TakenInTime (σ : Nat → State) (n m : Nat) (q : State → EnvStep → Prop) : Prop :=
  n < m ∧ EnvTakes σ m q ∧ NoTimeout σ n m

/-- No step of a run from `n` on and before `m` writes the control word. -/
def SameSubmission (σ : Nat → State) (n m : Nat) : Prop := ∀ i, n ≤ i → i < m → ∀ v, ¬ WritesAt σ i .txpkt1c v

/-- Step `m` answers the write of the control word at step `n`: it comes before the next such write, in time, and is the
only environment step of the kind `q` between the two writes (log 31). -/
def AnswersInTime (σ : Nat → State) (n m : Nat) (q : State → EnvStep → Prop) : Prop :=
  TakenInTime σ n m q ∧ SameSubmission σ (n + 1) m ∧
    ∀ j, n < j → SameSubmission σ (n + 1) j → EnvTakes σ j q → j = m

/-- The INT_STAT bits an environment step asks to set. -/
def EnvStep.intBits (m : RegMap) : EnvStep → Word
  | .intStat w => w
  | .transmit _ _ done => if done then doneTx m else 0
  | .response _ _ rtf => if rtf then doneRx m else 0
  | .lanes _ => 0
  | .rate _ => 0
  | .sharedLine _ => 0

/-- A step sets a bit of the INT_STAT mask, the mask condition of R195 included. A transmit step sets none while no
transmission is active (log 16). -/
def SetsIntBit (mask : Word) (s : State) (e : EnvStep) : Prop :=
  s.latched (e.intBits s.params.regMap) &&& mask ≠ 0 ∧
    ((∃ k j d, e = .transmit k j d) → s.ctl.txActive = true)

/-- A transmit step that ends the transmission, whatever it sends (R196). -/
def EndsTransmission (s : State) (e : EnvStep) : Prop :=
  s.ctl.txActive = true ∧ ∃ k j done, e = .transmit k j done

/-- A transmit step that sends what was submitted: the declared command bytes are there, and exactly they and all pixel
words are sent (R199, clause 1; R412). -/
def SendsDeclared (s : State) (e : EnvStep) : Prop :=
  let declared := getField s.params.regMap.txpkt1h.bcCmdFifo s.ctl.txHdr
  s.ctl.txActive = true ∧ declared ≤ s.ctl.cmdQ.length ∧ ∃ done, e = .transmit declared s.ctl.pixQ.length done

/-- A step that sets TXPKT1_DONE. -/
def RaisesDone (s : State) (e : EnvStep) : Prop := SetsIntBit (doneTx s.params.regMap) s e

/-- A step that sets PHY_DIR_RTF. -/
def RaisesRtf (s : State) (e : EnvStep) : Prop := SetsIntBit (doneRx s.params.regMap) s e

/-- A response step that loads a header or appends bytes (R197). -/
def Responds (_ : State) (e : EnvStep) : Prop :=
  ∃ h bytes rtf, e = .response h bytes rtf ∧ (h ≠ none ∨ bytes ≠ [])

/-- A response step that loads a header whose count, for a long response, is the number of bytes appended (R199). -/
def LoadsResponse (s : State) (e : EnvStep) : Prop :=
  ∃ h bytes rtf, e = .response (some h) bytes rtf ∧
    (respIsLong s.params.regMap h = true →
      respCount s.params.regMap h = bytes.length ∧ rxAccepted s.params s.ctl.rxQ bytes = bytes)

/-- A step that sets every bit of a STAT mask. DESIGN CHOICE (log 32): one step sets them all, where R199 says only that
the environment sets them. -/
def SetsStat (mask : Word) (_ : State) (e : EnvStep) : Prop := ∃ w, e = .lanes w ∧ w &&& mask = mask

/-- At step `n` of a run, the control word is written with CMD_EN and the mode `mode` in CMD_CTRL (R199). -/
def SubmitsAt (σ : Nat → State) (n mode : Nat) : Prop :=
  ∃ v, WritesAt σ n .txpkt1c v ∧ bitOf v (σ n).params.regMap.txpkt1c.cmdEn = true ∧
    getField (σ n).params.regMap.txpkt1c.cmdCtrl v = mode

/-- At step `n` of a run of a configured core, PHYC is written with the ULPS request bits of its lane set all at `on`.
DESIGN CHOICE (log 33): the value written decides, not the bits before; an unconfigured core has no lane set (R270). -/
def RequestsUlpsAt (σ : Nat → State) (n : Nat) (on : Bool) : Prop :=
  (σ n).cfg.configured = true ∧ ∃ v, WritesAt σ n .phyc v ∧ v &&& (σ n).pu = if on then (σ n).pu else 0

/-- A sequencer poll has taken its timeout branch (R275). -/
def pollTimedOut (s : State) : Bool :=
  match s.op with
  | .ulps _ .s4t _ => true
  | .ulps _ .s10t _ => true
  | _ => false

/-- `ENV_WELL_BEHAVED` (R199), a property of a run. Clause 5, "before the corresponding timeout fires", is in
`TakenInTime` for each step, and for the sequencer's polls in `pollsEnd` (log 30). The steps of clauses 1 and 2 answer
their own write, and no other step sets a completion bit (log 31). -/
structure EnvWellBehaved (σ : Nat → State) : Prop where
  /-- Clause 1. -/
  transmits : ∀ n, SubmitsAt σ n 0 →
    ∃ m, AnswersInTime σ n m EndsTransmission ∧ EnvTakes σ m SendsDeclared ∧ EnvTakes σ m RaisesDone
  /-- Clause 2; that its transmit step leaves nothing in the queues is R412's. -/
  responds : ∀ n, SubmitsAt σ n 1 →
    ∃ m₁ m₂ m₃, m₁ < m₂ ∧ m₂ ≤ m₃ ∧
      AnswersInTime σ n m₁ EndsTransmission ∧ EnvTakes σ m₁ SendsDeclared ∧
      AnswersInTime σ n m₂ Responds ∧ EnvTakes σ m₂ LoadsResponse ∧ AnswersInTime σ n m₃ RaisesRtf
  /-- TXPKT1_DONE is set only by the end of a transmission (log 31). -/
  doneEnds : ∀ n, EnvTakes σ n RaisesDone → EnvTakes σ n EndsTransmission
  /-- PHY_DIR_RTF is set only once a response has come after the end of the transmission, and once for it (log 31). -/
  rtfFollows : ∀ n, EnvTakes σ n RaisesRtf →
    ∃ m, m ≤ n ∧ EnvTakes σ m Responds ∧ (σ m).ctl.txActive = false ∧ SameSubmission σ m n ∧
      ∀ i, m ≤ i → i < n → ¬ EnvTakes σ i RaisesRtf
  /-- Clause 3, setting the request bits. -/
  entersUlps : ∀ n, RequestsUlpsAt σ n true → ∃ m, TakenInTime σ n m (SetsStat (σ n).su)
  /-- Clause 3, clearing them. -/
  entersStop : ∀ n, RequestsUlpsAt σ n false → ∃ m, TakenInTime σ n m (SetsStat (σ n).ss)
  /-- Clause 4. -/
  noErrors : ∀ n, ¬ EnvTakes σ n fun s e => SetsIntBit (alwaysOn s.params.regMap) s e
  /-- Clause 5 as R275 reads it: "neither timeout branch is taken". -/
  pollsEnd : ∀ n, pollTimedOut (σ n) = false → pollTimedOut (σ (n + 1)) = false

/-! ### Frames -/

/-- The queues and the hidden state of the controller are the same (R50, R51). -/
def Controller.SameRest (c c' : Controller) : Prop :=
  c'.cmdQ = c.cmdQ ∧ c'.pixQ = c.pixQ ∧ c'.rxQ = c.rxQ ∧ c'.txActive = c.txActive ∧ c'.txHdr = c.txHdr ∧
    c'.txCtl = c.txCtl ∧ c'.txStepped = c.txStepped ∧ c'.ctrlClears = c.ctrlClears

/-- `t` is `s` but for the controller, in which only the register `r` may differ, and one more transaction. -/
def OnlyRegister (s t : State) (r : RegName) (a : BusAccess) : Prop :=
  t = { s with ctl := t.ctl, trace := s.trace ++ [a] } ∧ (∀ r', r' ≠ r → t.ctl.reg r' = s.ctl.reg r') ∧
    s.ctl.SameRest t.ctl

/-! ### Invariants -/

/-- "Invariant: lane count ∈ [1,4]" of a configured core, with the channel range (R32, R240). -/
def ConfigLegal (s : State) : Prop :=
  s.cfg.configured = true → 1 ≤ s.cfg.lanes ∧ s.cfg.lanes ≤ s.params.maxLanes ∧ s.cfg.channel ≤ 3

/-- Each queue holds at most its capacity (R50). -/
def QueuesBounded (s : State) : Prop :=
  s.ctl.cmdQ.length ≤ s.params.cmdFifoDepth ∧ s.ctl.pixQ.length ≤ s.params.pixFifoDepth ∧
    ∀ d, s.params.rxFifoDepth = some d → s.ctl.rxQ.length ≤ d

/-- The labels between T3 and T10, at which a transfer is pending (R317). -/
def pendingLabel : TLabel → Bool
  | .t4 => true
  | .t5 => true
  | .t6 => true
  | .t7 => true
  | .t8 => true
  | .t9 => true
  | .t10 => true
  | _ => false

/-- The engine is in a TRANSFER between T3 and T10 (R317). -/
def transferPending (s : State) : Bool :=
  match s.op with
  | .transfer _ l _ => pendingLabel l
  | _ => false

/-- `xfer.pending` holds exactly between T3 and T10 of one TRANSFER (R317). -/
def PendingTracksTransfer (s : State) : Prop := s.xfer.pending = transferPending s

/-- The transmit state agrees with the control word: no transmit step has run since the last write while a transmission
is active, a transmission runs on the word last written, and either holds only if that word had CMD_EN set (R51, R185). -/
def TransmitConsistent (s : State) : Prop :=
  (s.ctl.txActive = true → s.ctl.txStepped = false ∧ s.ctl.txCtl = s.ctl.txpkt1c) ∧
    (s.ctl.txActive = true ∨ s.ctl.txStepped = true →
      bitOf s.ctl.txpkt1c s.params.regMap.txpkt1c.cmdEn = true)

/-- A stored or running bundle is the whole bundle of one nonzero rate, and fits its fields (R33, R219, R220). -/
def BundleWhole (p : Params) (b : Bundle) : Prop :=
  ∃ rateHz, 1 ≤ rateHz ∧ b = bundleOf p rateHz ∧ fits p.regMap.timing b = true

/-- Every bundle the core holds is whole (R33, R220). -/
def BundlesWhole (s : State) : Prop :=
  (∀ b, s.bundle = some b → BundleWhole s.params b) ∧ ∀ l b, s.op = .programTiming l b → BundleWhole s.params b

/-- A running TRANSFER has a packet that ENCODE accepts under the current configuration; its header and control words
are those of the encoder; the bytes and words still to push are the ends of the encoder's lists; and while it drains a
long response, the bytes read and the bytes left make up `rx_len` (R300, R301, R313). -/
def TransferSound (s : State) : Prop :=
  ∀ k l v, s.op = .transfer k l v →
    encodeCode s.params s.cfg k = .ok ∧ v.header = (encodePacket s.params k).header ∧
      v.control = (encodePacket s.params k).control ∧
      v.cmdLeft <:+ (encodePacket s.params k).cmdBytes ∧ v.pixLeft <:+ (encodePacket s.params k).pixWords ∧
      (l = .t18 → v.rx.length + v.rxLeft = k.rxLen)

/-- `diag` holds always-on error bits only (R55, R343). -/
def DiagAlwaysOn (s : State) : Prop := s.diag &&& ~~~alwaysOn s.params.regMap = 0

end Sys2Proof.Machine
end

