-- ==== Sys2Proof/Certificates/Slice0/Obligations.lean ====
section
/-! DEFINITION. The statements for the provers, from the numbered rules of spec/. Each docstring names the rule. -/

open Sys2Proof Sys2Proof.Machine

/-! ### Encoding -/

/-- The request words of 30_encoding.md R130 and the event, bus and mmio images of R144, written out, with the twenty
offsets of the default map (10_state.md R36). -/
def Obligations.ImagesSelectTheirInstruction : Prop :=
  (∀ c, decodeRequest ⟨0x00000001, .config c⟩ = .ok (.configure c)) ∧
  (∀ hz, decodeRequest ⟨0x00000002, .rate hz⟩ = .ok (.timingCompute hz)) ∧
  decodeRequest ⟨0x00000003, .none⟩ = .ok .programTiming ∧
  (∀ k, decodeRequest ⟨0x00000004, .packet k⟩ = .ok (.encode k)) ∧
  decodeRequest ⟨0x00000005, .none⟩ = .ok .ulpsEnter ∧
  decodeRequest ⟨0x00000006, .none⟩ = .ok .ulpsExit ∧
  (∀ k, decodeRequest ⟨0x00000007, .packet k⟩ = .ok (.transfer k)) ∧
  decodeRequest ⟨0x00000008, .none⟩ = .ok .phyState ∧
  decode RegMap.dsi1 .event = .ok .irqClassify ∧
  (∀ off d, decode RegMap.dsi1 (.bus ⟨0, off, d⟩) = .ok (.read32 off)) ∧
  (∀ off v, decode RegMap.dsi1 (.bus ⟨1, off, v⟩) = .ok (.write32 off v)) ∧
  ∀ row ∈ [(0x00, Instr.mmioCtrl), (0x04, .mmioTxpkt1c), (0x08, .mmioTxpkt1h), (0x14, .mmioRxpkt1h),
      (0x1C, .mmioTxpktCmdFifo), (0x20, .mmioTxpktPixFifo), (0x24, .mmioRxpktFifo), (0x30, .mmioIntStat),
      (0x34, .mmioIntEn), (0x38, .mmioStat), (0x4C, .mmioPhyc), (0x50, .mmioHsClt0), (0x54, .mmioHsClt1),
      (0x58, .mmioHsClt2), (0x5C, .mmioHsDlt3), (0x60, .mmioHsDlt4), (0x64, .mmioHsDlt5), (0x68, .mmioHsDlt6),
      (0x6C, .mmioHsDlt7), (0x70, .mmioPhyAfec0)],
    (∀ d, decode RegMap.dsi1 (.mmio ⟨0, row.1, d⟩) = .ok (row.2 .read)) ∧
      ∀ v, decode RegMap.dsi1 (.mmio ⟨1, row.1, v⟩) = .ok (row.2 (.write v))

/-- Decoding the encoding of any instruction gives it back, under any map whose offsets name one register each. -/
def Obligations.DecodeOfEncodeIsTheInstruction : Prop :=
  ∀ m : RegMap, m.offsetsValid = true → ∀ i : Instr, decode m (encode m i) = .ok i

/-- Every image that decodes is the encoding of what it decodes to: no bit of a request word is ignored (R130: the full
match mask is 0xFFFFFFFF). A read transaction carries no data. -/
def Obligations.EncodeOfDecodeIsTheImage : Prop :=
  ∀ (m : RegMap) (img : Image) (i : Instr), decode m img = .ok i →
    (∀ t, img = .bus t ∨ img = .mmio t → t.dir = 0 → t.data = 0) → encode m i = img

/-- The decode-time refusals (R140 items 1 to 3, R372 reasons 1 to 3), for the request an idle engine would accept. -/
def Obligations.IllegalRequestsAreRefused : Prop :=
  ∀ (s : State) (d : Bool) (r : Request),
    s.op = .idle → s.port = some r → chosen s = .engine d →
    let op := r.word.toNat % 16
    let legalShape : Prop :=
      (op = 1 ∧ ∃ c, r.operands = .config c) ∨ (op = 2 ∧ ∃ hz, r.operands = .rate hz) ∨
      ((op = 3 ∨ op = 5 ∨ op = 6 ∨ op = 8) ∧ r.operands = .none) ∨
      ((op = 4 ∨ op = 7) ∧ ∃ k, r.operands = .packet k)
    ((op = 0 ∨ 9 ≤ op) → step s = .refused .reservedOp) ∧
    (1 ≤ op → op ≤ 8 → r.word.toNat / 16 ≠ 0 → step s = .refused .rsvNonzero) ∧
    (1 ≤ op → op ≤ 8 → r.word.toNat / 16 = 0 → ¬ legalShape → step s = .refused .badOperands)

/-! ### Steps of the machine -/

/-- An idle engine accepts the request on the port, and its operation's first step is taken (R380). -/
def Obligations.StepAcceptsTheRequestOnThePort : Prop :=
  ∀ (s : State) (d : Bool) (r : Request) (i : Instr),
    s.op = .idle → s.port = some r → chosen s = .engine d → decodeRequest r = .ok i →
    step s = exec i { s with agenda := s.agenda.tail, deadline := d, port := none }

/-- A busy engine takes the running operation's next step (R31, R380); the classifier, and a bus master outside the core,
take the step of the instruction they own (R5, R139, R144). -/
def Obligations.StepRunsTheInstructionOfItsAgent : Prop :=
  ∀ (s : State),
    (∀ d i, chosen s = .engine d → s.op.instr = some i →
      step s = exec i { s with agenda := s.agenda.tail, deadline := d }) ∧
    (chosen s = .classifier → step s = exec .irqClassify { s with agenda := s.agenda.tail }) ∧
    (∀ t i, chosen s = .bus t → decode s.params.regMap (.bus t) = .ok i →
      step s = exec i { s with agenda := s.agenda.tail }) ∧
    (∀ t i, chosen s = .mmio t → decode s.params.regMap (.mmio t) = .ok i →
      step s = exec i { s with agenda := s.agenda.tail })

/-- A request presented to a free port while an operation runs is on the port after the step; and the port holds the
request it carries, neither dropped, replaced nor accepted, in every step but a reset while the operation runs (R380). -/
def Obligations.BusyPortHoldsTheRequest : Prop :=
  ∀ s s' : State, s.op ≠ .idle → step s = .next s' → chosen s ≠ .reset →
    (∀ r, s.port = some r → s'.port = some r) ∧ (∀ r, s.port = none → chosen s = .present r → s'.port = some r)

/-- One step of the machine makes at most one register access (00_scope.md R5; 20_memory.md R103). -/
def Obligations.OneRegisterAccessPerStep : Prop :=
  ∀ s s' : State, step s = .next s' → s'.trace = s.trace ∨ ∃ t, s'.trace = s.trace ++ [t]

/-- Each accepted request yields exactly one result record, when its operation returns to IDLE, and nothing else yields
one (R380). A step that accepts a request, or goes on with a running operation, adds exactly one result if the engine is
IDLE after it and none if it is not; a step from an idle engine that accepts no request adds none. Only a reset abandons
an operation without one (R402). -/
def Obligations.EveryReturnYieldsOneResult : Prop :=
  ∀ s s' : State, step s = .next s' → chosen s ≠ .reset →
    let accepts : Prop := s.op = .idle ∧ s.port ≠ none ∧ ∃ d, chosen s = .engine d
    (s.op ≠ .idle ∨ accepts → s'.op = .idle → ∃ r, s'.results = s.results ++ [r]) ∧
    (s.op ≠ .idle ∨ accepts → s'.op ≠ .idle → s'.results = s.results) ∧
    (s.op = .idle → ¬ accepts → s'.op = .idle ∧ s'.results = s.results)

/-- Of the core's own rules only a FIFO push of TRANSFER can fault (R371), and only onto a full queue (R187, R188). -/
def Obligations.OnlyPushesOfTransferFault : Prop :=
  ∀ (s : State) (f : Fault),
    (∀ i, (∀ off, i ≠ .read32 off) → (∀ off v, i ≠ .write32 off v) → (∀ r a, i ≠ mmioInstr r a) →
      exec i s = .fault f →
      (∃ k v, i = .transfer k ∧ s.op = .transfer k .t1 v ∧ f = .fifoOverflow .cmd ∧
        s.params.cmdFifoDepth ≤ s.ctl.cmdQ.length) ∨
      (∃ k v, i = .transfer k ∧ s.op = .transfer k .t2 v ∧ f = .fifoOverflow .pix ∧
        s.params.pixFifoDepth ≤ s.ctl.pixQ.length))

/-! ### Timing Calculator -/

/-- `ceil_div(a, b)` is the least natural `q` with `q * b ≥ a`, and `roundup(x, m)` the least multiple of `m` that is at
least `x` (R13). -/
def Obligations.CeilDivIsLeast : Prop :=
  ∀ a b : Nat, 1 ≤ b →
    (a ≤ ceilDiv a b * b ∧ ∀ q, a ≤ q * b → ceilDiv a b ≤ q) ∧
    (b ∣ roundup a b ∧ a ≤ roundup a b ∧ ∀ n, b ∣ n → a ≤ n → roundup a b ≤ n)

/-- Monotonicity (R216): every `hs_timing` field is non-decreasing as the rate increases, and the escape-derived fields
are constant, whatever the parameters. -/
def Obligations.TimingMonotoneInRate : Prop :=
  ∀ (p : Params) (R R' : Nat), 1 ≤ R → R ≤ R' →
    (∀ ns u u' : Nat, 1 ≤ u → u ≤ u' → ceilDiv ns u' ≤ ceilDiv ns u) ∧ uiNs p R' ≤ uiNs p R ∧
    let b := bundleOf p R
    let b' := bundleOf p R'
    (b.czero ≤ b'.czero ∧ b.cpre ≤ b'.cpre ∧ b.cprep ≤ b'.cprep ∧ b.ctrail ≤ b'.ctrail ∧ b.cpost ≤ b'.cpost ∧
      b.wup ≤ b'.wup ∧ b.exit ≤ b'.exit ∧ b.zero ≤ b'.zero ∧ b.pre ≤ b'.pre ∧ b.lpx ≤ b'.lpx ∧
      b.trail ≤ b'.trail ∧ b.init ≤ b'.init) ∧
    (b.taGet = b'.taGet ∧ b.taSure = b'.taSure ∧ b.taGo = b'.taGo ∧ b.lpLpx = b'.lpLpx ∧ b.lpWup = b'.lpWup)

/-- Every `hs_timing` field of a bundle is a multiple of 8 (R217). -/
def Obligations.TimingValuesAreMultiplesOfEight : Prop :=
  ∀ (p : Params) (R : Nat), p.byteQuantum = 8 →
    let b := bundleOf p R
    8 ∣ b.czero ∧ 8 ∣ b.cpre ∧ 8 ∣ b.cprep ∧ 8 ∣ b.ctrail ∧ 8 ∣ b.cpost ∧ 8 ∣ b.wup ∧ 8 ∣ b.exit ∧ 8 ∣ b.zero ∧
      8 ∣ b.pre ∧ 8 ∣ b.lpx ∧ 8 ∣ b.trail ∧ 8 ∣ b.init

/-- With the default constants every bundle fits its fields at every rate of at least 1 (R219). -/
def Obligations.DefaultBundlesFit : Prop :=
  ∀ R : Nat, 1 ≤ R → fits RegMap.dsi1.timing (bundleOf Params.default R) = true

/-- TIMING_COMPUTE (R215): the bundle of the rate is returned and nothing else changes; a rate of 0 is refused; every
rate of at least 500 MHz gives the same bundle; and the 18 fields are the formulas of R211 to R213 written out, at the
100 MHz escape clock of R210. -/
def Obligations.TimingComputeReturnsTheBundle : Prop :=
  ∀ (s : State) (hz : Nat), s.op = .idle →
    (hz = 0 → exec (.timingCompute hz) s = .refused .zeroRate) ∧
    (1 ≤ hz → exec (.timingCompute hz) s =
      .next { s with results := s.results ++ [⟨.ok, [], 0, .bundle (bundleAt s.params (ceilDiv s.params.uiNumerator hz))⟩] }) ∧
    (s.params.uiNumerator = 500000000 → 500000000 ≤ hz →
      bundleAt s.params (ceilDiv s.params.uiNumerator hz) = bundleAt s.params 1) ∧
    (s.params.escClkHz = 100000000 → ∀ u,
      let K := s.params.timing
      let hs := fun ns ui => roundup (ui + ceilDiv ns u) s.params.byteQuantum
      let lpx := ceilDiv K.lpxNs 10
      bundleAt s.params u =
        { czero := hs K.czeroNs K.czeroUi, cpre := hs K.cpreNs K.cpreUi, cprep := hs K.cprepNs K.cprepUi
          ctrail := hs K.ctrailNs K.ctrailUi, cpost := hs K.cpostNs K.cpostUi, wup := hs K.wupNs 0
          exit := hs K.exitNs K.exitUi, zero := hs K.zeroNs K.zeroUi, pre := hs K.preNs K.preUi, lpx := hs (lpx * 10) 0
          trail := max (hs K.trailANs K.trailAUi) (hs K.trailBNs K.trailBUi), anlat := K.anlat, init := hs K.initNs 0
          taGet := K.taGetMult * lpx, taSure := K.taSureMult * lpx, taGo := K.taGoMult * lpx, lpLpx := lpx
          lpWup := ceilDiv K.lpWupNs 10 })

/-- PROGRAM_TIMING (R220), run without interruption from its acceptance: the eight timing registers and INT_EN are
written in order with the words of R137, the bundle is stored, OK is returned, and nothing else changes. -/
def Obligations.ProgramTimingWritesTheWholeBundle : Prop :=
  ∀ s : State, s.op = .idle → 1 ≤ s.phyRateHz →
    let f := s.params.regMap.timing
    let B := bundleOf s.params s.phyRateHz
    fits f B = true →
    execTimes 10 .programTiming s = .next
      { s with
        bundle := some B
        ctl := { s.ctl with
          hsClt0 := clt0 f B, hsClt1 := clt1 f B, hsClt2 := clt2 f B, hsDlt3 := dlt3 f B, hsDlt4 := dlt4 f B,
          hsDlt5 := dlt5 f B, hsDlt6 := dlt6 f B, hsDlt7 := dlt7 f B, intEn := alwaysOn s.params.regMap }
        results := s.results ++ [⟨.ok, [], 0, .none⟩]
        trace := s.trace ++
          [⟨1, s.off .hsClt0, clt0 f B⟩, ⟨1, s.off .hsClt1, clt1 f B⟩, ⟨1, s.off .hsClt2, clt2 f B⟩,
           ⟨1, s.off .hsDlt3, dlt3 f B⟩, ⟨1, s.off .hsDlt4, dlt4 f B⟩, ⟨1, s.off .hsDlt5, dlt5 f B⟩,
           ⟨1, s.off .hsDlt6, dlt6 f B⟩, ⟨1, s.off .hsDlt7, dlt7 f B⟩,
           ⟨1, s.off .intEn, alwaysOn s.params.regMap⟩] }

/-- The words PROGRAM_TIMING writes, under the default map and for a bundle that fits: every field read back from its
word is the bundle's value, and every other bit is 0 (R137, R47, R219). -/
def Obligations.TimingWordsCarryTheirFields : Prop :=
  ∀ b : Bundle,
    let f := RegMap.dsi1.timing
    fits f b = true →
    let w0 := clt0 f b
    let w1 := clt1 f b
    let w2 := clt2 f b
    let w3 := dlt3 f b
    let w4 := dlt4 f b
    let w5 := dlt5 f b
    let w6 := dlt6 f b
    let w7 := dlt7 f b
    ((w0.extractLsb' 18 9).toNat = b.czero ∧ (w0.extractLsb' 9 9).toNat = b.cpre ∧
      (w0.extractLsb' 0 9).toNat = b.cprep ∧ w0.extractLsb' 27 5 = 0) ∧
    ((w1.extractLsb' 9 9).toNat = b.ctrail ∧ (w1.extractLsb' 0 9).toNat = b.cpost ∧ w1.extractLsb' 18 14 = 0) ∧
    ((w2.extractLsb' 0 24).toNat = b.wup ∧ w2.extractLsb' 24 8 = 0) ∧
    ((w3.extractLsb' 18 9).toNat = b.exit ∧ (w3.extractLsb' 9 9).toNat = b.zero ∧
      (w3.extractLsb' 0 9).toNat = b.pre ∧ w3.extractLsb' 27 5 = 0) ∧
    ((w4.extractLsb' 18 5).toNat = b.anlat ∧ (w4.extractLsb' 9 9).toNat = b.trail ∧
      (w4.extractLsb' 0 9).toNat = b.lpx ∧ w4.extractLsb' 23 9 = 0) ∧
    ((w5.extractLsb' 0 24).toNat = b.init ∧ w5.extractLsb' 24 8 = 0) ∧
    ((w6.extractLsb' 24 8).toNat = b.taGet ∧ (w6.extractLsb' 16 8).toNat = b.taSure ∧
      (w6.extractLsb' 8 8).toNat = b.taGo ∧ (w6.extractLsb' 0 8).toNat = b.lpLpx) ∧
    ((w7.extractLsb' 0 24).toNat = b.lpWup ∧ w7.extractLsb' 24 8 = 0)

/-- PROGRAM_TIMING refuses a rate of 0 and a bundle that does not fit, before any register write (R219, R220). -/
def Obligations.ProgramTimingRefusesBeforeWriting : Prop :=
  ∀ s : State, s.op = .idle →
    (s.phyRateHz = 0 → exec .programTiming s = .refused .zeroRate) ∧
    (1 ≤ s.phyRateHz → fits s.params.regMap.timing (bundleOf s.params s.phyRateHz) = false →
      exec .programTiming s = .refused .fieldOverflow)

/-- The frame of every step of PROGRAM_TIMING: the timing registers, INT_EN, `bundle`, the engine and the port's outputs;
`bundle` only with the last write. Issued while another operation runs it is held (R58, R220, R380). -/
def Obligations.ProgramTimingFrame : Prop :=
  ∀ s s' : State, exec .programTiming s = .next s' →
    s' = { s with
      op := s'.op, bundle := s'.bundle, port := s'.port, results := s'.results, trace := s'.trace
      ctl := { s.ctl with
        hsClt0 := s'.ctl.hsClt0, hsClt1 := s'.ctl.hsClt1, hsClt2 := s'.ctl.hsClt2, hsDlt3 := s'.ctl.hsDlt3,
        hsDlt4 := s'.ctl.hsDlt4, hsDlt5 := s'.ctl.hsDlt5, hsDlt6 := s'.ctl.hsDlt6, hsDlt7 := s'.ctl.hsDlt7,
        intEn := s'.ctl.intEn } } ∧
    (∀ r, s.port = some r → s'.port = some r) ∧
    (s'.bundle = s.bundle ∨ ∃ b, s.op = .programTiming .p9 b ∧ s'.bundle = some b)

/-! ### Packet Encoder -/

/-- CONFIGURE (R240), its four outcomes. -/
def Obligations.ConfigureOutcomes : Prop :=
  ∀ (s : State) (c : ConfigRecord), s.op = .idle →
    (s.cfg.configured = true → exec (.configure c) s = .refused .alreadyConfigured) ∧
    (s.cfg.configured = false →
      (c.lanes < 1 ∨ s.params.maxLanes < c.lanes ∨ 3 < c.format ∨ 3 < c.channel →
        exec (.configure c) s = .next { s with results := s.results ++ [⟨.config, [], 0, .none⟩] }) ∧
      (1 ≤ c.lanes → c.lanes ≤ s.params.maxLanes → c.format ≤ 3 → c.channel ≤ 3 →
        exec (.configure c) s = .next
          { s with
            cfg := ⟨true, c.lanes, formatOf c.format, c.videoMode, c.clkNoncontinuous, c.lpmPref, c.channel⟩
            results := s.results ++ [⟨.ok, [], 0, .none⟩] }))

/-- ENCODE (R245) with the conditions of R246 and R247 written out: CONFIG before CAPACITY, else the encoded packet; the
result is all that changes. That the 4 of R247 is `PIX_FIFO_WIDTH` (R9), at any width, is the model's (log 28). -/
def Obligations.EncodeOutcomes : Prop :=
  ∀ (s : State) (k : Packet), s.op = .idle →
    let configBad : Prop :=
      s.cfg.configured = false ∨ s.cfg.lanes < 1 ∨ s.params.maxLanes < s.cfg.lanes ∨ 3 < k.channel ∨
      0x3F < k.dataType ∨ (k.isLong = false ∧ 2 < k.bytes.length) ∨ (k.expectsResponse = true ∧ k.rxLen = 0) ∨
      (k.expectsResponse = false ∧ k.rxLen ≠ 0) ∨ 65535 < k.rxLen
    let w := s.params.pixFifoWidth
    let capacityBad : Prop :=
      k.isLong = true ∧ (65535 < k.bytes.length ∨
        s.params.pixFifoDepth < (k.bytes.length - k.bytes.length % w) / w ∨
        s.params.cmdFifoDepth < k.bytes.length % w)
    (configBad → exec (.encode k) s = .next { s with results := s.results ++ [⟨.config, [], 0, .none⟩] }) ∧
    (¬ configBad → capacityBad →
      exec (.encode k) s = .next { s with results := s.results ++ [⟨.capacity, [], 0, .none⟩] }) ∧
    (¬ configBad → ¬ capacityBad →
      exec (.encode k) s = .next
        { s with results := s.results ++ [⟨.ok, [], 0, .encoded (encodePacket s.params k)⟩] })

/-- The split invariants of every long packet (R252). -/
def Obligations.SplitInvariants : Prop :=
  ∀ (p : Params) (k : Packet), p.pixFifoWidth = 4 → k.isLong = true →
    let e := encodePacket p k
    let L := k.bytes.length
    e.cmdBytes.length = L % 4 ∧ e.cmdBytes.length ≤ 3 ∧ e.pixWords.length = (L - L % 4) / 4 ∧
      e.cmdBytes.length + 4 * e.pixWords.length = L ∧
      e.cmdBytes ++ e.pixWords.flatMap wordBytes = k.bytes

/-- The fields of the header and control words of an accepted packet are exactly its parts: `set_field` truncates
nothing, and no field runs into another; a short packet's bytes go to the header and to no FIFO (R134, R135, R248, R249,
R251). -/
def Obligations.EncodedWordsCarryTheirFields : Prop :=
  ∀ (p : Params) (cfg : LinkConfig) (k : Packet), p.regMap = .dsi1 → p.cmdRepeat = 1 → p.pixFifoWidth = 4 →
    encodeCode p cfg k = .ok →
    let e := encodePacket p k
    (e.header.extractLsb' 0 8).toNat = k.channel * 64 + k.dataType ∧
    (k.isLong = true → (e.header.extractLsb' 8 16).toNat = k.bytes.length ∧
      (e.header.extractLsb' 24 8).toNat = k.bytes.length % 4) ∧
    (k.isLong = false → e.cmdBytes = [] ∧ e.pixWords = [] ∧
      e.header.extractLsb' 8 8 = (k.bytes[0]?).getD 0 ∧ e.header.extractLsb' 16 8 = (k.bytes[1]?).getD 0 ∧
      e.header.extractLsb' 24 8 = 0) ∧
    (e.control.extractLsb' 24 8).toNat = 0 ∧ (e.control.extractLsb' 10 14).toNat = 1 ∧
    (e.control.extractLsb' 8 2).toNat = (if e.pixWords = [] then 0 else 2) ∧
    (e.control.extractLsb' 6 2).toNat = 0 ∧
    (e.control.extractLsb' 4 2).toNat = (if k.expectsResponse then 1 else 0) ∧
    e.control.getLsbD 3 = k.lp ∧ e.control.getLsbD 2 = k.isLong ∧ e.control.getLsbD 1 = false ∧
    e.control.getLsbD 0 = true

/-! ### Power-State Sequencer -/

/-- The lane masks of the default map for one to four lanes (R138). -/
def Obligations.LaneMaskTable : Prop :=
  (phycUlps .dsi1 1 = 0x00020002 ∧ statUlps .dsi1 1 = 0x02040000 ∧ statStop .dsi1 1 = 0x01010000) ∧
  (phycUlps .dsi1 2 = 0x00020022 ∧ statUlps .dsi1 2 = 0x0A040000 ∧ statStop .dsi1 2 = 0x05010000) ∧
  (phycUlps .dsi1 3 = 0x00020222 ∧ statUlps .dsi1 3 = 0x2A040000 ∧ statStop .dsi1 3 = 0x15010000) ∧
  (phycUlps .dsi1 4 = 0x00022222 ∧ statUlps .dsi1 4 = 0xAA040000 ∧ statStop .dsi1 4 = 0x55010000)

/-- S0 of both sequencer operations (R270, R274, R277): CONFIG without an access when unconfigured; one read and OK when
the latch is in place and the state not degraded; else the start of a run. -/
def Obligations.SequencerStart : Prop :=
  ∀ (s : State) (t : Bool), s.op = .idle →
    let i := if t then Instr.ulpsEnter else Instr.ulpsExit
    let a := s.ctl.phyAfec0
    let cur := a.getLsbD s.params.regMap.latchUlps
    let read := s.trace ++ [⟨0, s.off .phyAfec0, a⟩]
    (s.cfg.configured = false →
      exec i s = .next { s with results := s.results ++ [⟨.config, [], 0, .none⟩] }) ∧
    (s.cfg.configured = true → cur = t → s.phyDegraded = false →
      exec i s = .next
        { s with
          phyState := (if t then .ulps else .active), trace := read
          results := s.results ++ [⟨.ok, [], 0, .none⟩] }) ∧
    (s.cfg.configured = true → (cur ≠ t ∨ s.phyDegraded = true) →
      exec i s = .next
        { s with
          phyState := (if t then .enteringUlps else .exitingUlps), trace := read
          op := .ulps t .s1 ⟨a, 0, if cur then .ulps else .active, false⟩ })

/-- A step of a poll (R275, R385): it reads STAT once and goes on when every bit of the lane set is there; else it stays.
After a failed read the time base may end it, without an access. -/
def Obligations.PollSteps : Prop :=
  ∀ (s : State) (t : Bool) (v : SeqLocals) (first : Bool),
    let i := if t then Instr.ulpsEnter else Instr.ulpsExit
    let mask := if first then s.su else s.ss
    let here : SLabel := if first then .s4 else .s10
    let done : SLabel := if first then .s5 else .s11
    let late : SLabel := if first then .s4t else .s10t
    let read := s.trace ++ [⟨0, s.off .stat, s.ctl.stat⟩]
    s.op = .ulps t here v →
    (v.pollFailed = true → s.deadline = true → exec i s = .next { s with op := .ulps t late v }) ∧
    ((v.pollFailed = false ∨ s.deadline = false) →
      (s.ctl.stat &&& mask = mask →
        exec i s = .next { s with op := .ulps t done { v with pollFailed := false }, trace := read }) ∧
      (s.ctl.stat &&& mask ≠ mask →
        exec i s = .next { s with op := .ulps t here { v with pollFailed := true }, trace := read }))

/-- The two timeout paths (R274, R276). The first rolls the request bits back, leaves the latch unwritten, reports the
prior state and returns SEQ_TIMEOUT. The second clears the request bits, reports the latch value written as degraded and
returns SEQ_DEGRADED. That the timeout is a step of its own, the first of the three, is the model's (log 4). -/
def Obligations.TimeoutsRollBack : Prop :=
  ∀ (s : State) (t : Bool) (v : SeqLocals), v.pollFailed = true → s.deadline = true →
    let i := if t then Instr.ulpsEnter else Instr.ulpsExit
    let p := s.ctl.phyc &&& ~~~s.pu
    let rolled := s.trace ++ [⟨0, s.off .phyc, s.ctl.phyc⟩, ⟨1, s.off .phyc, p⟩]
    (s.op = .ulps t .s4 v →
      execTimes 3 i s = .next
        { s with
          op := .idle, phyState := v.prior, events := s.events ++ [.seqTimeoutUlps t]
          ctl := { s.ctl with phyc := p }, trace := rolled
          results := s.results ++ [⟨.seqTimeout, [], 0, .none⟩] }) ∧
    (s.op = .ulps t .s10 v →
      execTimes 3 i s = .next
        { s with
          op := .idle, phyState := (if t then .ulps else .active), phyDegraded := true
          events := s.events ++ [.seqTimeoutStop t], ctl := { s.ctl with phyc := p }, trace := rolled
          results := s.results ++ [⟨.seqDegraded, [], 0, .none⟩] })

/-- A full handshake with an environment that reaches each state in time (R274, R276, R278): from acceptance to OK, with
the request bits clear, every other PHYC bit kept, the latch bit at the target and every other PHY_AFEC0 bit kept. -/
def Obligations.UlpsHandshakeSucceeds : Prop :=
  ∀ (s : State) (t : Bool),
    s.op = .idle → s.cfg.configured = true →
    s.port = some ⟨if t then 0x00000005 else 0x00000006, .none⟩ →
    (s.ctl.phyAfec0.getLsbD s.params.regMap.latchUlps ≠ t ∨ s.phyDegraded = true) →
    s.agenda = List.replicate 4 (.engine false) ++ [.env (.lanes s.su)] ++ List.replicate 6 (.engine false) ++
      [.env (.lanes s.ss)] ++ List.replicate 2 (.engine false) →
    let latch := bit s.params.regMap.latchUlps
    let a := s.ctl.phyAfec0
    let a' := if t then a ||| latch else a &&& ~~~latch
    let p := s.ctl.phyc
    let w1 := s.ctl.stat &&& ~~~s.su ||| s.su
    let w2 := w1 &&& ~~~s.ss ||| s.ss
    let p' := (p ||| s.pu) &&& ~~~s.pu
    Sys2Proof.core.run 14 s = .next
      { s with
        agenda := [], port := none, deadline := false
        phyState := (if t then .ulps else .active), phyDegraded := false
        ctl := { s.ctl with stat := w2, phyc := p', phyAfec0 := a' }
        results := s.results ++ [⟨.ok, [], 0, .none⟩]
        trace := s.trace ++
          [⟨0, s.off .phyAfec0, a⟩, ⟨1, s.off .stat, s.su⟩, ⟨0, s.off .phyc, p⟩, ⟨1, s.off .phyc, p ||| s.pu⟩,
           ⟨0, s.off .stat, w1⟩, ⟨0, s.off .phyAfec0, a⟩, ⟨1, s.off .phyAfec0, a'⟩, ⟨1, s.off .stat, s.ss⟩,
           ⟨0, s.off .phyc, p ||| s.pu⟩, ⟨1, s.off .phyc, p'⟩, ⟨0, s.off .stat, w2⟩] }

/-- The frame of every step of ULPS_ENTER and ULPS_EXIT (R58, R272, R273): STAT, PHYC, PHY_AFEC0, `phy_state`,
`phy_degraded`, the engine and the port's outputs; each register only at the steps that write it; and no step stops. -/
def Obligations.SequencerFrame : Prop :=
  ∀ (s : State) (t : Bool),
    ∃ s', exec (if t then .ulpsEnter else .ulpsExit) s = .next s' ∧
      s' = { s with
        op := s'.op, phyState := s'.phyState, phyDegraded := s'.phyDegraded, port := s'.port
        results := s'.results, trace := s'.trace, events := s'.events
        ctl := { s.ctl with stat := s'.ctl.stat, phyc := s'.ctl.phyc, phyAfec0 := s'.ctl.phyAfec0 } } ∧
      (∀ r, s.port = some r → s'.port = some r) ∧
      (s'.ctl.stat ≠ s.ctl.stat → ∃ v, s.op = .ulps t .s1 v ∨ s.op = .ulps t .s7 v) ∧
      (s'.ctl.phyc ≠ s.ctl.phyc → ∃ v, s.op = .ulps t .s3 v ∨ s.op = .ulps t .s9 v ∨ s.op = .ulps t .s4u v ∨
        s.op = .ulps t .s10u v) ∧
      (s'.ctl.phyAfec0 ≠ s.ctl.phyAfec0 → ∃ v, s.op = .ulps t .s6 v) ∧
      (s'.phyDegraded ≠ s.phyDegraded → ∃ v, s.op = .ulps t .s11 v ∨ s.op = .ulps t .s10u v)

/-- PHY_STATE (R279). -/
def Obligations.PhyStateReports : Prop :=
  ∀ s : State, s.op = .idle →
    exec .phyState s = .next
      { s with
        trace := s.trace ++ [⟨0, s.off .phyAfec0, s.ctl.phyAfec0⟩]
        results := s.results ++
          [⟨.ok, [], 0, .phy s.phyState s.phyDegraded (s.ctl.phyAfec0.getLsbD s.params.regMap.latchUlps)⟩] }

/-! ### Transfer Engine -/

/-- T0 with an encoding error (R301): the code is returned at once, with no access and no write of `xfer`,
`xfer_signal` or `diag`. -/
def Obligations.TransferEncodingErrorReturnsAtOnce : Prop :=
  ∀ (s : State) (k : Packet), s.op = .idle → encodeCode s.params s.cfg k ≠ .ok →
    exec (.transfer k) s = .next
      { s with results := s.results ++ [⟨encodeCode s.params s.cfg k, [], 0, .none⟩] }

/-- T0 to T7 without interruption (R302 to R306, R410, R411): all command bytes are pushed, then all pixel words; the
slot is reset; stale completion bits are cleared and the mask armed before the header and the submitting control word. -/
def Obligations.TransferSubmits : Prop :=
  ∀ (s : State) (k : Packet), s.op = .idle → encodeCode s.params s.cfg k = .ok →
    s.params.regMap.txpkt1c.cmdEn < 32 →
    s.ctl.cmdQ.length + cmdLen s.params k ≤ s.params.cmdFifoDepth →
    s.ctl.pixQ.length + pixCount s.params k ≤ s.params.pixFifoDepth →
    let m := s.params.regMap
    let e := encodePacket s.params k
    let mask := alwaysOn m ||| (if k.expectsResponse then doneRx m else doneTx m)
    ∃ v, v.r = .ok ∧ v.rx = [] ∧
      execTimes (6 + cmdLen s.params k + pixCount s.params k) (.transfer k) s = .next
        { s with
          op := .transfer k .t8 v, signal := none, diag := 0, xfer := { s.xfer with pending := true, rxBuf := [] }
          ctl := { s.ctl with
            cmdQ := s.ctl.cmdQ ++ e.cmdBytes, pixQ := s.ctl.pixQ ++ e.pixWords
            intStat := s.ctl.intStat &&& ~~~completion m, intEn := mask, txpkt1h := e.header, txpkt1c := e.control
            txActive := true, txHdr := e.header, txCtl := e.control, txStepped := false }
          trace := s.trace ++ e.cmdBytes.map (fun b => ⟨1, s.off .cmdFifo, b.zeroExtend 32⟩) ++
            e.pixWords.map (fun w => ⟨1, s.off .pixFifo, w⟩) ++
            [⟨1, s.off .intStat, completion m⟩, ⟨1, s.off .intEn, mask⟩, ⟨1, s.off .txpkt1h, e.header⟩,
             ⟨1, s.off .txpkt1c, e.control⟩] }

/-- T8 and T9 (R307, R308). A signal ends the wait at once with its value; the timeout branch is enabled only while the
slot is empty; else the engine waits; none of these accesses a register. The race check then reads INT_STAT once and takes
a completion bit, or an OK signal, as success. -/
def Obligations.TransferWaits : Prop :=
  ∀ (s : State) (k : Packet) (v : XferLocals),
    let m := s.params.regMap
    let done := if k.expectsResponse then doneRx m else doneTx m
    let read := s.trace ++ [⟨0, s.off .intStat, s.ctl.intStat⟩]
    (s.op = .transfer k .t8 v →
      (s.signal = some .ok → exec (.transfer k) s = .next { s with op := .transfer k .t10 { v with r := .ok } }) ∧
      (s.signal = some .timeout →
        exec (.transfer k) s = .next { s with op := .transfer k .t10 { v with r := .timeout } }) ∧
      (s.signal = none → s.deadline = true → exec (.transfer k) s = .next { s with op := .transfer k .t9 v }) ∧
      (s.signal = none → s.deadline = false → exec (.transfer k) s = .next s)) ∧
    (s.op = .transfer k .t9 v →
      ((s.ctl.intStat &&& done ≠ 0 ∨ s.signal = some .ok) →
        exec (.transfer k) s = .next { s with op := .transfer k .t10 { v with r := .ok }, trace := read }) ∧
      (s.ctl.intStat &&& done = 0 → s.signal ≠ some .ok →
        exec (.transfer k) s = .next { s with op := .transfer k .t10 { v with r := .timeout }, trace := read }))

/-- T10, the re-mask (R309), on the failure path, for a write and for a read; and T21, the return (R315). -/
def Obligations.TransferRemasksAndReturns : Prop :=
  ∀ (s : State) (k : Packet) (v : XferLocals),
    let on := alwaysOn s.params.regMap
    let next : TLabel := if v.r ≠ .ok then .t11 else if k.expectsResponse then .t17 else .t21
    (s.op = .transfer k .t10 v →
      exec (.transfer k) s = .next
        { s with
          op := .transfer k next v, xfer := { s.xfer with pending := false }, ctl := { s.ctl with intEn := on }
          trace := s.trace ++ [⟨1, s.off .intEn, on⟩] }) ∧
    (s.op = .transfer k .t21 v →
      exec (.transfer k) s = .next
        { s with
          op := .idle, xfer := { s.xfer with result := v.r, rxBuf := v.rx }
          results := s.results ++ [⟨v.r, v.rx, s.diag, .none⟩] })

/-- The failure cleanup from T11 to the return (R310, R311, R315): its five accesses in order, with the values read from
TXPKT1C and CTRL (their draws as R185 and R186 allow); every queue is empty, the control word is 0 and reads back 0, no
transmission is active, the other CTRL bits are kept, and the code is returned with no bytes. -/
def Obligations.TransferCleanup : Prop :=
  ∀ (s : State) (k : Packet) (v : XferLocals), s.op = .transfer k .t11 v →
    s.params.regMap = .dsi1 → s.params.fifoResetMask = 0x00000070 →
    ∃ t c w, execTimes 7 (.transfer k) s = .next t ∧ t.op = .idle ∧
      (c = s.ctl.txpkt1c ∨ s.ctl.txStepped = true ∧ c &&& 0xFFFFFFFE = s.ctl.txpkt1c &&& 0xFFFFFFFE) ∧
      w &&& ~~~s.ctl.ctrlClears = s.ctl.ctrl &&& ~~~s.ctl.ctrlClears ∧
      t.trace = s.trace ++ [⟨0, 0x04, c⟩, ⟨1, 0x04, c &&& 0xFFFFFFFE⟩, ⟨0, 0x00, w⟩, ⟨1, 0x00, w ||| 0x00000070⟩,
        ⟨1, 0x04, 0⟩] ∧
      t.ctl = { s.ctl with
        cmdQ := [], pixQ := [], rxQ := [], txpkt1c := 0, txActive := false, txStepped := false
        ctrl := w ||| 0x00000070, ctrlClears := t.ctl.ctrlClears } ∧
      t.xfer = { s.xfer with result := v.r, rxBuf := [] } ∧
      t.results = s.results ++ [⟨v.r, [], s.diag, .none⟩] ∧
      t.cfg = s.cfg ∧ t.bundle = s.bundle ∧ t.signal = s.signal ∧ t.diag = s.diag ∧
      ∃ t', readReg .txpkt1c t = .ok (0, t')

/-- T17 (R312, R314): a long response of the wrong length is a MISMATCH and goes to the cleanup with no byte read; a
short response gives the first `min(rx_len, 2)` bytes of the header. -/
def Obligations.ResponseHeaderDecides : Prop :=
  ∀ (s : State) (k : Packet) (v : XferLocals), s.op = .transfer k .t17 v → s.params.regMap = .dsi1 →
    let h := s.ctl.rxpkt1h
    let read := s.trace ++ [⟨0, 0x14, h⟩]
    (h.getLsbD 24 = true → (h.extractLsb' 8 16).toNat ≠ k.rxLen →
      exec (.transfer k) s = .next { s with op := .transfer k .t11 { v with r := .mismatch }, trace := read }) ∧
    (h.getLsbD 24 = false →
      exec (.transfer k) s = .next
        { s with
          op := .transfer k .t21 { v with rx := [h.extractLsb' 8 8, h.extractLsb' 16 8].take (min k.rxLen 2) }
          trace := read })

/-- The long-response drain (R313, R315): a long response of the right length is drained by exactly `rx_len` reads, one
byte each, and returned. The bytes are those of the response FIFO, in order, and where it runs empty the low bytes of
draws (R189). -/
def Obligations.LongResponseIsDrained : Prop :=
  ∀ (s : State) (k : Packet) (v : XferLocals), s.op = .transfer k .t17 v →
    respIsLong s.params.regMap s.ctl.rxpkt1h = true → respCount s.params.regMap s.ctl.rxpkt1h = k.rxLen →
    let missing := k.rxLen - s.ctl.rxQ.length
    let words : List Word := (s.ctl.rxQ.take k.rxLen).map (fun b => b.zeroExtend 32) ++
      (List.range missing).map fun i => Config.draw (s.draws + i)
    let bytes : List Byte := words.map (fun w => w.extractLsb' 0 8)
    bytes.length = k.rxLen ∧ (k.rxLen ≤ s.ctl.rxQ.length → bytes = s.ctl.rxQ.take k.rxLen) ∧
    execTimes (k.rxLen + 2) (.transfer k) s = .next
      { s with
        op := .idle, xfer := { s.xfer with result := v.r, rxBuf := bytes }
        ctl := { s.ctl with rxQ := s.ctl.rxQ.drop k.rxLen }, draws := s.draws + missing
        results := s.results ++ [⟨v.r, bytes, s.diag, .none⟩]
        trace := s.trace ++ [⟨0, s.off .rxpkt1h, s.ctl.rxpkt1h⟩] ++ words.map (fun w => ⟨0, s.off .rxFifo, w⟩) }

/-- A short write with an environment that transmits and raises TXPKT1_DONE, and a classifier that runs promptly, from
acceptance to OK; the always-on errors pending at submission are in `diag` and do not fail it (R300, R316, R318, R341). -/
def Obligations.ShortWriteSucceeds : Prop :=
  ∀ (s : State) (k : Packet),
    s.op = .idle → s.clsState = .cIdle → s.params.regMap = .dsi1 →
    encodeCode s.params s.cfg k = .ok → k.isLong = false → k.expectsResponse = false →
    s.port = some ⟨0x00000007, .packet k⟩ →
    s.agenda = List.replicate 6 (.engine false) ++ [.env (.transmit 0 0 true)] ++ List.replicate 4 .classifier ++
      List.replicate 3 (.engine false) →
    let e := encodePacket s.params k
    let errors := s.ctl.intStat &&& 0x00003FC0
    ∃ t, Sys2Proof.core.run 14 s = .next t ∧ t.op = .idle ∧ t.clsState = .cIdle ∧ t.port = none ∧
      t.results = s.results ++ [⟨.ok, [], errors, .none⟩] ∧ t.xfer = ⟨false, .ok, []⟩ ∧ t.signal = some .ok ∧
      t.diag = errors ∧
      t.ctl = { s.ctl with
        intStat := 0, intEn := 0x00003FC0, txpkt1h := e.header, txpkt1c := e.control, txActive := false
        txHdr := e.header, txCtl := e.control, txStepped := true } ∧
      t.cfg = s.cfg ∧ t.bundle = s.bundle ∧ t.phyState = s.phyState ∧ t.phyDegraded = s.phyDegraded

/-- The frame of every step of TRANSFER (R58, R300): what may change, and each part only at the labels that write it; and
where it stops: a push onto a full queue is the only stop (R301, R371). -/
def Obligations.TransferFrame : Prop :=
  ∀ (s : State) (k : Packet),
    (∀ s', exec (.transfer k) s = .next s' →
      s' = { s with
        op := s'.op, xfer := s'.xfer, signal := s'.signal, diag := s'.diag, port := s'.port
        results := s'.results, trace := s'.trace, draws := s'.draws
        ctl := { s.ctl with
          ctrl := s'.ctl.ctrl, ctrlClears := s'.ctl.ctrlClears, txpkt1c := s'.ctl.txpkt1c
          txpkt1h := s'.ctl.txpkt1h, intStat := s'.ctl.intStat, intEn := s'.ctl.intEn, cmdQ := s'.ctl.cmdQ
          pixQ := s'.ctl.pixQ, rxQ := s'.ctl.rxQ, txActive := s'.ctl.txActive, txHdr := s'.ctl.txHdr
          txCtl := s'.ctl.txCtl, txStepped := s'.ctl.txStepped } } ∧
      (∀ r, s.port = some r → s'.port = some r) ∧
      (s'.signal ≠ s.signal ∨ s'.diag ≠ s.diag → ∃ v, s.op = .transfer k .t3 v) ∧
      (s'.ctl.txpkt1h ≠ s.ctl.txpkt1h → ∃ v, s.op = .transfer k .t6 v) ∧
      (s'.ctl.intStat ≠ s.ctl.intStat → ∃ v, s.op = .transfer k .t4 v) ∧
      (s'.ctl.intEn ≠ s.ctl.intEn → ∃ v, s.op = .transfer k .t5 v ∨ s.op = .transfer k .t10 v) ∧
      (s'.ctl.txpkt1c ≠ s.ctl.txpkt1c ∨ s'.ctl.txActive ≠ s.ctl.txActive ∨ s'.ctl.txStepped ≠ s.ctl.txStepped →
        ∃ v, s.op = .transfer k .t7 v ∨ s.op = .transfer k .t12 v ∨ s.op = .transfer k .t16 v) ∧
      (s'.ctl.txHdr ≠ s.ctl.txHdr ∨ s'.ctl.txCtl ≠ s.ctl.txCtl → ∃ v, s.op = .transfer k .t7 v) ∧
      (s'.ctl.ctrl ≠ s.ctl.ctrl ∨ s'.ctl.ctrlClears ≠ s.ctl.ctrlClears → ∃ v, s.op = .transfer k .t15 v) ∧
      (s'.ctl.cmdQ ≠ s.ctl.cmdQ → ∃ v, s.op = .transfer k .t1 v ∨ s.op = .transfer k .t15 v) ∧
      (s'.ctl.pixQ ≠ s.ctl.pixQ → ∃ v, s.op = .transfer k .t2 v ∨ s.op = .transfer k .t15 v) ∧
      (s'.ctl.rxQ ≠ s.ctl.rxQ → ∃ v, s.op = .transfer k .t15 v ∨ s.op = .transfer k .t18 v) ∧
      (s'.xfer ≠ s.xfer →
        ∃ v, s.op = .transfer k .t3 v ∨ s.op = .transfer k .t10 v ∨ s.op = .transfer k .t21 v) ∧
      (s'.results ≠ s.results → s.op = .idle ∨ ∃ v, s.op = .transfer k .t21 v) ∧
      (s'.draws ≠ s.draws →
        ∃ v, s.op = .transfer k .t11 v ∨ s.op = .transfer k .t14 v ∨ s.op = .transfer k .t18 v)) ∧
    ((∀ v, s.op = .transfer k .t1 v → s.ctl.cmdQ.length < s.params.cmdFifoDepth) →
      (∀ v, s.op = .transfer k .t2 v → s.ctl.pixQ.length < s.params.pixFifoDepth) →
      ∃ s', exec (.transfer k) s = .next s')

/-! ### Interrupt Classifier -/

/-- The classifier's steps before classification (R340, R341, R348): `irq_in` is sampled only in C_IDLE; C_READ reads
INT_STAT; C_CLEAR clears with one write exactly the word read, so a bit set since then survives. -/
def Obligations.ClassifierReadsAndClears : Prop :=
  ∀ s : State,
    (s.clsState = .cIdle →
      (s.ctl.intStat &&& s.ctl.intEn ≠ 0 ∨ (s.params.irqShared = true ∧ s.sharedLine = true) →
        exec .irqClassify s = .next { s with clsState := .cRead }) ∧
      (s.ctl.intStat &&& s.ctl.intEn = 0 → (s.params.irqShared = false ∨ s.sharedLine = false) →
        exec .irqClassify s = .next s)) ∧
    (s.clsState = .cRead →
      exec .irqClassify s = .next
        { s with
          clsState := .cClear, clsWord := s.ctl.intStat
          trace := s.trace ++ [⟨0, s.off .intStat, s.ctl.intStat⟩] }) ∧
    (s.clsState = .cClear →
      exec .irqClassify s = .next
        { s with
          clsState := .cClassify, ctl := { s.ctl with intStat := s.ctl.intStat &&& ~~~s.clsWord }
          trace := s.trace ++ [⟨1, s.off .intStat, s.clsWord⟩] })

/-- C_CLASSIFY under the default map (R343 to R346): every always-on error of the word read is reported in order and put
in `diag`; a completion signals OK, else HSTX_TO signals TIMEOUT, and the first signal wins; the claim is made. -/
def Obligations.ClassifierClassifies : Prop :=
  ∀ s : State, s.clsState = .cClassify → s.params.regMap = .dsi1 →
    let w := s.clsWord
    let errs : List (ErrBit × Nat) :=
      [(.errSyncEsc, 6), (.errControl, 7), (.errContLp0, 8), (.errContLp1, 9), (.hstxTo, 10), (.lprxTo, 11),
       (.taTo, 12), (.prTo, 13)]
    let raised : Option Signal :=
      if w &&& 0x00200002 ≠ 0 then some .ok else if w.getLsbD 10 then some .timeout else none
    exec .irqClassify s = .next
      { s with
        clsState := .cIdle, diag := s.diag ||| (w &&& 0x00003FC0), signal := s.signal.or raised
        events := s.events ++ (errs.filter fun e => w.getLsbD e.2).map (fun e => .irqErr e.1) ++
          [if w &&& 0x00203FC2 ≠ 0 then .irqHandled else .irqUnhandled] }

/-- The frame of the classifier (R347): it never stops, and changes only INT_STAT, `diag`, `xfer_signal`, its own
registers and what it puts out; `op_state` is not touched. -/
def Obligations.ClassifierFrame : Prop :=
  ∀ s : State, ∃ s', exec .irqClassify s = .next s' ∧
    s' = { s with
      clsState := s'.clsState, clsWord := s'.clsWord, diag := s'.diag, signal := s'.signal, events := s'.events
      trace := s'.trace, ctl := { s.ctl with intStat := s'.ctl.intStat } } ∧
    (s'.ctl.intStat ≠ s.ctl.intStat → s.clsState = .cClear) ∧
    (s'.diag ≠ s.diag ∨ s'.signal ≠ s.signal → s.clsState = .cClassify)

/-! ### Register port -/

/-- The rows of the plain registers TXPKT1H, INT_EN, PHYC, HS_CLT0 to HS_DLT7 and PHY_AFEC0 (R182): a write stores its
value in that register alone; a read returns it. -/
def Obligations.PlainRegisterRows : Prop :=
  ∀ (s : State) (r : RegName) (v : Word),
    r ∈ [.txpkt1h, .intEn, .phyc, .hsClt0, .hsClt1, .hsClt2, .hsDlt3, .hsDlt4, .hsDlt5, .hsDlt6, .hsDlt7, .phyAfec0] →
    (∃ t, exec (mmioInstr r (.write v)) s = .next t ∧ t.ctl.reg r = v ∧ OnlyRegister s t r ⟨1, s.off r, v⟩) ∧
    exec (mmioInstr r .read) s = .next { s with trace := s.trace ++ [⟨0, s.off r, s.ctl.reg r⟩] }

/-- The rows of INT_STAT and STAT (R184): a write clears exactly the bits that are 1 in its value; a read returns the
register. The row of RXPKT1H (R183, R190): a read returns it; a write faults. -/
def Obligations.StatusAndHeaderRows : Prop :=
  ∀ (s : State) (v : Word),
    exec (.mmioIntStat (.write v)) s = .next
      { s with
        ctl := { s.ctl with intStat := s.ctl.intStat &&& ~~~v }, trace := s.trace ++ [⟨1, s.off .intStat, v⟩] } ∧
    exec (.mmioIntStat .read) s = .next { s with trace := s.trace ++ [⟨0, s.off .intStat, s.ctl.intStat⟩] } ∧
    exec (.mmioStat (.write v)) s = .next
      { s with ctl := { s.ctl with stat := s.ctl.stat &&& ~~~v }, trace := s.trace ++ [⟨1, s.off .stat, v⟩] } ∧
    exec (.mmioStat .read) s = .next { s with trace := s.trace ++ [⟨0, s.off .stat, s.ctl.stat⟩] } ∧
    exec (.mmioRxpkt1h .read) s = .next { s with trace := s.trace ++ [⟨0, s.off .rxpkt1h, s.ctl.rxpkt1h⟩] } ∧
    exec (.mmioRxpkt1h (.write v)) s = .fault (.writeOfReadOnly (s.off .rxpkt1h))

/-- The row of TXPKT1C (R185): a write with CMD_EN starts a transmission on the current header, one without stops it; a
read returns the register, with bit 0 a draw once a transmit step has run since the last write. -/
def Obligations.ControlWordRow : Prop :=
  ∀ (s : State) (v : Word), s.params.regMap = .dsi1 →
    (v.getLsbD 0 = true → exec (.mmioTxpkt1c (.write v)) s = .next
      { s with
        ctl := { s.ctl with
          txpkt1c := v, txStepped := false, txActive := true, txHdr := s.ctl.txpkt1h, txCtl := v }
        trace := s.trace ++ [⟨1, 0x04, v⟩] }) ∧
    (v.getLsbD 0 = false → exec (.mmioTxpkt1c (.write v)) s = .next
      { s with
        ctl := { s.ctl with txpkt1c := v, txStepped := false, txActive := false }
        trace := s.trace ++ [⟨1, 0x04, v⟩] }) ∧
    (s.ctl.txStepped = false →
      exec (.mmioTxpkt1c .read) s = .next { s with trace := s.trace ++ [⟨0, 0x04, s.ctl.txpkt1c⟩] }) ∧
    (s.ctl.txStepped = true →
      let x := (s.ctl.txpkt1c &&& 0xFFFFFFFE) ||| (Config.draw s.draws &&& 1)
      exec (.mmioTxpkt1c .read) s = .next { s with draws := s.draws + 1, trace := s.trace ++ [⟨0, 0x04, x⟩] })

/-- The row of CTRL (R186): the clear bits of a write empty their queues; the clear bits last written 1 read back as
draws, every other bit as written. -/
def Obligations.ControlRegisterRow : Prop :=
  ∀ (s : State) (v : Word), s.params.regMap = .dsi1 → s.params.fifoResetMask = 0x00000070 →
    exec (.mmioCtrl (.write v)) s = .next
      { s with
        ctl := { s.ctl with
          cmdQ := if v.getLsbD 4 then [] else s.ctl.cmdQ
          pixQ := if v.getLsbD 5 then [] else s.ctl.pixQ
          rxQ := if v.getLsbD 6 then [] else s.ctl.rxQ
          ctrl := v, ctrlClears := v &&& 0x000000F0 }
        trace := s.trace ++ [⟨1, 0x00, v⟩] } ∧
    (s.ctl.ctrlClears = 0 →
      exec (.mmioCtrl .read) s = .next { s with trace := s.trace ++ [⟨0, 0x00, s.ctl.ctrl⟩] }) ∧
    (s.ctl.ctrlClears ≠ 0 →
      let x := (s.ctl.ctrl &&& ~~~s.ctl.ctrlClears) ||| (Config.draw s.draws &&& s.ctl.ctrlClears)
      exec (.mmioCtrl .read) s = .next { s with draws := s.draws + 1, trace := s.trace ++ [⟨0, 0x00, x⟩] })

/-- The rows of the three FIFO ports (R187 to R190): a push enqueues the low byte or the word, or faults on a full queue,
and its read faults; a pop takes the oldest byte, or is a draw when there is none, and its write faults. -/
def Obligations.FifoPortRows : Prop :=
  ∀ (s : State) (v : Word),
    (s.ctl.cmdQ.length < s.params.cmdFifoDepth → exec (.mmioTxpktCmdFifo (.write v)) s = .next
      { s with
        ctl := { s.ctl with cmdQ := s.ctl.cmdQ ++ [v.extractLsb' 0 8] }
        trace := s.trace ++ [⟨1, s.off .cmdFifo, v⟩] }) ∧
    (s.params.cmdFifoDepth ≤ s.ctl.cmdQ.length →
      exec (.mmioTxpktCmdFifo (.write v)) s = .fault (.fifoOverflow .cmd)) ∧
    exec (.mmioTxpktCmdFifo .read) s = .fault (.readOfWriteOnly (s.off .cmdFifo)) ∧
    (s.ctl.pixQ.length < s.params.pixFifoDepth → exec (.mmioTxpktPixFifo (.write v)) s = .next
      { s with
        ctl := { s.ctl with pixQ := s.ctl.pixQ ++ [v] }, trace := s.trace ++ [⟨1, s.off .pixFifo, v⟩] }) ∧
    (s.params.pixFifoDepth ≤ s.ctl.pixQ.length →
      exec (.mmioTxpktPixFifo (.write v)) s = .fault (.fifoOverflow .pix)) ∧
    exec (.mmioTxpktPixFifo .read) s = .fault (.readOfWriteOnly (s.off .pixFifo)) ∧
    (∀ b rest, s.ctl.rxQ = b :: rest → exec (.mmioRxpktFifo .read) s = .next
      { s with
        ctl := { s.ctl with rxQ := rest }, trace := s.trace ++ [⟨0, s.off .rxFifo, b.zeroExtend 32⟩] }) ∧
    (s.ctl.rxQ = [] → exec (.mmioRxpktFifo .read) s = .next
      { s with draws := s.draws + 1, trace := s.trace ++ [⟨0, s.off .rxFifo, Config.draw s.draws⟩] }) ∧
    exec (.mmioRxpktFifo (.write v)) s = .fault (.writeOfReadOnly (s.off .rxFifo))

/-- READ32 and WRITE32 (R180, R181, R190): an offset that is misaligned or not in the map faults and names itself, the
DSI1 registers of R49 among them; any other access is the access of the register the offset names. -/
def Obligations.BusRowsFollowTheMap : Prop :=
  ∀ (s : State) (off : Nat) (v : Word),
    (off % 4 ≠ 0 ∨ s.params.regMap.nameAt off = none →
      exec (.read32 off) s = .fault (.badOffset off) ∧ exec (.write32 off v) s = .fault (.badOffset off)) ∧
    (s.params.regMap = .dsi1 →
      off ∈ [0x0C, 0x10, 0x18, 0x28, 0x2C, 0x3C, 0x40, 0x44, 0x48, 0x74, 0x78, 0x7C, 0x80, 0x84, 0x88, 0x8C] →
      exec (.read32 off) s = .fault (.badOffset off) ∧ exec (.write32 off v) s = .fault (.badOffset off)) ∧
    (∀ r, off % 4 = 0 → s.params.regMap.nameAt off = some r →
      exec (.read32 off) s = exec (mmioInstr r .read) s ∧ exec (.write32 off v) s = exec (mmioInstr r (.write v)) s)

/-- READ32 of every register but the push ports, and WRITE32 of every register but the two read-only ones and a full
queue, complete, and record their transaction (R139, R180, R181). -/
def Obligations.BusAccessesComplete : Prop :=
  ∀ (s : State) (r : RegName) (v : Word), s.params.regMap.offsetsValid = true →
    (r ≠ .cmdFifo → r ≠ .pixFifo →
      ∃ t x, exec (.read32 (s.off r)) s = .next t ∧ t.trace = s.trace ++ [⟨0, s.off r, x⟩]) ∧
    (r ≠ .rxpkt1h → r ≠ .rxFifo → (r = .cmdFifo → s.ctl.cmdQ.length < s.params.cmdFifoDepth) →
      (r = .pixFifo → s.ctl.pixQ.length < s.params.pixFifoDepth) →
      ∃ t, exec (.write32 (s.off r) v) s = .next t ∧ t.trace = s.trace ++ [⟨1, s.off r, v⟩])

/-! ### Environment, reset and whole-machine rules -/

/-- The environment's steps (R195 to R198), and the inputs of R210 and R340, each scheduled by itself. That a transmit step
does nothing while no transmission is active, that counts, masked bits and bytes beyond the response FIFO are clipped
(log 16), and that the parts of a response step are optional (log 24), are the model's. -/
def Obligations.EnvironmentSteps : Prop :=
  ∀ (s : State),
    let s₀ := { s with agenda := s.agenda.tail }
    let m := s.params.regMap
    let lat := fun e : Word => if s.params.intStatLatchesMasked then e else e &&& s.ctl.intEn
    (∀ e, chosen s = .env (.intStat e) →
      step s = .next { s₀ with ctl := { s.ctl with intStat := s.ctl.intStat ||| lat e } }) ∧
    (∀ k j d, chosen s = .env (.transmit k j d) → s.ctl.txActive = true →
      step s = .next { s₀ with
        ctl := { s.ctl with
          cmdQ := s.ctl.cmdQ.drop k, pixQ := s.ctl.pixQ.drop j, txActive := false, txStepped := true
          intStat := if d then s.ctl.intStat ||| lat (doneTx m) else s.ctl.intStat } }) ∧
    (∀ k j d, chosen s = .env (.transmit k j d) → s.ctl.txActive = false → step s = .next s₀) ∧
    (∀ h bs d, chosen s = .env (.response h bs d) →
      let room := match s.params.rxFifoDepth with
        | none => bs.length
        | some n => n - s.ctl.rxQ.length
      step s = .next { s₀ with
        ctl := { s.ctl with
          rxpkt1h := h.getD s.ctl.rxpkt1h, rxQ := s.ctl.rxQ ++ bs.take room
          intStat := if d then s.ctl.intStat ||| lat (doneRx m) else s.ctl.intStat } }) ∧
    (∀ e, chosen s = .env (.lanes e) →
      step s = .next { s₀ with ctl := { s.ctl with stat := s.ctl.stat ||| e } }) ∧
    (∀ hz, chosen s = .env (.rate hz) → step s = .next { s₀ with phyRateHz := hz }) ∧
    (∀ b, chosen s = .env (.sharedLine b) → step s = .next { s₀ with sharedLine := b })

/-- Only the environment sets bits of INT_STAT and STAT (R184). -/
def Obligations.OnlyTheEnvironmentSetsStatusBits : Prop :=
  ∀ s s' : State, step s = .next s' → (∀ e, chosen s ≠ .env e) →
    s'.ctl.intStat &&& ~~~s.ctl.intStat = 0 ∧ s'.ctl.stat &&& ~~~s.ctl.stat = 0

/-- The environment never changes a plain register, the control registers, or the core's own registers (R182, R195 to
R198). -/
def Obligations.EnvironmentFrame : Prop :=
  ∀ (s s' : State) (e : EnvStep), chosen s = .env e → step s = .next s' →
    s' = { s with
      agenda := s.agenda.tail, phyRateHz := s'.phyRateHz, sharedLine := s'.sharedLine
      ctl := { s.ctl with
        intStat := s'.ctl.intStat, stat := s'.ctl.stat, rxpkt1h := s'.ctl.rxpkt1h, cmdQ := s'.ctl.cmdQ
        pixQ := s'.ctl.pixQ, rxQ := s'.ctl.rxQ, txActive := s'.ctl.txActive, txStepped := s'.ctl.txStepped } }

/-- The Link Configuration is "set once at attach, read-only afterward by the core": once configured, only the core's
reset changes it (R32, R240). -/
def Obligations.ConfigurationSetOnce : Prop :=
  ∀ s s' : State, step s = .next s' → s.cfg.configured = true → s'.cfg = s.cfg ∨ chosen s = .reset

/-- The reset values (R56), over any parameters, any launch state of the controller and any clock rate. -/
def Obligations.ResetValues : Prop :=
  ∀ (p : Params) (c : Controller) (hz : Nat),
    let s := State.initial p c hz
    s.op = .idle ∧ s.cfg.configured = false ∧ s.bundle = none ∧ s.xfer.pending = false ∧ s.xfer.result = .ok ∧
      s.xfer.rxBuf = [] ∧ s.signal = none ∧ s.phyState = .active ∧ s.phyDegraded = false ∧ s.clsState = .cIdle ∧
      s.clsWord = 0 ∧ s.diag = 0 ∧ s.ctl = c

/-- The core's reset (R400, R402): every core-internal register takes its reset value, no access is made, no result is
returned, and the controller stays as it is. The values of `cfg` other than `configured` are the model's (log 5), and so
is that the held request and the outputs stay (log 15). -/
def Obligations.CoreResetAbandons : Prop :=
  ∀ s : State, chosen s = .reset →
    step s = .next
      { s with
        agenda := s.agenda.tail, op := .idle, cfg := .reset, bundle := none, xfer := ⟨false, .ok, []⟩, signal := none
        phyState := .active, phyDegraded := false, clsState := .cIdle, clsWord := 0, diag := 0 }

/-! ### Invariants -/

/-- Every initial state over a clean launch meets the invariants below, the model's reset state among them (R56, R401). -/
def Obligations.InitialStatesMeetTheInvariants : Prop :=
  (∀ (p : Params) (c : Controller) (hz : Nat), c.cleanLaunch p → c.txStepped = false →
    let s := State.initial p c hz
    ConfigLegal s ∧ QueuesBounded s ∧ PendingTracksTransfer s ∧ TransmitConsistent s ∧ BundlesWhole s ∧
      TransferSound s ∧ DiagAlwaysOn s) ∧
  (Controller.launch.cleanLaunch Params.default ∧ Controller.launch.txStepped = false ∧
    State.reset = State.initial Params.default Controller.launch 500000000)

/-- Every step of the machine keeps the lane count of a configured core in 1 to MAX_LANES (R32), `diag` within the
always-on error bits (R55, R343), and `xfer.pending` true exactly between T3 and T10 of one TRANSFER (R317). -/
def Obligations.StepsKeepCoreRegistersLegal : Prop :=
  ∀ s s' : State, step s = .next s' →
    (ConfigLegal s → ConfigLegal s') ∧ (DiagAlwaysOn s → DiagAlwaysOn s') ∧
      (PendingTracksTransfer s → PendingTracksTransfer s')

/-- Every step keeps each queue within its capacity (R50), and the transmit state in agreement with the control word (R51,
R185). -/
def Obligations.StepsKeepControllerConsistent : Prop :=
  ∀ s s' : State, step s = .next s' →
    (QueuesBounded s → QueuesBounded s') ∧ (TransmitConsistent s → TransmitConsistent s')

/-- Every step keeps every bundle the core holds whole: of one nonzero rate, and fitting its fields (R33, R219, R220). -/
def Obligations.StepsKeepBundlesWhole : Prop :=
  ∀ s s' : State, BundlesWhole s → step s = .next s' → BundlesWhole s'

/-- Every step keeps a running TRANSFER on the packet, words and lists that ENCODE accepted (R300, R301, R313). -/
def Obligations.StepsKeepTransferSound : Prop :=
  ∀ s s' : State, TransferSound s → step s = .next s' → TransferSound s'
end

