-- ==== Sys2Proof/Laws/State.lean ====
section
/-! SUPPORT. One lemma per field for each update of the state, so that no proof unfolds a record update. -/

namespace Sys2Proof.Machine

open Sys2Proof

/-! `logged` -/

@[simp] theorem State.logged_params (s : State) (d : BitVec 1) (r : RegName) (v : Word) :
    (s.logged d r v).params = s.params := rfl

@[simp] theorem State.logged_op (s : State) (d : BitVec 1) (r : RegName) (v : Word) :
    (s.logged d r v).op = s.op := rfl

@[simp] theorem State.logged_cfg (s : State) (d : BitVec 1) (r : RegName) (v : Word) :
    (s.logged d r v).cfg = s.cfg := rfl

@[simp] theorem State.logged_bundle (s : State) (d : BitVec 1) (r : RegName) (v : Word) :
    (s.logged d r v).bundle = s.bundle := rfl

@[simp] theorem State.logged_xfer (s : State) (d : BitVec 1) (r : RegName) (v : Word) :
    (s.logged d r v).xfer = s.xfer := rfl

@[simp] theorem State.logged_signal (s : State) (d : BitVec 1) (r : RegName) (v : Word) :
    (s.logged d r v).signal = s.signal := rfl

@[simp] theorem State.logged_phyState (s : State) (d : BitVec 1) (r : RegName) (v : Word) :
    (s.logged d r v).phyState = s.phyState := rfl

@[simp] theorem State.logged_phyDegraded (s : State) (d : BitVec 1) (r : RegName) (v : Word) :
    (s.logged d r v).phyDegraded = s.phyDegraded := rfl

@[simp] theorem State.logged_clsState (s : State) (d : BitVec 1) (r : RegName) (v : Word) :
    (s.logged d r v).clsState = s.clsState := rfl

@[simp] theorem State.logged_clsWord (s : State) (d : BitVec 1) (r : RegName) (v : Word) :
    (s.logged d r v).clsWord = s.clsWord := rfl

@[simp] theorem State.logged_diag (s : State) (d : BitVec 1) (r : RegName) (v : Word) :
    (s.logged d r v).diag = s.diag := rfl

@[simp] theorem State.logged_ctl (s : State) (d : BitVec 1) (r : RegName) (v : Word) :
    (s.logged d r v).ctl = s.ctl := rfl

@[simp] theorem State.logged_phyRateHz (s : State) (d : BitVec 1) (r : RegName) (v : Word) :
    (s.logged d r v).phyRateHz = s.phyRateHz := rfl

@[simp] theorem State.logged_sharedLine (s : State) (d : BitVec 1) (r : RegName) (v : Word) :
    (s.logged d r v).sharedLine = s.sharedLine := rfl

@[simp] theorem State.logged_deadline (s : State) (d : BitVec 1) (r : RegName) (v : Word) :
    (s.logged d r v).deadline = s.deadline := rfl

@[simp] theorem State.logged_port (s : State) (d : BitVec 1) (r : RegName) (v : Word) :
    (s.logged d r v).port = s.port := rfl

@[simp] theorem State.logged_results (s : State) (d : BitVec 1) (r : RegName) (v : Word) :
    (s.logged d r v).results = s.results := rfl

@[simp] theorem State.logged_trace (s : State) (d : BitVec 1) (r : RegName) (v : Word) :
    (s.logged d r v).trace = s.trace ++ [⟨d, s.off r, v⟩] := rfl

@[simp] theorem State.logged_events (s : State) (d : BitVec 1) (r : RegName) (v : Word) :
    (s.logged d r v).events = s.events := rfl

@[simp] theorem State.logged_agenda (s : State) (d : BitVec 1) (r : RegName) (v : Word) :
    (s.logged d r v).agenda = s.agenda := rfl

@[simp] theorem State.logged_draws (s : State) (d : BitVec 1) (r : RegName) (v : Word) :
    (s.logged d r v).draws = s.draws := rfl


/-! `emit` -/

@[simp] theorem State.emit_params (s : State) (e : Event) :
    (s.emit e).params = s.params := rfl

@[simp] theorem State.emit_op (s : State) (e : Event) :
    (s.emit e).op = s.op := rfl

@[simp] theorem State.emit_cfg (s : State) (e : Event) :
    (s.emit e).cfg = s.cfg := rfl

@[simp] theorem State.emit_bundle (s : State) (e : Event) :
    (s.emit e).bundle = s.bundle := rfl

@[simp] theorem State.emit_xfer (s : State) (e : Event) :
    (s.emit e).xfer = s.xfer := rfl

@[simp] theorem State.emit_signal (s : State) (e : Event) :
    (s.emit e).signal = s.signal := rfl

@[simp] theorem State.emit_phyState (s : State) (e : Event) :
    (s.emit e).phyState = s.phyState := rfl

@[simp] theorem State.emit_phyDegraded (s : State) (e : Event) :
    (s.emit e).phyDegraded = s.phyDegraded := rfl

@[simp] theorem State.emit_clsState (s : State) (e : Event) :
    (s.emit e).clsState = s.clsState := rfl

@[simp] theorem State.emit_clsWord (s : State) (e : Event) :
    (s.emit e).clsWord = s.clsWord := rfl

@[simp] theorem State.emit_diag (s : State) (e : Event) :
    (s.emit e).diag = s.diag := rfl

@[simp] theorem State.emit_ctl (s : State) (e : Event) :
    (s.emit e).ctl = s.ctl := rfl

@[simp] theorem State.emit_phyRateHz (s : State) (e : Event) :
    (s.emit e).phyRateHz = s.phyRateHz := rfl

@[simp] theorem State.emit_sharedLine (s : State) (e : Event) :
    (s.emit e).sharedLine = s.sharedLine := rfl

@[simp] theorem State.emit_deadline (s : State) (e : Event) :
    (s.emit e).deadline = s.deadline := rfl

@[simp] theorem State.emit_port (s : State) (e : Event) :
    (s.emit e).port = s.port := rfl

@[simp] theorem State.emit_results (s : State) (e : Event) :
    (s.emit e).results = s.results := rfl

@[simp] theorem State.emit_trace (s : State) (e : Event) :
    (s.emit e).trace = s.trace := rfl

@[simp] theorem State.emit_events (s : State) (e : Event) :
    (s.emit e).events = s.events ++ [e] := rfl

@[simp] theorem State.emit_agenda (s : State) (e : Event) :
    (s.emit e).agenda = s.agenda := rfl

@[simp] theorem State.emit_draws (s : State) (e : Event) :
    (s.emit e).draws = s.draws := rfl


/-! `goto` -/

@[simp] theorem State.goto_params (s : State) (o : OpState) :
    (s.goto o).params = s.params := rfl

@[simp] theorem State.goto_op (s : State) (o : OpState) :
    (s.goto o).op = o := rfl

@[simp] theorem State.goto_cfg (s : State) (o : OpState) :
    (s.goto o).cfg = s.cfg := rfl

@[simp] theorem State.goto_bundle (s : State) (o : OpState) :
    (s.goto o).bundle = s.bundle := rfl

@[simp] theorem State.goto_xfer (s : State) (o : OpState) :
    (s.goto o).xfer = s.xfer := rfl

@[simp] theorem State.goto_signal (s : State) (o : OpState) :
    (s.goto o).signal = s.signal := rfl

@[simp] theorem State.goto_phyState (s : State) (o : OpState) :
    (s.goto o).phyState = s.phyState := rfl

@[simp] theorem State.goto_phyDegraded (s : State) (o : OpState) :
    (s.goto o).phyDegraded = s.phyDegraded := rfl

@[simp] theorem State.goto_clsState (s : State) (o : OpState) :
    (s.goto o).clsState = s.clsState := rfl

@[simp] theorem State.goto_clsWord (s : State) (o : OpState) :
    (s.goto o).clsWord = s.clsWord := rfl

@[simp] theorem State.goto_diag (s : State) (o : OpState) :
    (s.goto o).diag = s.diag := rfl

@[simp] theorem State.goto_ctl (s : State) (o : OpState) :
    (s.goto o).ctl = s.ctl := rfl

@[simp] theorem State.goto_phyRateHz (s : State) (o : OpState) :
    (s.goto o).phyRateHz = s.phyRateHz := rfl

@[simp] theorem State.goto_sharedLine (s : State) (o : OpState) :
    (s.goto o).sharedLine = s.sharedLine := rfl

@[simp] theorem State.goto_deadline (s : State) (o : OpState) :
    (s.goto o).deadline = s.deadline := rfl

@[simp] theorem State.goto_port (s : State) (o : OpState) :
    (s.goto o).port = s.port := rfl

@[simp] theorem State.goto_results (s : State) (o : OpState) :
    (s.goto o).results = s.results := rfl

@[simp] theorem State.goto_trace (s : State) (o : OpState) :
    (s.goto o).trace = s.trace := rfl

@[simp] theorem State.goto_events (s : State) (o : OpState) :
    (s.goto o).events = s.events := rfl

@[simp] theorem State.goto_agenda (s : State) (o : OpState) :
    (s.goto o).agenda = s.agenda := rfl

@[simp] theorem State.goto_draws (s : State) (o : OpState) :
    (s.goto o).draws = s.draws := rfl


/-! `finish` -/

@[simp] theorem State.finish_params (s : State) (c : Code) (b : List Byte) (d : Word) (x : Value) :
    (s.finish c b d x).params = s.params := rfl

@[simp] theorem State.finish_op (s : State) (c : Code) (b : List Byte) (d : Word) (x : Value) :
    (s.finish c b d x).op = .idle := rfl

@[simp] theorem State.finish_cfg (s : State) (c : Code) (b : List Byte) (d : Word) (x : Value) :
    (s.finish c b d x).cfg = s.cfg := rfl

@[simp] theorem State.finish_bundle (s : State) (c : Code) (b : List Byte) (d : Word) (x : Value) :
    (s.finish c b d x).bundle = s.bundle := rfl

@[simp] theorem State.finish_xfer (s : State) (c : Code) (b : List Byte) (d : Word) (x : Value) :
    (s.finish c b d x).xfer = s.xfer := rfl

@[simp] theorem State.finish_signal (s : State) (c : Code) (b : List Byte) (d : Word) (x : Value) :
    (s.finish c b d x).signal = s.signal := rfl

@[simp] theorem State.finish_phyState (s : State) (c : Code) (b : List Byte) (d : Word) (x : Value) :
    (s.finish c b d x).phyState = s.phyState := rfl

@[simp] theorem State.finish_phyDegraded (s : State) (c : Code) (b : List Byte) (d : Word) (x : Value) :
    (s.finish c b d x).phyDegraded = s.phyDegraded := rfl

@[simp] theorem State.finish_clsState (s : State) (c : Code) (b : List Byte) (d : Word) (x : Value) :
    (s.finish c b d x).clsState = s.clsState := rfl

@[simp] theorem State.finish_clsWord (s : State) (c : Code) (b : List Byte) (d : Word) (x : Value) :
    (s.finish c b d x).clsWord = s.clsWord := rfl

@[simp] theorem State.finish_diag (s : State) (c : Code) (b : List Byte) (d : Word) (x : Value) :
    (s.finish c b d x).diag = s.diag := rfl

@[simp] theorem State.finish_ctl (s : State) (c : Code) (b : List Byte) (d : Word) (x : Value) :
    (s.finish c b d x).ctl = s.ctl := rfl

@[simp] theorem State.finish_phyRateHz (s : State) (c : Code) (b : List Byte) (d : Word) (x : Value) :
    (s.finish c b d x).phyRateHz = s.phyRateHz := rfl

@[simp] theorem State.finish_sharedLine (s : State) (c : Code) (b : List Byte) (d : Word) (x : Value) :
    (s.finish c b d x).sharedLine = s.sharedLine := rfl

@[simp] theorem State.finish_deadline (s : State) (c : Code) (b : List Byte) (d : Word) (x : Value) :
    (s.finish c b d x).deadline = s.deadline := rfl

@[simp] theorem State.finish_port (s : State) (c : Code) (b : List Byte) (d : Word) (x : Value) :
    (s.finish c b d x).port = s.port := rfl

@[simp] theorem State.finish_results (s : State) (c : Code) (b : List Byte) (d : Word) (x : Value) :
    (s.finish c b d x).results = s.results ++ [⟨c, b, d, x⟩] := rfl

@[simp] theorem State.finish_trace (s : State) (c : Code) (b : List Byte) (d : Word) (x : Value) :
    (s.finish c b d x).trace = s.trace := rfl

@[simp] theorem State.finish_events (s : State) (c : Code) (b : List Byte) (d : Word) (x : Value) :
    (s.finish c b d x).events = s.events := rfl

@[simp] theorem State.finish_agenda (s : State) (c : Code) (b : List Byte) (d : Word) (x : Value) :
    (s.finish c b d x).agenda = s.agenda := rfl

@[simp] theorem State.finish_draws (s : State) (c : Code) (b : List Byte) (d : Word) (x : Value) :
    (s.finish c b d x).draws = s.draws := rfl


/-! `enterInterrupt` -/

@[simp] theorem State.enterInterrupt_params (s : State) :
    (s.enterInterrupt).params = s.params := rfl

@[simp] theorem State.enterInterrupt_op (s : State) :
    (s.enterInterrupt).op = s.op := rfl

@[simp] theorem State.enterInterrupt_cfg (s : State) :
    (s.enterInterrupt).cfg = s.cfg := rfl

@[simp] theorem State.enterInterrupt_bundle (s : State) :
    (s.enterInterrupt).bundle = s.bundle := rfl

@[simp] theorem State.enterInterrupt_xfer (s : State) :
    (s.enterInterrupt).xfer = s.xfer := rfl

@[simp] theorem State.enterInterrupt_signal (s : State) :
    (s.enterInterrupt).signal = s.signal := rfl

@[simp] theorem State.enterInterrupt_phyState (s : State) :
    (s.enterInterrupt).phyState = s.phyState := rfl

@[simp] theorem State.enterInterrupt_phyDegraded (s : State) :
    (s.enterInterrupt).phyDegraded = s.phyDegraded := rfl

@[simp] theorem State.enterInterrupt_clsState (s : State) :
    (s.enterInterrupt).clsState = .cRead := rfl

@[simp] theorem State.enterInterrupt_clsWord (s : State) :
    (s.enterInterrupt).clsWord = s.clsWord := rfl

@[simp] theorem State.enterInterrupt_diag (s : State) :
    (s.enterInterrupt).diag = s.diag := rfl

@[simp] theorem State.enterInterrupt_ctl (s : State) :
    (s.enterInterrupt).ctl = s.ctl := rfl

@[simp] theorem State.enterInterrupt_phyRateHz (s : State) :
    (s.enterInterrupt).phyRateHz = s.phyRateHz := rfl

@[simp] theorem State.enterInterrupt_sharedLine (s : State) :
    (s.enterInterrupt).sharedLine = s.sharedLine := rfl

@[simp] theorem State.enterInterrupt_deadline (s : State) :
    (s.enterInterrupt).deadline = s.deadline := rfl

@[simp] theorem State.enterInterrupt_port (s : State) :
    (s.enterInterrupt).port = s.port := rfl

@[simp] theorem State.enterInterrupt_results (s : State) :
    (s.enterInterrupt).results = s.results := rfl

@[simp] theorem State.enterInterrupt_trace (s : State) :
    (s.enterInterrupt).trace = s.trace := rfl

@[simp] theorem State.enterInterrupt_events (s : State) :
    (s.enterInterrupt).events = s.events := rfl

@[simp] theorem State.enterInterrupt_agenda (s : State) :
    (s.enterInterrupt).agenda = s.agenda := rfl

@[simp] theorem State.enterInterrupt_draws (s : State) :
    (s.enterInterrupt).draws = s.draws := rfl


/-! `returnInterrupt` -/

@[simp] theorem State.returnInterrupt_params (s : State) :
    (s.returnInterrupt).params = s.params := rfl

@[simp] theorem State.returnInterrupt_op (s : State) :
    (s.returnInterrupt).op = s.op := rfl

@[simp] theorem State.returnInterrupt_cfg (s : State) :
    (s.returnInterrupt).cfg = s.cfg := rfl

@[simp] theorem State.returnInterrupt_bundle (s : State) :
    (s.returnInterrupt).bundle = s.bundle := rfl

@[simp] theorem State.returnInterrupt_xfer (s : State) :
    (s.returnInterrupt).xfer = s.xfer := rfl

@[simp] theorem State.returnInterrupt_signal (s : State) :
    (s.returnInterrupt).signal = s.signal := rfl

@[simp] theorem State.returnInterrupt_phyState (s : State) :
    (s.returnInterrupt).phyState = s.phyState := rfl

@[simp] theorem State.returnInterrupt_phyDegraded (s : State) :
    (s.returnInterrupt).phyDegraded = s.phyDegraded := rfl

@[simp] theorem State.returnInterrupt_clsState (s : State) :
    (s.returnInterrupt).clsState = .cIdle := rfl

@[simp] theorem State.returnInterrupt_clsWord (s : State) :
    (s.returnInterrupt).clsWord = s.clsWord := rfl

@[simp] theorem State.returnInterrupt_diag (s : State) :
    (s.returnInterrupt).diag = s.diag := rfl

@[simp] theorem State.returnInterrupt_ctl (s : State) :
    (s.returnInterrupt).ctl = s.ctl := rfl

@[simp] theorem State.returnInterrupt_phyRateHz (s : State) :
    (s.returnInterrupt).phyRateHz = s.phyRateHz := rfl

@[simp] theorem State.returnInterrupt_sharedLine (s : State) :
    (s.returnInterrupt).sharedLine = s.sharedLine := rfl

@[simp] theorem State.returnInterrupt_deadline (s : State) :
    (s.returnInterrupt).deadline = s.deadline := rfl

@[simp] theorem State.returnInterrupt_port (s : State) :
    (s.returnInterrupt).port = s.port := rfl

@[simp] theorem State.returnInterrupt_results (s : State) :
    (s.returnInterrupt).results = s.results := rfl

@[simp] theorem State.returnInterrupt_trace (s : State) :
    (s.returnInterrupt).trace = s.trace := rfl

@[simp] theorem State.returnInterrupt_events (s : State) :
    (s.returnInterrupt).events = s.events := rfl

@[simp] theorem State.returnInterrupt_agenda (s : State) :
    (s.returnInterrupt).agenda = s.agenda := rfl

@[simp] theorem State.returnInterrupt_draws (s : State) :
    (s.returnInterrupt).draws = s.draws := rfl


/-! `coreReset` -/

@[simp] theorem State.coreReset_params (s : State) :
    (s.coreReset).params = s.params := rfl

@[simp] theorem State.coreReset_op (s : State) :
    (s.coreReset).op = .idle := rfl

@[simp] theorem State.coreReset_cfg (s : State) :
    (s.coreReset).cfg = .reset := rfl

@[simp] theorem State.coreReset_bundle (s : State) :
    (s.coreReset).bundle = none := rfl

@[simp] theorem State.coreReset_xfer (s : State) :
    (s.coreReset).xfer = .reset := rfl

@[simp] theorem State.coreReset_signal (s : State) :
    (s.coreReset).signal = none := rfl

@[simp] theorem State.coreReset_phyState (s : State) :
    (s.coreReset).phyState = .active := rfl

@[simp] theorem State.coreReset_phyDegraded (s : State) :
    (s.coreReset).phyDegraded = false := rfl

@[simp] theorem State.coreReset_clsState (s : State) :
    (s.coreReset).clsState = .cIdle := rfl

@[simp] theorem State.coreReset_clsWord (s : State) :
    (s.coreReset).clsWord = 0 := rfl

@[simp] theorem State.coreReset_diag (s : State) :
    (s.coreReset).diag = 0 := rfl

@[simp] theorem State.coreReset_ctl (s : State) :
    (s.coreReset).ctl = s.ctl := rfl

@[simp] theorem State.coreReset_phyRateHz (s : State) :
    (s.coreReset).phyRateHz = s.phyRateHz := rfl

@[simp] theorem State.coreReset_sharedLine (s : State) :
    (s.coreReset).sharedLine = s.sharedLine := rfl

@[simp] theorem State.coreReset_deadline (s : State) :
    (s.coreReset).deadline = s.deadline := rfl

@[simp] theorem State.coreReset_port (s : State) :
    (s.coreReset).port = s.port := rfl

@[simp] theorem State.coreReset_results (s : State) :
    (s.coreReset).results = s.results := rfl

@[simp] theorem State.coreReset_trace (s : State) :
    (s.coreReset).trace = s.trace := rfl

@[simp] theorem State.coreReset_events (s : State) :
    (s.coreReset).events = s.events := rfl

@[simp] theorem State.coreReset_agenda (s : State) :
    (s.coreReset).agenda = s.agenda := rfl

@[simp] theorem State.coreReset_draws (s : State) :
    (s.coreReset).draws = s.draws := rfl


/-! `raiseSignal` -/

@[simp] theorem State.raiseSignal_params (s : State) (g : Signal) :
    (s.raiseSignal g).params = s.params := by
  unfold State.raiseSignal; split <;> simp_all

@[simp] theorem State.raiseSignal_op (s : State) (g : Signal) :
    (s.raiseSignal g).op = s.op := by
  unfold State.raiseSignal; split <;> simp_all

@[simp] theorem State.raiseSignal_cfg (s : State) (g : Signal) :
    (s.raiseSignal g).cfg = s.cfg := by
  unfold State.raiseSignal; split <;> simp_all

@[simp] theorem State.raiseSignal_bundle (s : State) (g : Signal) :
    (s.raiseSignal g).bundle = s.bundle := by
  unfold State.raiseSignal; split <;> simp_all

@[simp] theorem State.raiseSignal_xfer (s : State) (g : Signal) :
    (s.raiseSignal g).xfer = s.xfer := by
  unfold State.raiseSignal; split <;> simp_all

@[simp] theorem State.raiseSignal_signal (s : State) (g : Signal) :
    (s.raiseSignal g).signal = some (s.signal.getD g) := by
  unfold State.raiseSignal; split <;> simp_all

@[simp] theorem State.raiseSignal_phyState (s : State) (g : Signal) :
    (s.raiseSignal g).phyState = s.phyState := by
  unfold State.raiseSignal; split <;> simp_all

@[simp] theorem State.raiseSignal_phyDegraded (s : State) (g : Signal) :
    (s.raiseSignal g).phyDegraded = s.phyDegraded := by
  unfold State.raiseSignal; split <;> simp_all

@[simp] theorem State.raiseSignal_clsState (s : State) (g : Signal) :
    (s.raiseSignal g).clsState = s.clsState := by
  unfold State.raiseSignal; split <;> simp_all

@[simp] theorem State.raiseSignal_clsWord (s : State) (g : Signal) :
    (s.raiseSignal g).clsWord = s.clsWord := by
  unfold State.raiseSignal; split <;> simp_all

@[simp] theorem State.raiseSignal_diag (s : State) (g : Signal) :
    (s.raiseSignal g).diag = s.diag := by
  unfold State.raiseSignal; split <;> simp_all

@[simp] theorem State.raiseSignal_ctl (s : State) (g : Signal) :
    (s.raiseSignal g).ctl = s.ctl := by
  unfold State.raiseSignal; split <;> simp_all

@[simp] theorem State.raiseSignal_phyRateHz (s : State) (g : Signal) :
    (s.raiseSignal g).phyRateHz = s.phyRateHz := by
  unfold State.raiseSignal; split <;> simp_all

@[simp] theorem State.raiseSignal_sharedLine (s : State) (g : Signal) :
    (s.raiseSignal g).sharedLine = s.sharedLine := by
  unfold State.raiseSignal; split <;> simp_all

@[simp] theorem State.raiseSignal_deadline (s : State) (g : Signal) :
    (s.raiseSignal g).deadline = s.deadline := by
  unfold State.raiseSignal; split <;> simp_all

@[simp] theorem State.raiseSignal_port (s : State) (g : Signal) :
    (s.raiseSignal g).port = s.port := by
  unfold State.raiseSignal; split <;> simp_all

@[simp] theorem State.raiseSignal_results (s : State) (g : Signal) :
    (s.raiseSignal g).results = s.results := by
  unfold State.raiseSignal; split <;> simp_all

@[simp] theorem State.raiseSignal_trace (s : State) (g : Signal) :
    (s.raiseSignal g).trace = s.trace := by
  unfold State.raiseSignal; split <;> simp_all

@[simp] theorem State.raiseSignal_events (s : State) (g : Signal) :
    (s.raiseSignal g).events = s.events := by
  unfold State.raiseSignal; split <;> simp_all

@[simp] theorem State.raiseSignal_agenda (s : State) (g : Signal) :
    (s.raiseSignal g).agenda = s.agenda := by
  unfold State.raiseSignal; split <;> simp_all

@[simp] theorem State.raiseSignal_draws (s : State) (g : Signal) :
    (s.raiseSignal g).draws = s.draws := by
  unfold State.raiseSignal; split <;> simp_all


/-! `present` -/

@[simp] theorem State.present_params (s : State) (r : Request) :
    (s.present r).params = s.params := rfl

@[simp] theorem State.present_op (s : State) (r : Request) :
    (s.present r).op = s.op := rfl

@[simp] theorem State.present_cfg (s : State) (r : Request) :
    (s.present r).cfg = s.cfg := rfl

@[simp] theorem State.present_bundle (s : State) (r : Request) :
    (s.present r).bundle = s.bundle := rfl

@[simp] theorem State.present_xfer (s : State) (r : Request) :
    (s.present r).xfer = s.xfer := rfl

@[simp] theorem State.present_signal (s : State) (r : Request) :
    (s.present r).signal = s.signal := rfl

@[simp] theorem State.present_phyState (s : State) (r : Request) :
    (s.present r).phyState = s.phyState := rfl

@[simp] theorem State.present_phyDegraded (s : State) (r : Request) :
    (s.present r).phyDegraded = s.phyDegraded := rfl

@[simp] theorem State.present_clsState (s : State) (r : Request) :
    (s.present r).clsState = s.clsState := rfl

@[simp] theorem State.present_clsWord (s : State) (r : Request) :
    (s.present r).clsWord = s.clsWord := rfl

@[simp] theorem State.present_diag (s : State) (r : Request) :
    (s.present r).diag = s.diag := rfl

@[simp] theorem State.present_ctl (s : State) (r : Request) :
    (s.present r).ctl = s.ctl := rfl

@[simp] theorem State.present_phyRateHz (s : State) (r : Request) :
    (s.present r).phyRateHz = s.phyRateHz := rfl

@[simp] theorem State.present_sharedLine (s : State) (r : Request) :
    (s.present r).sharedLine = s.sharedLine := rfl

@[simp] theorem State.present_deadline (s : State) (r : Request) :
    (s.present r).deadline = s.deadline := rfl

@[simp] theorem State.present_results (s : State) (r : Request) :
    (s.present r).results = s.results := rfl

@[simp] theorem State.present_trace (s : State) (r : Request) :
    (s.present r).trace = s.trace := rfl

@[simp] theorem State.present_events (s : State) (r : Request) :
    (s.present r).events = s.events := rfl

@[simp] theorem State.present_agenda (s : State) (r : Request) :
    (s.present r).agenda = s.agenda := rfl

@[simp] theorem State.present_draws (s : State) (r : Request) :
    (s.present r).draws = s.draws := rfl

/-! `hold` -/

@[simp] theorem State.hold_params (s : State) (i : Instr) :
    (s.hold i).params = s.params := by
  unfold State.hold; split <;> rfl

@[simp] theorem State.hold_op (s : State) (i : Instr) :
    (s.hold i).op = s.op := by
  unfold State.hold; split <;> rfl

@[simp] theorem State.hold_cfg (s : State) (i : Instr) :
    (s.hold i).cfg = s.cfg := by
  unfold State.hold; split <;> rfl

@[simp] theorem State.hold_bundle (s : State) (i : Instr) :
    (s.hold i).bundle = s.bundle := by
  unfold State.hold; split <;> rfl

@[simp] theorem State.hold_xfer (s : State) (i : Instr) :
    (s.hold i).xfer = s.xfer := by
  unfold State.hold; split <;> rfl

@[simp] theorem State.hold_signal (s : State) (i : Instr) :
    (s.hold i).signal = s.signal := by
  unfold State.hold; split <;> rfl

@[simp] theorem State.hold_phyState (s : State) (i : Instr) :
    (s.hold i).phyState = s.phyState := by
  unfold State.hold; split <;> rfl

@[simp] theorem State.hold_phyDegraded (s : State) (i : Instr) :
    (s.hold i).phyDegraded = s.phyDegraded := by
  unfold State.hold; split <;> rfl

@[simp] theorem State.hold_clsState (s : State) (i : Instr) :
    (s.hold i).clsState = s.clsState := by
  unfold State.hold; split <;> rfl

@[simp] theorem State.hold_clsWord (s : State) (i : Instr) :
    (s.hold i).clsWord = s.clsWord := by
  unfold State.hold; split <;> rfl

@[simp] theorem State.hold_diag (s : State) (i : Instr) :
    (s.hold i).diag = s.diag := by
  unfold State.hold; split <;> rfl

@[simp] theorem State.hold_ctl (s : State) (i : Instr) :
    (s.hold i).ctl = s.ctl := by
  unfold State.hold; split <;> rfl

@[simp] theorem State.hold_phyRateHz (s : State) (i : Instr) :
    (s.hold i).phyRateHz = s.phyRateHz := by
  unfold State.hold; split <;> rfl

@[simp] theorem State.hold_sharedLine (s : State) (i : Instr) :
    (s.hold i).sharedLine = s.sharedLine := by
  unfold State.hold; split <;> rfl

@[simp] theorem State.hold_deadline (s : State) (i : Instr) :
    (s.hold i).deadline = s.deadline := by
  unfold State.hold; split <;> rfl

@[simp] theorem State.hold_results (s : State) (i : Instr) :
    (s.hold i).results = s.results := by
  unfold State.hold; split <;> rfl

@[simp] theorem State.hold_trace (s : State) (i : Instr) :
    (s.hold i).trace = s.trace := by
  unfold State.hold; split <;> rfl

@[simp] theorem State.hold_events (s : State) (i : Instr) :
    (s.hold i).events = s.events := by
  unfold State.hold; split <;> rfl

@[simp] theorem State.hold_agenda (s : State) (i : Instr) :
    (s.hold i).agenda = s.agenda := by
  unfold State.hold; split <;> rfl

@[simp] theorem State.hold_draws (s : State) (i : Instr) :
    (s.hold i).draws = s.draws := by
  unfold State.hold; split <;> rfl

/-- An occupied port keeps the request it carries (R380). -/
theorem State.present_port {s : State} {r : Request} (h : s.port = some r) (r' : Request) : s.present r' = s := by
  simp [State.present, h]; rw [← h]

/-- What is on the port stays there while another request is presented (R380). -/
theorem State.hold_port {s : State} {r : Request} (h : s.port = some r) (i : Instr) : (s.hold i).port = some r := by
  unfold State.hold
  split
  · rw [State.present_port h, h]
  · exact h

/-- The offset of a register depends on the parameters alone. -/
theorem State.off_eq (s : State) (r : RegName) : s.off r = s.params.regMap.offsetOf r := rfl

/-! Registers of the controller -/

/-- Writing the register read gives the word written. -/
theorem Controller.reg_setReg_self (c : Controller) (r : RegName) (v : Word)
    (h : classOf r = .rw ∨ classOf r = .w1c) : (c.setReg r v).reg r = v := by
  cases r <;> simp_all [classOf, Controller.setReg, Controller.reg]

/-- Writing one register leaves every other one alone. -/
theorem Controller.reg_setReg_other (c : Controller) {r r' : RegName} (v : Word) (h : r' ≠ r) :
    (c.setReg r v).reg r' = c.reg r' := by
  cases r <;> cases r' <;> first | rfl | exact absurd rfl h

/-- Writing a register leaves the queues and the hidden state alone. -/
theorem Controller.setReg_rest (c : Controller) (r : RegName) (v : Word) :
    (c.setReg r v).cmdQ = c.cmdQ ∧ (c.setReg r v).pixQ = c.pixQ ∧ (c.setReg r v).rxQ = c.rxQ ∧
      (c.setReg r v).txActive = c.txActive ∧ (c.setReg r v).txHdr = c.txHdr ∧ (c.setReg r v).txCtl = c.txCtl ∧
      (c.setReg r v).txStepped = c.txStepped ∧ (c.setReg r v).ctrlClears = c.ctrlClears := by
  cases r <;> exact ⟨rfl, rfl, rfl, rfl, rfl, rfl, rfl, rfl⟩

end Sys2Proof.Machine
end

