-- ==== Sys2Proof/Laws/Ops.lean ====
section
/-! SUPPORT. What each shared operation can do, said once: reads and writes of the register port, their effect by
register, and the laws of draws, queues and the register map. -/

namespace Sys2Proof.Machine

open Sys2Proof

/-! ### Reads -/

/-- `s'` is `s` but for the controller's response queue, the bus trace and the draw counter: all a read can change. -/
structure SameButRead (s s' : State) : Prop where
  eq : s' = { s with ctl := { s.ctl with rxQ := s'.ctl.rxQ }, trace := s'.trace, draws := s'.draws }

/-- A draw replaces bits of the value and moves only the draw counter. -/
theorem drawBits_snd (mask w : Word) (s : State) :
    (drawBits mask w s).2 = { s with draws := (drawBits mask w s).2.draws } := by
  unfold drawBits; split <;> rfl

/-- A read value comes with a state that differs in the response queue and the draw counter alone. -/
theorem readValue_snd (r : RegName) (s : State) :
    (readValue r s).2 =
      { s with ctl := { s.ctl with rxQ := (readValue r s).2.ctl.rxQ }, draws := (readValue r s).2.draws } := by
  cases r <;> simp only [readValue, classOf, popRx, drawBits] <;> first | rfl | (split <;> rfl)

/-- A read leaves the response queue no longer than it was. -/
theorem readValue_rxQ_suffix (r : RegName) (s : State) : (readValue r s).2.ctl.rxQ <:+ s.ctl.rxQ := by
  cases r <;> simp only [readValue, classOf, popRx, drawBits] <;>
    first
    | exact List.suffix_rfl
    | (split <;> simp_all)

/-- What a successful read is: the value of `readValue`, one transaction more. -/
theorem readReg_ok {r : RegName} {s s' : State} {v : Word} (h : readReg r s = .ok (v, s')) :
    v = (readValue r s).1 ∧ s' = (readValue r s).2.logged 0 r v := by
  unfold readReg at h
  split at h
  · cases h
  · cases h; exact ⟨rfl, rfl⟩

/-- What a read changes. -/
theorem readReg_same {r : RegName} {s s' : State} {v : Word} (h : readReg r s = .ok (v, s')) : SameButRead s s' := by
  obtain ⟨-, rfl⟩ := readReg_ok h
  constructor
  conv_lhs => rw [State.logged]
  rw [readValue_snd]
  rfl

/-- A read appends one transaction to the trace. -/
theorem readReg_trace {r : RegName} {s s' : State} {v : Word} (h : readReg r s = .ok (v, s')) :
    s'.trace = s.trace ++ [⟨0, s.off r, v⟩] := by
  obtain ⟨-, rfl⟩ := readReg_ok h
  rw [State.logged_trace]
  rw [readValue_snd]
  rfl

/-- Only a push port faults on a read. -/
theorem readReg_total {r : RegName} (s : State) (h : ∀ q, classOf r ≠ .push q) :
    readReg r s = .ok ((readValue r s).1, (readValue r s).2.logged 0 r (readValue r s).1) := by
  unfold readReg
  split
  · exact absurd ‹_› (h _)
  · rfl

/-! A read of a register that is neither a port nor a drawn one returns the register (R182 to R184). -/

@[simp] theorem readReg_txpkt1h (s : State) :
    readReg .txpkt1h s = .ok (s.ctl.txpkt1h, s.logged 0 .txpkt1h s.ctl.txpkt1h) := rfl

@[simp] theorem readReg_rxpkt1h (s : State) :
    readReg .rxpkt1h s = .ok (s.ctl.rxpkt1h, s.logged 0 .rxpkt1h s.ctl.rxpkt1h) := rfl

@[simp] theorem readReg_intStat (s : State) :
    readReg .intStat s = .ok (s.ctl.intStat, s.logged 0 .intStat s.ctl.intStat) := rfl

@[simp] theorem readReg_intEn (s : State) :
    readReg .intEn s = .ok (s.ctl.intEn, s.logged 0 .intEn s.ctl.intEn) := rfl

@[simp] theorem readReg_stat (s : State) :
    readReg .stat s = .ok (s.ctl.stat, s.logged 0 .stat s.ctl.stat) := rfl

@[simp] theorem readReg_phyc (s : State) :
    readReg .phyc s = .ok (s.ctl.phyc, s.logged 0 .phyc s.ctl.phyc) := rfl

@[simp] theorem readReg_phyAfec0 (s : State) :
    readReg .phyAfec0 s = .ok (s.ctl.phyAfec0, s.logged 0 .phyAfec0 s.ctl.phyAfec0) := rfl

/-! ### Writes -/

/-- What a successful write is: its effect, one transaction more. -/
theorem writeReg_ok {r : RegName} {v : Word} {s s' : State} (h : writeReg r v s = .ok s') :
    ∃ t, writeEffect r v s = .ok t ∧ s' = t.logged 1 r v := by
  unfold writeReg at h
  split at h
  · cases h; exact ⟨_, ‹_›, rfl⟩
  · cases h

/-- A write's effect changes nothing but the controller. -/
theorem writeEffect_ctl {r : RegName} {v : Word} {s t : State} (h : writeEffect r v s = .ok t) :
    t = { s with ctl := t.ctl } := by
  cases r <;> simp only [writeEffect, classOf, pushTx, writeTxpkt1c, writeCtrl] at h <;>
    (try split at h) <;> cases h <;> rfl

/-- What a write changes: the controller and the trace. -/
theorem writeReg_same {r : RegName} {v : Word} {s s' : State} (h : writeReg r v s = .ok s') :
    s' = { s with ctl := s'.ctl, trace := s.trace ++ [⟨1, s.off r, v⟩] } := by
  obtain ⟨t, ht, rfl⟩ := writeReg_ok h
  rw [writeEffect_ctl ht]
  rfl

/-- A write of a plain register (R182). -/
theorem writeReg_rw {r : RegName} (v : Word) (s : State) (h : classOf r = .rw) :
    writeReg r v s = .ok ({ s with ctl := s.ctl.setReg r v }.logged 1 r v) := by
  simp [writeReg, writeEffect, h]

/-- A write of a write-one-to-clear register (R184). -/
theorem writeReg_w1c {r : RegName} (v : Word) (s : State) (h : classOf r = .w1c) :
    writeReg r v s = .ok ({ s with ctl := s.ctl.setReg r (s.ctl.reg r &&& ~~~v) }.logged 1 r v) := by
  simp [writeReg, writeEffect, h]

@[simp] theorem writeReg_txpkt1h (v : Word) (s : State) :
    writeReg .txpkt1h v s = .ok ({ s with ctl := { s.ctl with txpkt1h := v } }.logged 1 .txpkt1h v) := rfl

@[simp] theorem writeReg_intEn (v : Word) (s : State) :
    writeReg .intEn v s = .ok ({ s with ctl := { s.ctl with intEn := v } }.logged 1 .intEn v) := rfl

@[simp] theorem writeReg_phyc (v : Word) (s : State) :
    writeReg .phyc v s = .ok ({ s with ctl := { s.ctl with phyc := v } }.logged 1 .phyc v) := rfl

@[simp] theorem writeReg_phyAfec0 (v : Word) (s : State) :
    writeReg .phyAfec0 v s = .ok ({ s with ctl := { s.ctl with phyAfec0 := v } }.logged 1 .phyAfec0 v) := rfl

@[simp] theorem writeReg_hsClt0 (v : Word) (s : State) :
    writeReg .hsClt0 v s = .ok ({ s with ctl := { s.ctl with hsClt0 := v } }.logged 1 .hsClt0 v) := rfl

@[simp] theorem writeReg_hsClt1 (v : Word) (s : State) :
    writeReg .hsClt1 v s = .ok ({ s with ctl := { s.ctl with hsClt1 := v } }.logged 1 .hsClt1 v) := rfl

@[simp] theorem writeReg_hsClt2 (v : Word) (s : State) :
    writeReg .hsClt2 v s = .ok ({ s with ctl := { s.ctl with hsClt2 := v } }.logged 1 .hsClt2 v) := rfl

@[simp] theorem writeReg_hsDlt3 (v : Word) (s : State) :
    writeReg .hsDlt3 v s = .ok ({ s with ctl := { s.ctl with hsDlt3 := v } }.logged 1 .hsDlt3 v) := rfl

@[simp] theorem writeReg_hsDlt4 (v : Word) (s : State) :
    writeReg .hsDlt4 v s = .ok ({ s with ctl := { s.ctl with hsDlt4 := v } }.logged 1 .hsDlt4 v) := rfl

@[simp] theorem writeReg_hsDlt5 (v : Word) (s : State) :
    writeReg .hsDlt5 v s = .ok ({ s with ctl := { s.ctl with hsDlt5 := v } }.logged 1 .hsDlt5 v) := rfl

@[simp] theorem writeReg_hsDlt6 (v : Word) (s : State) :
    writeReg .hsDlt6 v s = .ok ({ s with ctl := { s.ctl with hsDlt6 := v } }.logged 1 .hsDlt6 v) := rfl

@[simp] theorem writeReg_hsDlt7 (v : Word) (s : State) :
    writeReg .hsDlt7 v s = .ok ({ s with ctl := { s.ctl with hsDlt7 := v } }.logged 1 .hsDlt7 v) := rfl

@[simp] theorem writeReg_intStat (v : Word) (s : State) :
    writeReg .intStat v s =
      .ok ({ s with ctl := { s.ctl with intStat := s.ctl.intStat &&& ~~~v } }.logged 1 .intStat v) := rfl

@[simp] theorem writeReg_stat (v : Word) (s : State) :
    writeReg .stat v s = .ok ({ s with ctl := { s.ctl with stat := s.ctl.stat &&& ~~~v } }.logged 1 .stat v) := rfl

@[simp] theorem writeReg_txpkt1c (v : Word) (s : State) :
    writeReg .txpkt1c v s = .ok ((writeTxpkt1c v s).logged 1 .txpkt1c v) := rfl

@[simp] theorem writeReg_ctrl (v : Word) (s : State) :
    writeReg .ctrl v s = .ok ((writeCtrl v s).logged 1 .ctrl v) := rfl

/-- A push with room (R187). -/
theorem writeReg_cmdFifo (v : Word) (s : State) (h : s.ctl.cmdQ.length < s.params.cmdFifoDepth) :
    writeReg .cmdFifo v s =
      .ok ({ s with ctl := { s.ctl with cmdQ := s.ctl.cmdQ ++ [lowByte v] } }.logged 1 .cmdFifo v) := by
  simp [writeReg, writeEffect, classOf, pushTx, Nat.not_le.mpr h]

/-- A push with room (R188). -/
theorem writeReg_pixFifo (v : Word) (s : State) (h : s.ctl.pixQ.length < s.params.pixFifoDepth) :
    writeReg .pixFifo v s =
      .ok ({ s with ctl := { s.ctl with pixQ := s.ctl.pixQ ++ [v] } }.logged 1 .pixFifo v) := by
  simp [writeReg, writeEffect, classOf, pushTx, Nat.not_le.mpr h]

/-- A push onto a full command FIFO (R187). -/
theorem writeReg_cmdFifo_full (v : Word) (s : State) (h : s.params.cmdFifoDepth ≤ s.ctl.cmdQ.length) :
    writeReg .cmdFifo v s = .error (.fifoOverflow .cmd) := by
  simp [writeReg, writeEffect, classOf, pushTx, h]

/-- A push onto a full pixel FIFO (R188). -/
theorem writeReg_pixFifo_full (v : Word) (s : State) (h : s.params.pixFifoDepth ≤ s.ctl.pixQ.length) :
    writeReg .pixFifo v s = .error (.fifoOverflow .pix) := by
  simp [writeReg, writeEffect, classOf, pushTx, h]

/-! ### Steps with one access -/

/-- A step that reads and answers a next state: the read succeeded, and the step went on with its value. -/
theorem withRead_next {r : RegName} {s t : State} {k : Word → State → Out} (h : withRead r s k = .next t) :
    ∃ v s', readReg r s = .ok (v, s') ∧ k v s' = .next t := by
  unfold withRead at h
  split at h
  · exact ⟨_, _, ‹_›, h⟩
  · cases h

/-- A step that writes and answers a next state: the write succeeded, and the step went on. -/
theorem withWrite_next {r : RegName} {v : Word} {s t : State} {k : State → Out} (h : withWrite r v s k = .next t) :
    ∃ s', writeReg r v s = .ok s' ∧ k s' = .next t := by
  unfold withWrite at h
  split at h
  · exact ⟨_, ‹_›, h⟩
  · cases h

/-- A read that succeeds inside a step. -/
theorem withRead_ok {r : RegName} {s s' : State} {v : Word} {k : Word → State → Out}
    (h : readReg r s = .ok (v, s')) : withRead r s k = k v s' := by
  simp [withRead, h]

/-- A write that succeeds inside a step. -/
theorem withWrite_ok {r : RegName} {v : Word} {s s' : State} {k : State → Out}
    (h : writeReg r v s = .ok s') : withWrite r v s k = k s' := by
  simp [withWrite, h]

/-! ### The transmit control word -/

/-- Starting a transmission (R185). -/
theorem writeTxpkt1c_start {v : Word} {s : State} (h : bitOf v s.params.regMap.txpkt1c.cmdEn = true) :
    writeTxpkt1c v s =
      { s with ctl := { s.ctl with txpkt1c := v, txStepped := false, txActive := true, txHdr := s.ctl.txpkt1h,
                                   txCtl := v } } := by
  simp [writeTxpkt1c, h]

/-- Stopping one (R185). -/
theorem writeTxpkt1c_stop {v : Word} {s : State} (h : bitOf v s.params.regMap.txpkt1c.cmdEn = false) :
    writeTxpkt1c v s = { s with ctl := { s.ctl with txpkt1c := v, txStepped := false, txActive := false } } := by
  simp [writeTxpkt1c, h]

/-! ### The register map -/

/-- A register an offset names has that offset. -/
theorem nameAt_offset {m : RegMap} {off : Nat} {r : RegName} (h : m.nameAt off = some r) : m.offsetOf r = off := by
  have := List.find?_some h
  simpa using this

/-- In a valid map the offset of a register names it. -/
theorem nameAt_offsetOf {m : RegMap} (h : m.offsetsValid = true) (r : RegName) :
    m.nameAt (m.offsetOf r) = some r := by
  have hall := List.all_eq_true.mp h r (by cases r <;> decide)
  exact (by simpa using hall : m.offsetOf r % 4 = 0 ∧ m.nameAt (m.offsetOf r) = some r).2

/-- In a valid map every offset is a multiple of 4. -/
theorem offsetOf_aligned {m : RegMap} (h : m.offsetsValid = true) (r : RegName) : m.offsetOf r % 4 = 0 := by
  have hall := List.all_eq_true.mp h r (by cases r <;> decide)
  exact (by simpa using hall : m.offsetOf r % 4 = 0 ∧ m.nameAt (m.offsetOf r) = some r).1

/-- The default map is valid. -/
theorem dsi1_offsetsValid : RegMap.dsi1.offsetsValid = true := by decide

end Sys2Proof.Machine
end

