-- ==== Sys2Proof/Laws/PerInstr.lean ====
section
/-! SUPPORT. One lemma per instruction about its image: a request word has its reserved field 0 and a legal operation, a
read transaction carries no data, and an mmio image has the offset of a register of the map (R130, R139, R144). -/

namespace Sys2Proof.Laws.Image

open Sys2Proof

/-- The image of an instruction is legal, under every map. -/
def Statement (i : Instr) : Prop :=
  ∀ m : RegMap,
    match Sys2Proof.encode m i with
    | .request r => rsvField r.word = 0 ∧ 1 ≤ (opField r.word).toNat ∧ (opField r.word).toNat ≤ 8
    | .event => True
    | .bus t => t.dir = 0 → t.data = 0
    | .mmio t => (t.dir = 0 → t.data = 0) ∧ ∃ r, t.off = m.offsetOf r

/-- A transaction that reads carries no data. -/
theorem busAccess_data (off : Nat) (a : Access) : (busAccess off a).dir = 0 → (busAccess off a).data = 0 := by
  cases a <;> simp [busAccess]

/-- A transaction is at its offset. -/
theorem busAccess_off (off : Nat) (a : Access) : (busAccess off a).off = off := by cases a <;> rfl

theorem configure (c : ConfigRecord) : Statement (.configure c) :=
  fun _ => ⟨(by decide : rsvField 0x1 = 0), (by decide : 1 ≤ (opField 0x1).toNat), (by decide : (opField 0x1).toNat ≤ 8)⟩

theorem timingCompute (hz : Nat) : Statement (.timingCompute hz) :=
  fun _ => ⟨(by decide : rsvField 0x2 = 0), (by decide : 1 ≤ (opField 0x2).toNat), (by decide : (opField 0x2).toNat ≤ 8)⟩

theorem programTiming : Statement (.programTiming) := fun _ => ⟨by decide, by decide, by decide⟩

theorem encode (k : Packet) : Statement (.encode k) :=
  fun _ => ⟨(by decide : rsvField 0x4 = 0), (by decide : 1 ≤ (opField 0x4).toNat), (by decide : (opField 0x4).toNat ≤ 8)⟩

theorem ulpsEnter : Statement (.ulpsEnter) := fun _ => ⟨by decide, by decide, by decide⟩

theorem ulpsExit : Statement (.ulpsExit) := fun _ => ⟨by decide, by decide, by decide⟩

theorem transfer (k : Packet) : Statement (.transfer k) :=
  fun _ => ⟨(by decide : rsvField 0x7 = 0), (by decide : 1 ≤ (opField 0x7).toNat), (by decide : (opField 0x7).toNat ≤ 8)⟩

theorem phyState : Statement (.phyState) := fun _ => ⟨by decide, by decide, by decide⟩

theorem irqClassify : Statement .irqClassify := fun _ => trivial

theorem read32 (off : Nat) : Statement (.read32 off) := fun _ => busAccess_data off .read

theorem write32 (off : Nat) (v : Word) : Statement (.write32 off v) := fun _ => busAccess_data off (.write v)

theorem mmioCtrl (a : Access) : Statement (.mmioCtrl a) := fun _ => ⟨busAccess_data _ a, .ctrl, busAccess_off _ a⟩

theorem mmioTxpkt1c (a : Access) : Statement (.mmioTxpkt1c a) := fun _ => ⟨busAccess_data _ a, .txpkt1c, busAccess_off _ a⟩

theorem mmioTxpkt1h (a : Access) : Statement (.mmioTxpkt1h a) := fun _ => ⟨busAccess_data _ a, .txpkt1h, busAccess_off _ a⟩

theorem mmioRxpkt1h (a : Access) : Statement (.mmioRxpkt1h a) := fun _ => ⟨busAccess_data _ a, .rxpkt1h, busAccess_off _ a⟩

theorem mmioTxpktCmdFifo (a : Access) : Statement (.mmioTxpktCmdFifo a) := fun _ => ⟨busAccess_data _ a, .cmdFifo, busAccess_off _ a⟩

theorem mmioTxpktPixFifo (a : Access) : Statement (.mmioTxpktPixFifo a) := fun _ => ⟨busAccess_data _ a, .pixFifo, busAccess_off _ a⟩

theorem mmioRxpktFifo (a : Access) : Statement (.mmioRxpktFifo a) := fun _ => ⟨busAccess_data _ a, .rxFifo, busAccess_off _ a⟩

theorem mmioIntStat (a : Access) : Statement (.mmioIntStat a) := fun _ => ⟨busAccess_data _ a, .intStat, busAccess_off _ a⟩

theorem mmioIntEn (a : Access) : Statement (.mmioIntEn a) := fun _ => ⟨busAccess_data _ a, .intEn, busAccess_off _ a⟩

theorem mmioStat (a : Access) : Statement (.mmioStat a) := fun _ => ⟨busAccess_data _ a, .stat, busAccess_off _ a⟩

theorem mmioPhyc (a : Access) : Statement (.mmioPhyc a) := fun _ => ⟨busAccess_data _ a, .phyc, busAccess_off _ a⟩

theorem mmioHsClt0 (a : Access) : Statement (.mmioHsClt0 a) := fun _ => ⟨busAccess_data _ a, .hsClt0, busAccess_off _ a⟩

theorem mmioHsClt1 (a : Access) : Statement (.mmioHsClt1 a) := fun _ => ⟨busAccess_data _ a, .hsClt1, busAccess_off _ a⟩

theorem mmioHsClt2 (a : Access) : Statement (.mmioHsClt2 a) := fun _ => ⟨busAccess_data _ a, .hsClt2, busAccess_off _ a⟩

theorem mmioHsDlt3 (a : Access) : Statement (.mmioHsDlt3 a) := fun _ => ⟨busAccess_data _ a, .hsDlt3, busAccess_off _ a⟩

theorem mmioHsDlt4 (a : Access) : Statement (.mmioHsDlt4 a) := fun _ => ⟨busAccess_data _ a, .hsDlt4, busAccess_off _ a⟩

theorem mmioHsDlt5 (a : Access) : Statement (.mmioHsDlt5 a) := fun _ => ⟨busAccess_data _ a, .hsDlt5, busAccess_off _ a⟩

theorem mmioHsDlt6 (a : Access) : Statement (.mmioHsDlt6 a) := fun _ => ⟨busAccess_data _ a, .hsDlt6, busAccess_off _ a⟩

theorem mmioHsDlt7 (a : Access) : Statement (.mmioHsDlt7 a) := fun _ => ⟨busAccess_data _ a, .hsDlt7, busAccess_off _ a⟩

theorem mmioPhyAfec0 (a : Access) : Statement (.mmioPhyAfec0 a) := fun _ => ⟨busAccess_data _ a, .phyAfec0, busAccess_off _ a⟩

end Sys2Proof.Laws.Image
end

