-- ==== Sys2Proof/Laws/Step.lean ====
section
/-! SUPPORT. What a step can do, said once: at most one register access, by the agent the schedule names; and the small
laws of runs, drawn reads and the held request. -/

namespace Sys2Proof.Machine

open Sys2Proof

/-! ### What a step does on the register port -/

/-- `t` is `s`, or `s` after one read or one write of a named register. -/
def OneAccess (s t : State) : Prop :=
  t = s ∨ (∃ r v, readReg r s = .ok (v, t)) ∨ ∃ r v, writeReg r v s = .ok t

/-- `t` agrees with `s` on the controller, the trace, the parameters, the draws and the inputs. -/
structure SamePort (s t : State) : Prop where
  ctl : t.ctl = s.ctl
  trace : t.trace = s.trace
  params : t.params = s.params
  draws : t.draws = s.draws
  phyRateHz : t.phyRateHz = s.phyRateHz
  sharedLine : t.sharedLine = s.sharedLine
  deadline : t.deadline = s.deadline
  agenda : t.agenda = s.agenda

/-- `s'` comes from `s` by at most one access, and by changes of the core's own registers and outputs. -/
def Accesses (s s' : State) : Prop := ∃ t, OneAccess s t ∧ SamePort t s'

/-- A step with no access. -/
theorem Accesses.none {s s' : State} (h : SamePort s s') : Accesses s s' := ⟨s, .inl rfl, h⟩

/-- A step with one read. -/
theorem Accesses.read {s t s' : State} {r v} (h : readReg r s = .ok (v, t)) (h' : SamePort t s') :
    Accesses s s' := ⟨t, .inr (.inl ⟨_, _, h⟩), h'⟩

/-- A step with one write. -/
theorem Accesses.write {s t s' : State} {r v} (h : writeReg r v s = .ok t) (h' : SamePort t s') :
    Accesses s s' := ⟨t, .inr (.inr ⟨_, _, h⟩), h'⟩

/-- A state agrees with itself. -/
theorem SamePort.refl (s : State) : SamePort s s := ⟨rfl, rfl, rfl, rfl, rfl, rfl, rfl, rfl⟩

/-- Holding a request touches no register. -/
theorem State.hold_same (s : State) (i : Instr) : SamePort s (s.hold i) := by
  unfold State.hold; split <;> constructor <;> rfl

/-- A signal touches no register. -/
theorem raiseSignal_same (s : State) (r) : SamePort s (s.raiseSignal r) := by
  unfold State.raiseSignal; split <;> constructor <;> rfl

/-- A one-step operation accesses what its run accesses. -/
theorem whenIdle_accesses {i : Instr} {s s' : State} {run : State → Out} (h : whenIdle i s run = .next s')
    (hr : run s = .next s' → Accesses s s') : Accesses s s' := by
  unfold whenIdle at h
  split at h
  · exact hr h
  · cases h; exact .none (State.hold_same _ _)

/-- A step that reads once. -/
theorem withRead_accesses {r : RegName} {s s' : State} {k : Word → State → Out} (h : withRead r s k = .next s')
    (hk : ∀ v t, k v t = .next s' → SamePort t s') : Accesses s s' := by
  obtain ⟨v, t, hr, h⟩ := withRead_next h
  exact .read hr (hk _ _ h)

/-- A step that writes once. -/
theorem withWrite_accesses {r : RegName} {v} {s s' : State} {k : State → Out} (h : withWrite r v s k = .next s')
    (hk : ∀ t, k t = .next s' → SamePort t s') : Accesses s s' := by
  obtain ⟨t, hr, h⟩ := withWrite_next h
  exact .write hr (hk _ h)

/-- The next state of an outcome that is one. -/
theorem next_same {t u s' : State} (h : (Host.Outcome.next u : Out) = .next s') (hs : SamePort t u) :
    SamePort t s' := by
  cases h; exact hs

/-- A register row makes one access. -/
theorem accessReg_accesses {r : RegName} {a : Access} {s s' : State} (h : accessReg r a s = .next s') :
    Accesses s s' := by
  cases a with
  | read => exact withRead_accesses h fun v t h => next_same h (.refl _)
  | write v => exact withWrite_accesses h fun t h => next_same h (.refl _)

/-- READ32 makes one access. -/
theorem execRead32_accesses {off s s'} (h : execRead32 off s = .next s') : Accesses s s' := by
  unfold execRead32 readOffset at h
  split at h
  · rename_i s1 h1
    split at h1
    · cases h1
    split at h1
    · cases h; exact .read h1 (.refl _)
    · cases h1
  · cases h
/-- WRITE32 makes one access. -/
theorem execWrite32_accesses {off v s s'} (h : execWrite32 off v s = .next s') : Accesses s s' := by
  unfold execWrite32 writeOffset at h
  split at h
  · rename_i s1 h1
    split at h1
    · cases h1
    split at h1
    · cases h; exact .write h1 (.refl _)
    · cases h1
  · cases h

/-- A read of PHYC after an event. -/
theorem emit_phyc_read {e s s'} {k : Word → State → Out} (h : withRead .phyc (State.emit s e) k = .next s')
    (hk : ∀ v t, k v t = .next s' → SamePort t s') : Accesses s s' := by
  rw [withRead_ok (readReg_phyc _)] at h
  have := hk _ _ h
  refine .read (readReg_phyc _) ?_
  exact ⟨this.ctl, this.trace, this.params, this.draws, this.phyRateHz, this.sharedLine, this.deadline,
      this.agenda⟩

/-- P1 to P9 make one access each. -/
theorem programTimingStep_accesses {l b s s'} (h : programTimingStep l b s = .next s') : Accesses s s' := by
  cases l <;> simp only [programTimingStep] at h <;>
    exact withWrite_accesses h fun t h => next_same h (by constructor <;> rfl)

/-- A poll step makes at most one access. -/
theorem pollStep_accesses {t m a b c v s s'} (h : pollStep t m a b c v s = .next s') : Accesses s s' := by
  unfold pollStep at h
  split at h
  · cases h; exact .none (by constructor <;> rfl)
  · refine withRead_accesses h fun v t h => ?_
    split at h <;> exact next_same h (by constructor <;> rfl)

/-- S0 makes at most one access. -/
theorem ulpsStart_accesses {t s s'} (h : ulpsStart t s = .next s') : Accesses s s' := by
  unfold ulpsStart at h
  split at h
  · cases h; exact .none (by constructor <;> rfl)
  · refine withRead_accesses h fun v t h => ?_
    simp only at h; split at h <;> exact next_same h (by constructor <;> rfl)

/-- S1 to S11 and the timeout paths make at most one access each. -/
theorem ulpsStep_accesses {t l v s s'} (h : ulpsStep t l v s = .next s') : Accesses s s' := by
  cases l <;> simp only [ulpsStep] at h <;>
  first
  | exact pollStep_accesses h
  | exact emit_phyc_read h fun v t h => next_same h (by constructor <;> rfl)
  | exact withWrite_accesses h fun t h => next_same h (by constructor <;> rfl)
  | exact withRead_accesses h fun v t h => next_same h (by constructor <;> rfl)
  | exact .none (next_same h (by constructor <;> rfl))

/-- A sequencer step makes at most one access. -/
theorem ulpsSeq_accesses {i t s s'} (h : ulpsSeq i t s = .next s') : Accesses s s' := by
  unfold ulpsSeq at h
  split at h
  · exact ulpsStart_accesses h
  · split at h
    · exact ulpsStep_accesses h
    · exact .none (next_same h (State.hold_same _ _))
  · exact .none (next_same h (State.hold_same _ _))

/-- T1 to T21 make at most one access each. -/
theorem transferStep_accesses {k l v s s'} (h : transferStep k l v s = .next s') : Accesses s s' := by
  cases l <;> simp only [transferStep, transferT1, transferT2, transferT3, transferT8, transferT9, transferT10,
    transferT17, transferT18, transferT21] at h <;>
  (repeat' split at h) <;>
  first
  | exact withWrite_accesses h fun t h => next_same h (by constructor <;> rfl)
  | exact withRead_accesses h fun v t h => next_same h (by constructor <;> rfl)
  | exact .none (next_same h (by constructor <;> rfl))
  | (refine withRead_accesses h fun v t h => ?_
     (repeat' split at h) <;> exact next_same h (by constructor <;> rfl))

/-- Classification touches no register. -/
theorem classify_same (w s) : SamePort s (classify w s) := by
  unfold classify wake reportErrors
  simp only
  (repeat' split) <;> first | (constructor <;> rfl) |
    (unfold State.raiseSignal; split <;> constructor <;> rfl)

/-- A classifier step makes at most one access. -/
theorem classifierStep_accesses {s s'} (h : classifierStep s = .next s') : Accesses s s' := by
  unfold classifierStep at h
  split at h
  · split at h <;> exact .none (next_same h (by constructor <;> rfl))
  · exact withRead_accesses h fun v t h => next_same h (by constructor <;> rfl)
  · exact withWrite_accesses h fun t h => next_same h (by constructor <;> rfl)
  · cases h
    have := classify_same s.clsWord s
    exact .none ⟨this.ctl, this.trace, this.params, this.draws, this.phyRateHz, this.sharedLine, this.deadline,
      this.agenda⟩

/-- Every instruction's step makes at most one access (R5, R103). -/
theorem exec_accesses {i s s'} (h : exec i s = .next s') : Accesses s s' := by
  cases i
  case configure =>
    refine whenIdle_accesses h fun h => ?_
    unfold configureRun at h
    (repeat' split at h) <;> first | cases h; done | exact .none (next_same h (by constructor <;> rfl))
  case timingCompute =>
    refine whenIdle_accesses h fun h => ?_
    unfold timingComputeRun at h
    (repeat' split at h) <;> first | cases h; done | exact .none (next_same h (by constructor <;> rfl))
  case programTiming =>
    simp only [exec, execProgramTiming, programTimingStart] at h
    split at h
    · (repeat' split at h) <;> first | cases h; done | exact .none (next_same h (by constructor <;> rfl))
    · exact programTimingStep_accesses h
    · exact .none (next_same h (State.hold_same _ _))
  case encode =>
    refine whenIdle_accesses h fun h => ?_
    unfold encodeRun at h
    (repeat' split at h) <;> first | cases h; done | exact .none (next_same h (by constructor <;> rfl))
  case ulpsEnter => exact ulpsSeq_accesses h
  case ulpsExit => exact ulpsSeq_accesses h
  case transfer =>
    simp only [exec, execTransfer, transferStart] at h
    split at h
    · split at h <;> exact .none (next_same h (by constructor <;> rfl))
    · split at h
      · exact transferStep_accesses h
      · exact .none (next_same h (State.hold_same _ _))
    · exact .none (next_same h (State.hold_same _ _))
  case phyState =>
    refine whenIdle_accesses h fun h => ?_
    exact withRead_accesses h fun v t h => next_same h (by constructor <;> rfl)
  case irqClassify => exact classifierStep_accesses h
  case read32 => exact execRead32_accesses h
  case write32 => exact execWrite32_accesses h
  all_goals exact accessReg_accesses h

/-! ### What a step of the machine is -/

/-- The ways a step leads from `s` to `s'`, one for each agent. -/
inductive Stepped (s s' : State) : Prop
  | goesOn (d : Bool) (i : Instr) (hc : chosen s = .engine d) (hi : s.op.instr = some i)
      (h : exec i { s with agenda := s.agenda.tail, deadline := d } = .next s')
  | accepts (d : Bool) (r : Request) (i : Instr) (hc : chosen s = .engine d) (ho : s.op = .idle)
      (hr : s.port = some r) (hd : decodeRequest r = .ok i)
      (h : exec i { s with agenda := s.agenda.tail, deadline := d, port := none } = .next s')
  | waits (d : Bool) (hc : chosen s = .engine d) (ho : s.op = .idle) (hr : s.port = none)
      (h : s' = { s with agenda := s.agenda.tail, deadline := d })
  | classifies (hc : chosen s = .classifier) (h : exec .irqClassify { s with agenda := s.agenda.tail } = .next s')
  | env (e : EnvStep) (hc : chosen s = .env e) (h : s' = envStep e { s with agenda := s.agenda.tail })
  | presents (r : Request) (hc : chosen s = .present r)
      (h : s' = { s with agenda := s.agenda.tail }.present r)
  | bus (t : BusAccess) (i : Instr) (hc : chosen s = .bus t) (hd : decode s.params.regMap (.bus t) = .ok i)
      (h : exec i { s with agenda := s.agenda.tail } = .next s')
  | mmio (t : BusAccess) (i : Instr) (hc : chosen s = .mmio t) (hd : decode s.params.regMap (.mmio t) = .ok i)
      (h : exec i { s with agenda := s.agenda.tail } = .next s')
  | resets (hc : chosen s = .reset) (h : s' = { s with agenda := s.agenda.tail }.coreReset)

/-- A rejected image is no next state. -/
theorem rejected_ne_next (e : DecodeError) (s : State) : rejected e ≠ .next s := by cases e <;> simp [rejected]

/-- Only an idle engine runs no operation. -/
theorem OpState.instr_none {o : OpState} (h : o.instr = none) : o = .idle := by
  cases o with
  | idle => rfl
  | programTiming => cases h
  | ulps t => cases t <;> cases h
  | transfer => cases h

/-- What a step of the machine is: the step of one agent. -/
theorem step_cases {s s' : State} (h : step s = .next s') : Stepped s s' := by
  simp only [step, scheduledStep] at h
  generalize hc : chosen s = c at h
  cases c with
  | engine d =>
    simp only [choiceStep, engineStep] at h
    split at h
    · exact .goesOn d _ hc ‹_› h
    · rename_i hn
      have ho := OpState.instr_none hn
      split at h
      · cases h; exact .waits d hc ho ‹_› rfl
      · split at h
        · exact .accepts d _ _ hc ho ‹_› ‹_› h
        · exact absurd h (rejected_ne_next _ _)
  | classifier => exact .classifies hc h
  | env e => cases h; exact .env e hc rfl
  | present r => cases h; exact .presents r hc rfl
  | bus t =>
    simp only [choiceStep, imageStep] at h
    split at h
    · exact .bus t _ hc ‹_› h
    · exact absurd h (rejected_ne_next _ _)
  | mmio t =>
    simp only [choiceStep, imageStep] at h
    split at h
    · exact .mmio t _ hc ‹_› h
    · exact absurd h (rejected_ne_next _ _)
  | reset => cases h; exact .resets hc rfl

/-- An access appends one transaction. -/
theorem OneAccess.trace {s t : State} (h : OneAccess s t) : t.trace = s.trace ∨ ∃ a, t.trace = s.trace ++ [a] := by
  rcases h with rfl | ⟨r, v, h⟩ | ⟨r, v, h⟩
  · exact .inl rfl
  · exact .inr ⟨_, readReg_trace h⟩
  · exact .inr ⟨_, congrArg State.trace (writeReg_same h)⟩

/-- An instruction's step appends at most one transaction. -/
theorem exec_trace {i : Instr} {s s' : State} (h : exec i s = .next s') :
    s'.trace = s.trace ∨ ∃ a, s'.trace = s.trace ++ [a] := by
  obtain ⟨t, ha, hs⟩ := exec_accesses h
  rw [hs.trace]; exact ha.trace

/-! ### Accesses and the core's registers -/

/-- `t` agrees with `s` on every register of the core and every port but the trace. -/
structure SameCore (s t : State) : Prop where
  params : t.params = s.params
  op : t.op = s.op
  cfg : t.cfg = s.cfg
  bundle : t.bundle = s.bundle
  xfer : t.xfer = s.xfer
  signal : t.signal = s.signal
  phyState : t.phyState = s.phyState
  phyDegraded : t.phyDegraded = s.phyDegraded
  clsState : t.clsState = s.clsState
  clsWord : t.clsWord = s.clsWord
  diag : t.diag = s.diag
  phyRateHz : t.phyRateHz = s.phyRateHz
  port : t.port = s.port
  results : t.results = s.results
  events : t.events = s.events

/-- A read changes no register of the core. -/
theorem readReg_core {r : RegName} {s t : State} {v : Word} (h : readReg r s = .ok (v, t)) : SameCore s t := by
  rw [(readReg_same h).eq]; constructor <;> rfl

/-- A write changes no register of the core. -/
theorem writeReg_core {r : RegName} {s t : State} {v : Word} (h : writeReg r v s = .ok t) : SameCore s t := by
  rw [writeReg_same h]; constructor <;> rfl

/-- A register row changes no register of the core. -/
theorem accessReg_core {r a s s'} (h : accessReg r a s = .next s') : SameCore s s' := by
  cases a with
  | read => obtain ⟨v, t, hr, h⟩ := withRead_next h; cases h; exact readReg_core hr
  | write v => obtain ⟨t, hr, h⟩ := withWrite_next h; cases h; exact writeReg_core hr

/-- READ32 changes no register of the core. -/
theorem execRead32_core {off s s'} (h : execRead32 off s = .next s') : SameCore s s' := by
  unfold execRead32 readOffset at h
  split at h
  · rename_i s1 h1
    split at h1
    · cases h1
    split at h1
    · cases h; exact readReg_core h1
    · cases h1
  · cases h

/-- WRITE32 changes no register of the core. -/
theorem execWrite32_core {off v s s'} (h : execWrite32 off v s = .next s') : SameCore s s' := by
  unfold execWrite32 writeOffset at h
  split at h
  · rename_i s1 h1
    split at h1
    · cases h1
    split at h1
    · cases h; exact writeReg_core h1
    · cases h1
  · cases h


/-- An environment step changes the controller and the inputs alone. -/
theorem envStep_core (e : EnvStep) (s : State) :
    ∃ c hz l, envStep e s = { s with ctl := c, phyRateHz := hz, sharedLine := l } := by
  cases e <;> simp only [envStep, transmitStep, responseStep, State.setIntStat] <;> (repeat' split) <;>
    exact ⟨_, _, _, rfl⟩

/-- Holding a request changes the port alone, and keeps the request on it. -/
theorem hold_frame (s : State) (i : Instr) :
    s.hold i = { s with port := (s.hold i).port } ∧ ∀ r, s.port = some r → (s.hold i).port = some r :=
  ⟨by unfold State.hold; split <;> rfl, fun _ h => State.hold_port h i⟩

/-- A one-step operation of an idle engine. -/
theorem whenIdle_idle {i : Instr} {s : State} {run : State → Out} (h : s.op = .idle) : whenIdle i s run = run s := by
  simp [whenIdle, h]

/-- A result from an idle engine. -/
theorem finish_idle {s : State} (h : s.op = .idle) (c : Code) (b : List Byte) (d : Word) (v : Value) :
    s.finish c b d v = { s with results := s.results ++ [⟨c, b, d, v⟩] } := by
  unfold State.finish; rw [← h]

/-- A register row's meaning is the access to its register. -/
theorem exec_mmio (r : RegName) (a : Access) (s : State) : exec (mmioInstr r a) s = accessReg r a s := by
  cases r <;> rfl

/-- A running sequencer operation takes its next step. -/
theorem exec_ulps {t : Bool} {s : State} {l : SLabel} {v : SeqLocals} (h : s.op = .ulps t l v) :
    exec (if t then Instr.ulpsEnter else Instr.ulpsExit) s = ulpsStep t l v s := by
  cases t <;> simp [exec, execUlpsEnter, execUlpsExit, ulpsSeq, h]

/-- A running TRANSFER takes its next step. -/
theorem exec_transfer {k : Packet} {s : State} {l : TLabel} {v : XferLocals} (h : s.op = .transfer k l v) :
    exec (.transfer k) s = transferStep k l v s := by
  simp [exec, execTransfer, h]

/-! ### Runs -/

/-- One step more of one instruction. -/
theorem execTimes_succ {n : Nat} {i : Instr} {s t : State} (h : exec i s = .next t) :
    execTimes (n + 1) i s = execTimes n i t := by
  simp [execTimes, h]

/-- Steps of one instruction, in two parts. -/
theorem execTimes_add {m n : Nat} {i : Instr} {s t : State} (h : execTimes m i s = .next t) :
    execTimes (m + n) i s = execTimes n i t := by
  induction m generalizing s with
  | zero => simp [execTimes] at h; subst h; simp
  | succ m ih =>
    rw [show m + 1 + n = (m + n) + 1 by omega]
    simp only [execTimes] at h ⊢
    split at h
    · exact ih h
    · cases h
    · cases h

/-- A scheduled choice is the step. -/
theorem step_cons {s : State} {c : Choice} {l : List Choice} (h : s.agenda = c :: l) :
    step s = choiceStep c { s with agenda := l } := by
  simp [step, scheduledStep, chosen, h]

/-- One step more of any machine. -/
theorem run_succ (M : Host.Core) (n : Nat) (s t : M.State) (h : M.step s = .next t) : M.run (n + 1) s = M.run n t := by
  simp only [Host.Core.run, h]

/-! ### Drawn reads -/

/-- A draw leaves the bits outside its mask. -/
theorem drawBits_keeps (mask w : Word) (s : State) : (drawBits mask w s).1 &&& ~~~mask = w &&& ~~~mask := by
  simp only [drawBits]
  split
  · rfl
  · simp only [mixBits]
    apply BitVec.eq_of_getLsbD_eq
    intro i hi
    simp [hi]
    cases mask[i] <;> simp

/-- A read of CTRL (R186). -/
theorem readReg_ctrl (s : State) :
    readReg .ctrl s = .ok ((drawBits s.ctl.ctrlClears s.ctl.ctrl s).1,
      { s with
        draws := (drawBits s.ctl.ctrlClears s.ctl.ctrl s).2.draws
        trace := s.trace ++ [⟨0, s.off .ctrl, (drawBits s.ctl.ctrlClears s.ctl.ctrl s).1⟩] }) := by
  simp only [readReg, classOf, readValue, State.logged]
  rw [drawBits_snd]; rfl

/-- A read of TXPKT1C (R185). -/
theorem readReg_txpkt1c (s : State) :
    readReg .txpkt1c s = .ok ((drawBits (txpkt1cDrawn s) s.ctl.txpkt1c s).1,
      { s with
        draws := (drawBits (txpkt1cDrawn s) s.ctl.txpkt1c s).2.draws
        trace := s.trace ++ [⟨0, s.off .txpkt1c, (drawBits (txpkt1cDrawn s) s.ctl.txpkt1c s).1⟩] }) := by
  simp only [readReg, classOf, readValue, State.logged]
  rw [drawBits_snd]; rfl

/-! ### ENV_WELL_BEHAVED -/

/-- A transmit step that sends what was submitted empties both transmit queues when the header declares every command
byte there is (R412). -/
theorem sendsDeclared_empties {s : State} {e : EnvStep} (h : SendsDeclared s e)
    (hd : getField s.params.regMap.txpkt1h.bcCmdFifo s.ctl.txHdr = s.ctl.cmdQ.length) :
    (envStep e s).ctl.cmdQ = [] ∧ (envStep e s).ctl.pixQ = [] := by
  obtain ⟨ha, -, done, rfl⟩ := h
  cases done <;> simp [envStep, transmitStep, State.setIntStat, ha, hd]

/-- In a well-behaved run the transmit step of a submitted write or read is the one that sends what was submitted; no
other step can end its transmission (R199, R412). -/
theorem EnvWellBehaved.sends {σ : Nat → State} {n j mode : Nat} (h : EnvWellBehaved σ) (hm : mode = 0 ∨ mode = 1)
    (hs : SubmitsAt σ n mode) (hj : n < j) (hw : SameSubmission σ (n + 1) j) (ht : EnvTakes σ j EndsTransmission) :
    EnvTakes σ j SendsDeclared := by
  rcases hm with rfl | rfl
  · obtain ⟨m, ho, hd, -⟩ := h.transmits n hs
    exact ho.2.2 j hj hw ht ▸ hd
  · obtain ⟨m, -, -, -, -, ho, hd, -⟩ := h.responds n hs
    exact ho.2.2 j hj hw ht ▸ hd

/-! ### Division -/

/-- `ceilDiv` is the lower adjoint of multiplication (R13). -/
theorem ceilDiv_le {a b q : Nat} (hb : 1 ≤ b) : ceilDiv a b ≤ q ↔ a ≤ q * b := by
  unfold ceilDiv
  rw [Nat.div_le_iff_le_mul_add_pred (by omega), Nat.mul_comm]
  omega

end Sys2Proof.Machine
end

