-- ==== Sys2Proof/Machine/Assembler.lean ====
section
/-! DEFINITION. The assembler syntax of 30_encoding.md R142 and the pseudo-operations of R143: one line to one operation
(log 20). -/

namespace Sys2Proof

/-- The pieces of a line between the separators `sep`. -/
def splitChars (sep : Char) : List Char → List (List Char)
  | [] => [[]]
  | c :: cs =>
    match splitChars sep cs with
    | [] => [[c]]
    | w :: ws => if c = sep then [] :: w :: ws else (c :: w) :: ws

/-- The value of a digit in a base up to 16. -/
def digitValue (base : Nat) (c : Char) : Option Nat :=
  let n := c.toNat
  let v := if 48 ≤ n ∧ n ≤ 57 then n - 48 else if 97 ≤ n ∧ n ≤ 102 then n - 87 else
    if 65 ≤ n ∧ n ≤ 70 then n - 55 else 16
  if v < base then some v else none

/-- The value of a run of digits. -/
def digitsValue (base : Nat) (cs : List Char) : Option Nat :=
  cs.foldl (fun acc c => acc.bind fun a => (digitValue base c).map fun d => a * base + d) (some 0)

/-- A number, decimal or hexadecimal with `0x` (R142). -/
def parseNumber (cs : List Char) : Option Nat :=
  match cs with
  | [] => none
  | '0' :: 'x' :: d :: ds => digitsValue 16 (d :: ds)
  | ds => digitsValue 10 ds

/-- A boolean, `0` or `1` (R142). -/
def parseFlag (cs : List Char) : Option Bool :=
  match parseNumber cs with
  | some 0 => some false
  | some 1 => some true
  | _ => none

/-- A byte. -/
def parseByte (cs : List Char) : Option Byte :=
  match parseNumber cs with
  | some n => if n < 256 then some (BitVec.ofNat 8 n) else none
  | none => none

/-- The bytes between the brackets of a byte list. -/
def parseByteItems (cs : List Char) : Option (List Byte) :=
  if cs = [] then some [] else (splitChars ',' cs).mapM parseByte

/-- A byte list `[b0,b1,...]` (R142). -/
def parseBytes (cs : List Char) : Option (List Byte) :=
  match cs with
  | '[' :: rest =>
    match rest.getLast? with
    | some ']' => parseByteItems rest.dropLast
    | _ => none
  | _ => none

/-- An operand `key=value` (R142). -/
def parseOperand (cs : List Char) : Option (List Char × List Char) :=
  match splitChars '=' cs with
  | [k, v] => some (k, v)
  | _ => none

/-- The value of a key, where the line gives it. -/
def operandOf (args : List (List Char × List Char)) (key : String) : Option (List Char) :=
  (args.find? fun a => a.1 == key.toList).map Prod.snd

/-- The packet operands of ENCODE and TRANSFER (R142). -/
def parsePacket (args : List (List Char × List Char)) : Option Packet := do
  let isLong ← (operandOf args "long").bind parseFlag
  let ch ← (operandOf args "ch").bind parseNumber
  let dt ← (operandOf args "dt").bind parseNumber
  let bytes ← (operandOf args "bytes").bind parseBytes
  let resp ← (operandOf args "resp").bind parseFlag
  let rx ← (operandOf args "rx").bind parseNumber
  let lp ← (operandOf args "lp").bind parseFlag
  if args.length = 7 then some ⟨isLong, ch, dt, bytes, resp, rx, lp⟩ else none

/-- The operands of CONFIGURE (R142). -/
def parseConfig (args : List (List Char × List Char)) : Option ConfigRecord := do
  let lanes ← (operandOf args "lanes").bind parseNumber
  let format ← (operandOf args "format").bind parseNumber
  let video ← (operandOf args "video").bind parseFlag
  let noncont ← (operandOf args "noncont").bind parseFlag
  let lpm ← (operandOf args "lpm").bind parseFlag
  let ch ← (operandOf args "ch").bind parseNumber
  if args.length = 6 then some ⟨lanes, format, video, noncont, lpm, ch⟩ else none

/-- The operands of a pseudo-operation that carries one byte list (R143). -/
def parseLongWrite (mk : Nat → List Byte → Bool → Pseudo) (args : List (List Char × List Char)) : Option Pseudo := do
  let ch ← (operandOf args "ch").bind parseNumber
  let bytes ← (operandOf args "bytes").bind parseBytes
  let lp ← (operandOf args "lp").bind parseFlag
  if args.length = 3 then some (mk ch bytes lp) else none

/-- The operands of DCS_WRITE0 (R143). -/
def parseWrite0 (args : List (List Char × List Char)) : Option Pseudo := do
  let ch ← (operandOf args "ch").bind parseNumber
  let cmd ← (operandOf args "cmd").bind parseByte
  let lp ← (operandOf args "lp").bind parseFlag
  if args.length = 3 then some (.dcsWrite0 ch cmd lp) else none

/-- The operands of DCS_WRITE1 (R143). -/
def parseWrite1 (args : List (List Char × List Char)) : Option Pseudo := do
  let ch ← (operandOf args "ch").bind parseNumber
  let cmd ← (operandOf args "cmd").bind parseByte
  let p ← (operandOf args "p").bind parseByte
  let lp ← (operandOf args "lp").bind parseFlag
  if args.length = 4 then some (.dcsWrite1 ch cmd p lp) else none

/-- The operands of DCS_READ (R143). -/
def parseRead (args : List (List Char × List Char)) : Option Pseudo := do
  let ch ← (operandOf args "ch").bind parseNumber
  let cmd ← (operandOf args "cmd").bind parseByte
  let n ← (operandOf args "n").bind parseNumber
  let lp ← (operandOf args "lp").bind parseFlag
  if args.length = 4 then some (.dcsRead ch cmd n lp) else none

/-- An operation without operands. -/
def bareInstr (i : Instr) (args : List (List Char × List Char)) : Option Instr := if args = [] then some i else none

/-- The operation a mnemonic and its operands name (R142, R143). -/
def assembleOp (name : List Char) (args : List (List Char × List Char)) : Option Instr :=
  if name = "CONFIGURE".toList then (parseConfig args).map Instr.configure
  else if name = "TIMING_COMPUTE".toList then
    if args.length = 1 then ((operandOf args "rate").bind parseNumber).map Instr.timingCompute else none
  else if name = "PROGRAM_TIMING".toList then bareInstr .programTiming args
  else if name = "ENCODE".toList then (parsePacket args).map Instr.encode
  else if name = "ULPS_ENTER".toList then bareInstr .ulpsEnter args
  else if name = "ULPS_EXIT".toList then bareInstr .ulpsExit args
  else if name = "TRANSFER".toList then (parsePacket args).map Instr.transfer
  else if name = "PHY_STATE".toList then bareInstr .phyState args
  else if name = "ENABLE".toList then bareInstr Pseudo.enable.expand args
  else if name = "DCS_WRITE0".toList then (parseWrite0 args).map Pseudo.expand
  else if name = "DCS_WRITE1".toList then (parseWrite1 args).map Pseudo.expand
  else if name = "DCS_LWRITE".toList then (parseLongWrite .dcsLwrite args).map Pseudo.expand
  else if name = "DCS_READ".toList then (parseRead args).map Pseudo.expand
  else if name = "GEN_LWRITE".toList then (parseLongWrite .genLwrite args).map Pseudo.expand
  else none

/-- The operation a line names: the mnemonic, then `key=value` operands separated by spaces (R142). -/
def assemble (line : String) : Option Instr :=
  match (splitChars ' ' line.toList).filter fun w => w ≠ [] with
  | [] => none
  | name :: rest => (rest.mapM parseOperand).bind (assembleOp name)

end Sys2Proof
end

