-- ==== Sys2Proof/Tests/Slice0.lean ====
section
/-! SUPPORT. Tests of the model against spec/95_test_vectors.md and the written-out encodings of 30_encoding.md, and a
witness for the hypotheses of each obligation. Expected values are the spec's, named by vector in each comment. -/

namespace Sys2Proof.Tests

open Sys2Proof Sys2Proof.Machine

/-! ### Helpers -/

/-- A projection of the next state, if there is one. -/
def after {α : Type} (o : Out) (f : State → α) : Option α :=
  match o with
  | .next s => some (f s)
  | .fault _ => none
  | .refused _ => none

/-- The fault of an outcome, if it is one. -/
def faultOf (o : Out) : Option Fault :=
  match o with
  | .next _ => none
  | .fault f => some f
  | .refused _ => none

/-- The refusal of an outcome, if it is one. -/
def refusalOf (o : Out) : Option Refusal :=
  match o with
  | .next _ => none
  | .fault _ => none
  | .refused r => some r

/-- The codes of the results on the port. -/
def codes (s : State) : List Code := s.results.map Result.code

/-- Reset with a configured link of `n` lanes. -/
def linked (n : Nat) : State :=
  { State.reset with cfg := ⟨true, n, .rgb888, false, false, true, 0⟩ }

/-- `s` with the operation `o` running. -/
def running (s : State) (o : OpState) : State := { s with op := o }

/-- `s` with the controller changed. -/
def withCtl (s : State) (f : Controller → Controller) : State := { s with ctl := f s.ctl }

/-- `s` with the choice `c` next. -/
def scheduled (s : State) (c : Choice) : State := { s with agenda := [c] }

/-- Reset with one request on the port and the engine scheduled. -/
def requested (r : Request) : State := { State.reset with port := some r, agenda := [.engine false] }

/-- A short packet (EN11: set-display-on, LP). -/
def en11 : Packet := ⟨false, 0, 0x05, [0x29], false, 0, true⟩

/-- A short read of `n` bytes (EN15 for `n = 1`). -/
def readPacket (n : Nat) : Packet := ⟨false, 0, 0x06, [0x0A], true, n, true⟩

/-- EN6: a long packet of the 18 bytes 0x00 to 0x11, LP. -/
def en6 : Packet := ⟨true, 0, 0x39, (List.range 18).map (BitVec.ofNat 8), false, 0, true⟩

/-- Variables of a TRANSFER with the encoded words of EN11. -/
def vars : XferLocals := ⟨0x00002905, 0x00000409, [], [], .ok, 0, 0, [], 0⟩

/-- Variables of a sequencer run from ACTIVE, with or without a failed read. -/
def seqVars (failed : Bool) : SeqLocals := ⟨0, 0x00010001, .active, failed⟩

/-! ### Well-formedness: each check refuses an ill-formed term (R32, R131, R240, R246) -/

theorem test_wf_lanes_low : (Instr.configure ⟨0, 0, false, false, false, 0⟩).wellFormed .default = false := by decide
theorem test_wf_lanes_high : (Instr.configure ⟨5, 0, false, false, false, 0⟩).wellFormed .default = false := by decide
theorem test_wf_format : (Instr.configure ⟨2, 4, false, false, false, 0⟩).wellFormed .default = false := by decide
theorem test_wf_config_channel : (Instr.configure ⟨2, 0, false, false, false, 4⟩).wellFormed .default = false := by decide
theorem test_wf_rate : (Instr.timingCompute 0).wellFormed .default = false := by decide
theorem test_wf_packet_channel : (Instr.encode ⟨false, 4, 0x05, [], false, 0, false⟩).wellFormed .default = false := by
  decide
theorem test_wf_data_type : (Instr.encode ⟨false, 0, 0x40, [], false, 0, false⟩).wellFormed .default = false := by decide
theorem test_wf_short_length :
    (Instr.transfer ⟨false, 0, 0x05, [1, 2, 3], false, 0, false⟩).wellFormed .default = false := by decide
theorem test_wf_response_zero : (Instr.transfer (readPacket 0)).wellFormed .default = false := by decide
theorem test_wf_no_response : (Instr.transfer ⟨false, 0, 0x05, [0x29], false, 1, false⟩).wellFormed .default = false := by
  decide
theorem test_wf_response_length : (Instr.transfer (readPacket 65536)).wellFormed .default = false := by decide
theorem test_wf_misaligned : (Instr.read32 0x02).wellFormed .default = false := by decide
theorem test_wf_unmapped : (Instr.write32 0x0C 0).wellFormed .default = false := by decide
theorem test_wf_read_of_push : (Instr.read32 0x1C).wellFormed .default = false := by decide
theorem test_wf_write_of_read_only : (Instr.write32 0x14 0).wellFormed .default = false := by decide
theorem test_wf_mmio_read_of_push : (Instr.mmioTxpktPixFifo .read).wellFormed .default = false := by decide
theorem test_wf_mmio_write_of_pop : (Instr.mmioRxpktFifo (.write 0)).wellFormed .default = false := by decide
theorem test_wf_accepts :
    (Instr.transfer en6).wellFormed .default = true ∧ (Instr.read32 0x70).wellFormed .default = true ∧
      (Instr.configure ⟨4, 3, true, true, false, 3⟩).wellFormed .default = true := by decide

/-! ### Decoding: every constructor, from a word written out from R130, R139 and R144 -/

/-- Request words: `op` in bits 3 to 0, zeros above (R130). -/
theorem test_decode_requests :
    decodeRequest ⟨0b00000000000000000000000000000001, .config ⟨2, 0, false, false, true, 0⟩⟩ =
        .ok (.configure ⟨2, 0, false, false, true, 0⟩) ∧
      decodeRequest ⟨0b00000000000000000000000000000010, .rate 500000000⟩ = .ok (.timingCompute 500000000) ∧
      decodeRequest ⟨0b00000000000000000000000000000011, .none⟩ = .ok .programTiming ∧
      decodeRequest ⟨0b00000000000000000000000000000100, .packet en11⟩ = .ok (.encode en11) ∧
      decodeRequest ⟨0b00000000000000000000000000000101, .none⟩ = .ok .ulpsEnter ∧
      decodeRequest ⟨0b00000000000000000000000000000110, .none⟩ = .ok .ulpsExit ∧
      decodeRequest ⟨0b00000000000000000000000000000111, .packet en11⟩ = .ok (.transfer en11) ∧
      decodeRequest ⟨0b00000000000000000000000000001000, .none⟩ = .ok .phyState :=
  ⟨rfl, rfl, rfl, rfl, rfl, rfl, rfl, rfl⟩

/-- The event and the two bus rows (R139, R144). -/
theorem test_decode_event_and_bus :
    decode .dsi1 .event = .ok .irqClassify ∧ decode .dsi1 (.bus ⟨0, 0x30, 0⟩) = .ok (.read32 0x30) ∧
      decode .dsi1 (.bus ⟨1, 0x34, 0x3FC0⟩) = .ok (.write32 0x34 0x3FC0) := ⟨rfl, rfl, rfl⟩

/-- The mmio rows, by their offsets (R36, R144). -/
theorem test_decode_mmio :
    [0x00, 0x04, 0x08, 0x14, 0x1C, 0x20, 0x24, 0x30, 0x34, 0x38, 0x4C, 0x50, 0x54, 0x58, 0x5C, 0x60, 0x64, 0x68, 0x6C,
        0x70].map (fun off => (decode .dsi1 (.mmio ⟨0, off, 0⟩)).toOption) =
      [some (.mmioCtrl .read), some (.mmioTxpkt1c .read), some (.mmioTxpkt1h .read), some (.mmioRxpkt1h .read),
       some (.mmioTxpktCmdFifo .read), some (.mmioTxpktPixFifo .read), some (.mmioRxpktFifo .read),
       some (.mmioIntStat .read), some (.mmioIntEn .read), some (.mmioStat .read), some (.mmioPhyc .read),
       some (.mmioHsClt0 .read), some (.mmioHsClt1 .read), some (.mmioHsClt2 .read), some (.mmioHsDlt3 .read),
       some (.mmioHsDlt4 .read), some (.mmioHsDlt5 .read), some (.mmioHsDlt6 .read), some (.mmioHsDlt7 .read),
       some (.mmioPhyAfec0 .read)] := by decide

/-- Reserved operations, nonzero high bits and wrong records (R140; P5 step 5). -/
theorem test_decode_refusals :
    decodeRequest ⟨0x0, .none⟩ = .error .reservedOp ∧ decodeRequest ⟨0x9, .none⟩ = .error .reservedOp ∧
      decodeRequest ⟨0x17, .packet en11⟩ = .error .rsvNonzero ∧ decodeRequest ⟨0x7, .none⟩ = .error .badOperands ∧
      decode .dsi1 (.mmio ⟨0, 0x0C, 0⟩) = .error (.badOffset 0x0C) := ⟨rfl, rfl, rfl, rfl, rfl⟩

/-- Bare table words: the event, the bus directions, a request word, an mmio offset (log 11). -/
theorem test_decode_table_words :
    decodeTableWord 0 0 = some .irqClassify ∧ decodeTableWord 8 0 = some (.read32 0) ∧
      decodeTableWord 8 1 = some (.write32 0 0) ∧ decodeTableWord 32 0x5 = some .ulpsEnter ∧
      decodeTableWord 32 0x30 = some (.mmioIntStat .read) := by decide

/-- R142: an instruction in the assembler syntax (P1 step 1, P1 step 4). -/
theorem test_assemble :
    assemble "CONFIGURE lanes=2 format=0 video=0 noncont=0 lpm=1 ch=0" =
        some (.configure ⟨2, 0, false, false, true, 0⟩) ∧
      assemble "TRANSFER long=0 ch=0 dt=0x05 bytes=[0x29] resp=0 rx=0 lp=1" = some (.transfer en11) := by
  decide +kernel

/-- R143 (P1 step 4): DCS_WRITE0 expands to the short TRANSFER. -/
theorem test_pseudo : (Pseudo.dcsWrite0 0 0x29 true).expand = .transfer en11 := by decide

/-! ### Timing Calculator -/

/-- T1, the row of 500 MHz. -/
theorem test_timing_compute :
    after (execTimingCompute 500000000 .reset) State.results =
      some [⟨.ok, [], 0, .bundle ⟨264, 8, 40, 64, 112, 1000000, 104, 112, 48, 64, 64, 0, 5000000, 30, 6, 24, 6, 100000⟩⟩] := by
  decide +kernel

/-- T2. -/
theorem test_timing_compute_zero : refusalOf (execTimingCompute 0 .reset) = some .zeroRate := by decide

/-- T4: the words of 250 MHz. -/
theorem test_program_timing_words :
    let f := TimingFields.dsi1
    let b := bundleOf .default 250000000
    [clt0 f b, clt1 f b, clt2 f b, dlt3 f b, dlt4 f b, dlt5 f b, dlt6 f b, dlt7 f b] =
      [0x02201018, 0x00004058, 0x0007A120, 0x00E08018, 0x00005020, 0x002625A0, 0x1E061806, 0x000186A0] := by decide

/-- T5: `czero_ns = 600` does not fit. -/
def wideTiming : State :=
  { State.reset with params := { Params.default with timing := { TimingConstants.default with czeroNs := 600 } } }

theorem test_program_timing_overflow : refusalOf (execProgramTiming wideTiming) = some .fieldOverflow := by decide

/-! ### Packet Encoder -/

/-- K5. -/
theorem test_configure :
    after (execConfigure ⟨4, 3, true, true, false, 3⟩ .reset) (fun s => (s.cfg, codes s)) =
      some (⟨true, 4, .rgb565, true, true, false, 3⟩, [.ok]) := by decide

/-- K2 and K6. -/
theorem test_configure_rejects :
    after (execConfigure ⟨5, 0, false, false, true, 0⟩ .reset) (fun s => (s.cfg.configured, codes s)) =
        some (false, [.config]) ∧
      refusalOf (execConfigure ⟨2, 0, false, false, true, 0⟩ (linked 4)) = some .alreadyConfigured := by decide

/-- EN6. -/
theorem test_encode_long :
    after (execEncode en6 (linked 2)) State.results =
      some [⟨.ok, [], 0, .encoded ⟨0x02001239, 0x0000060D, [0x00, 0x01],
        [0x05040302, 0x09080706, 0x0D0C0B0A, 0x11100F0E]⟩⟩] := by decide

/-- EN29: CONFIG comes before CAPACITY. -/
theorem test_encode_order :
    after (execEncode ⟨true, 0, 0x40, List.replicate 1028 0, false, 0, false⟩ (linked 2)) codes = some [.config] := by
  decide

/-! ### Power-State Sequencer -/

/-- Q1, step S3: the request bits are set and the enables kept. -/
theorem test_ulps_enter :
    after (execUlpsEnter (running (linked 1) (.ulps true .s3 (seqVars false)))) (fun s => s.ctl.phyc) =
      some 0x00030003 := by decide

/-- Q8. -/
theorem test_ulps_enter_unconfigured :
    after (execUlpsEnter .reset) (fun s => (codes s, s.trace)) = some ([.config], []) := by decide

/-- Q6, step S6: the latch bit is cleared. -/
theorem test_ulps_exit :
    after (execUlpsExit (running (linked 1) (.ulps false .s6 ⟨0x00004000, 0, .ulps, false⟩))) (fun s => s.ctl.phyAfec0) =
      some 0 := by decide

/-- Q7: the first timeout of an exit reports the prior state. -/
theorem test_ulps_exit_timeout :
    after (execUlpsExit (running (linked 1) (.ulps false .s4u ⟨0, 0x00030003, .ulps, true⟩)))
        (fun s => (s.phyState, s.ctl.phyc, codes s)) = some (.ulps, 0x00010001, [.seqTimeout]) := by decide

/-- Q9. -/
theorem test_phy_state :
    after (execPhyState { withCtl (linked 1) (fun c => { c with phyAfec0 := 0x00004000 }) with
        phyState := .ulps, phyDegraded := true }) State.results = some [⟨.ok, [], 0, .phy .ulps true true⟩] := by decide

/-! ### Transfer Engine -/

/-- X3: an always-on error is reported and does not fail the transfer. -/
theorem test_transfer_return :
    after (execTransfer en11 { running (linked 2) (.transfer en11 .t21 vars) with diag := 0x00000800 }) State.results =
      some [⟨.ok, [], 0x00000800, .none⟩] := by decide

/-- X9: a short response gives `min(3, 2)` bytes. -/
theorem test_transfer_short_response :
    after (execTransfer (readPacket 3) (withCtl (running (linked 2) (.transfer (readPacket 3) .t17 vars))
        (fun c => { c with rxpkt1h := 0x00341222 }))) State.op =
      some (.transfer (readPacket 3) .t21 { vars with rx := [0x12, 0x34] }) := by decide

/-- R385: while nothing enables the timeout, a wait may go on for ever; the step is the state's own successor. -/
theorem test_transfer_waits_forever :
    let s := running (linked 2) (.transfer en11 .t8 vars)
    s.agenda = [] ∧ step s = .next s := ⟨rfl, rfl⟩

/-- R380: the port carries one request; one presented while it is taken stays with its requester (log 14). -/
theorem test_port_carries_one_request :
    after (step (scheduled { running .reset (.transfer en11 .t3 vars) with port := some ⟨0x8, .none⟩ }
        (.present ⟨0x3, .none⟩))) State.port = some (some ⟨0x8, .none⟩) := by decide

/-- R9: a pixel FIFO of width 2 takes words of two bytes (log 28). -/
theorem test_encode_width_two :
    (encodePacket { Params.default with pixFifoWidth := 2 } ⟨true, 0, 0x39, [1, 2, 3], false, 0, false⟩).cmdBytes = [1] ∧
      (encodePacket { Params.default with pixFifoWidth := 2 } ⟨true, 0, 0x39, [1, 2, 3], false, 0, false⟩).pixWords =
        [0x0302] := by decide

/-- R199: the run in which the idle engine waits for ever is well-behaved. -/
theorem test_quiet_run_is_well_behaved : IsRun (fun _ => State.reset) ∧ EnvWellBehaved fun _ => State.reset := by
  have hn : ∀ m q, ¬ EnvTakes (fun _ => State.reset) m q := by
    rintro m q ⟨e, h, -⟩
    exact absurd h (by simp [show chosen State.reset = .engine false from rfl])
  have hw : ∀ n r v, ¬ WritesAt (fun _ => State.reset) n r v := fun n r v h => by
    simpa using congrArg List.length h
  exact ⟨fun _ => (rfl : step State.reset = .next State.reset), fun n ⟨v, h, _⟩ => absurd h (hw n _ v), fun n ⟨v, h, _⟩ => absurd h (hw n _ v),
    fun n h => absurd h (hn n _), fun n h => absurd h (hn n _), fun n ⟨_, v, h, _⟩ => absurd h (hw n _ v),
    fun n ⟨_, v, h, _⟩ => absurd h (hw n _ v), fun n => hn n _, fun _ _ => rfl⟩

/-- X1 and R196: of the transmit steps of a short write only the one that sends all and sets TXPKT1_DONE sends the
declared bytes; one that leaves an entry behind does not (R412). -/
theorem test_sends_declared :
    let s := withCtl (linked 2) fun c => { c with txActive := true, txHdr := 0x01000139, cmdQ := [0x2A] }
    SendsDeclared s (.transmit 1 0 true) ∧ ¬ SendsDeclared s (.transmit 0 0 true) := by
  refine ⟨⟨rfl, by decide, true, rfl⟩, ?_⟩
  rintro ⟨-, -, done, h⟩
  exact absurd (EnvStep.transmit.inj h).1 (by decide)

/-! ### Interrupt Classifier -/

/-- I1: a completion wins over HSTX_TO. -/
theorem test_classify_completion_wins :
    after (execIrqClassify { State.reset with clsState := .cClassify, clsWord := 0x00000402 })
        (fun s => (s.events, s.diag, s.signal)) =
      some ([.irqErr .hstxTo, .irqHandled], 0x400, some .ok) := by decide

/-- I8: the first signal wins. -/
theorem test_classify_first_signal :
    after (execIrqClassify { State.reset with clsState := .cClassify, clsWord := 0x2, signal := some .timeout })
        (fun s => (s.events, s.diag, s.signal)) = some ([.irqHandled], 0, some .timeout) := by decide

/-! ### Register port -/

/-- B11 and B12. -/
theorem test_read32_faults :
    faultOf (execRead32 0x02 .reset) = some (.badOffset 0x02) ∧ faultOf (execRead32 0x0C .reset) = some (.badOffset 0x0C) := by
  decide

/-- READ32 returns the register as the data of its transaction (R139, R180). -/
theorem test_read32 :
    after (execRead32 0x4C (withCtl .reset fun c => { c with phyc := 0x00010011 })) State.trace =
      some [⟨0, 0x4C, 0x00010011⟩] := by decide

/-- B1 through WRITE32. -/
theorem test_write32 :
    after (execWrite32 0x30 0x00200002 (withCtl .reset fun c => { c with intStat := 0x00200402 }))
      (fun s => s.ctl.intStat) = some 0x00000400 := by decide

/-- B6: the clear bits empty the queues. -/
theorem test_mmio_ctrl :
    after (execMmioCtrl (.write 0x00000071) (withCtl .reset fun c => { c with cmdQ := [1], pixQ := [2], rxQ := [9] }))
      (fun s => (s.ctl.cmdQ, s.ctl.pixQ, s.ctl.rxQ, s.ctl.ctrl)) = some ([], [], [], 0x00000071) := by decide

/-- B3 and the start of a transmission (R185). -/
theorem test_mmio_txpkt1c :
    after (execMmioTxpkt1c (.write 0x00000409) (withCtl .reset fun c => { c with txpkt1h := 0x00002905 }))
      (fun s => (s.ctl.txpkt1c, s.ctl.txActive, s.ctl.txHdr, s.ctl.txCtl)) =
      some (0x00000409, true, 0x00002905, 0x00000409) := by decide

/-- B14. -/
theorem test_mmio_rxpkt1h : faultOf (execMmioRxpkt1h (.write 0) .reset) = some (.writeOfReadOnly 0x14) := by decide

/-- B15: the low byte is pushed. -/
theorem test_mmio_cmd_fifo :
    after (execMmioTxpktCmdFifo (.write 0x12345678) .reset) (fun s => s.ctl.cmdQ) = some [0x78] := by decide

/-- B9. -/
theorem test_mmio_cmd_fifo_full :
    faultOf (execMmioTxpktCmdFifo (.write 1) (withCtl .reset fun c => { c with cmdQ := List.replicate 16 0 })) =
      some (.fifoOverflow .cmd) := by decide

/-- B10. -/
theorem test_mmio_pix_fifo_full :
    faultOf (execMmioTxpktPixFifo (.write 0) (withCtl .reset fun c => { c with pixQ := List.replicate 256 0 })) =
      some (.fifoOverflow .pix) := by decide +kernel

/-- B8. -/
theorem test_mmio_rx_fifo :
    after (execMmioRxpktFifo .read (withCtl .reset fun c => { c with rxQ := [0x5A, 0x11] }))
      (fun s => (s.ctl.rxQ, s.trace)) = some ([0x11], [⟨0, 0x24, 0x0000005A⟩]) := by decide

/-- B1. -/
theorem test_mmio_int_stat :
    after (execMmioIntStat (.write 0x00200002) (withCtl .reset fun c => { c with intStat := 0x00200402 }))
      (fun s => s.ctl.intStat) = some 0x00000400 := by decide

/-- S1 of P4, step 4: W STAT 0x0A040000 leaves 0x05010000. -/
theorem test_mmio_stat :
    after (execMmioStat (.write 0x0A040000) (withCtl .reset fun c => { c with stat := 0x0F050000 }))
      (fun s => s.ctl.stat) = some 0x05010000 := by decide

/-- The words of P1 and P4, each written to its own register (R182). -/
theorem test_mmio_plain_writes :
    after (execMmioTxpkt1h (.write 0x00002905) .reset) (fun s => s.ctl.txpkt1h) = some 0x00002905 ∧
      after (execMmioIntEn (.write 0x00003FC0) .reset) (fun s => s.ctl.intEn) = some 0x00003FC0 ∧
      after (execMmioPhyc (.write 0x00030033) .reset) (fun s => s.ctl.phyc) = some 0x00030033 ∧
      after (execMmioPhyAfec0 (.write 0x00004000) .reset) (fun s => s.ctl.phyAfec0) = some 0x00004000 := by decide

/-- The words of P1, step 2. -/
theorem test_mmio_timing_writes :
    after (execMmioHsClt0 (.write 0x04201028) .reset) (fun s => s.ctl.hsClt0) = some 0x04201028 ∧
      after (execMmioHsClt1 (.write 0x00008070) .reset) (fun s => s.ctl.hsClt1) = some 0x00008070 ∧
      after (execMmioHsClt2 (.write 0x000F4240) .reset) (fun s => s.ctl.hsClt2) = some 0x000F4240 ∧
      after (execMmioHsDlt3 (.write 0x01A0E030) .reset) (fun s => s.ctl.hsDlt3) = some 0x01A0E030 ∧
      after (execMmioHsDlt4 (.write 0x00008040) .reset) (fun s => s.ctl.hsDlt4) = some 0x00008040 ∧
      after (execMmioHsDlt5 (.write 0x004C4B40) .reset) (fun s => s.ctl.hsDlt5) = some 0x004C4B40 ∧
      after (execMmioHsDlt6 (.write 0x1E061806) .reset) (fun s => s.ctl.hsDlt6) = some 0x1E061806 ∧
      after (execMmioHsDlt7 (.write 0x000186A0) .reset) (fun s => s.ctl.hsDlt7) = some 0x000186A0 := by decide

/-! ### The host's two questions on a table word (log 11) -/

theorem test_fetch_runs_request :
    after (step (State.reset.withFetchWord 32 0x5)) codes = some [.config] := by decide

theorem test_fetch_runs_event :
    after (step (State.reset.withFetchWord 0 0)) (fun s => s.clsState) = some .cRead := by decide

theorem test_fetch_runs_mmio :
    after (step (State.reset.withFetchWord 32 0x30)) State.trace = some [⟨0, 0x30, 0⟩] := by decide

/-! ### Witnesses: the hypotheses of each obligation can be met -/

theorem witness_DecodeOfEncodeIsTheInstruction : RegMap.dsi1.offsetsValid = true := by decide

theorem witness_EncodeOfDecodeIsTheImage :
    decode .dsi1 (.request ⟨0x8, .none⟩) = .ok .phyState ∧
      decode .dsi1 (.bus ⟨0, 0x8C, 0⟩) = .ok (.read32 0x8C) ∧
      decode .dsi1 (.mmio ⟨1, 0x70, 1⟩) = .ok (.mmioPhyAfec0 (.write 1)) ∧
      (∀ t, Image.bus ⟨0, 0x8C, 0⟩ = .bus t ∨ Image.bus ⟨0, 0x8C, 0⟩ = .mmio t → t.dir = 0 → t.data = 0) := by
  refine ⟨rfl, rfl, rfl, ?_⟩
  rintro t (h | h) - <;> cases h
  rfl

/-- The boundary operations of each clause: 0x0, 0x9 and 0xF; 0x1 and 0x8 with a high bit; 0x1 with no record. -/
theorem witness_IllegalRequestsAreRefused :
    ∀ r ∈ [(⟨0x0, .none⟩ : Request), ⟨0x9, .none⟩, ⟨0xF, .none⟩, ⟨0x11, .none⟩, ⟨0x80000008, .none⟩, ⟨0x1, .none⟩,
        ⟨0x8, .rate 1⟩],
      (requested r).op = .idle ∧ (requested r).port = some r ∧ chosen (requested r) = .engine false := by decide

theorem witness_StepAcceptsTheRequestOnThePort :
    (requested ⟨0x3, .none⟩).op = .idle ∧ (requested ⟨0x3, .none⟩).port = some ⟨0x3, .none⟩ ∧
      chosen (requested ⟨0x3, .none⟩) = .engine false ∧ decodeRequest ⟨0x3, .none⟩ = .ok .programTiming :=
  ⟨rfl, rfl, rfl, rfl⟩

theorem witness_StepRunsTheInstructionOfItsAgent :
    chosen (scheduled (running .reset (.transfer en11 .t3 vars)) (.engine true)) = .engine true ∧
      (running .reset (.transfer en11 .t3 vars)).op.instr = some (.transfer en11) ∧
      chosen (scheduled .reset .classifier) = .classifier ∧
      chosen (scheduled .reset (.bus ⟨0, 0x30, 0⟩)) = .bus ⟨0, 0x30, 0⟩ ∧
      decode .dsi1 (.bus ⟨0, 0x30, 0⟩) = .ok (.read32 0x30) ∧
      chosen (scheduled .reset (.mmio ⟨0, 0x30, 0⟩)) = .mmio ⟨0, 0x30, 0⟩ ∧
      decode .dsi1 (.mmio ⟨0, 0x30, 0⟩) = .ok (.mmioIntStat .read) :=
  ⟨rfl, rfl, rfl, rfl, rfl, rfl, rfl⟩

/-- A busy engine with a request on the port, and one to whose free port a request is presented. -/
theorem witness_BusyPortHoldsTheRequest :
    let busy := running .reset (.transfer en11 .t3 vars)
    let held := { busy with port := some ⟨0x8, .none⟩ }
    let presented := scheduled busy (.present ⟨0x8, .none⟩)
    busy.op ≠ .idle ∧ held.port = some ⟨0x8, .none⟩ ∧ chosen held ≠ .reset ∧ (∃ t, step held = .next t) ∧
      busy.port = none ∧ chosen presented = .present ⟨0x8, .none⟩ ∧ ∃ t, step presented = .next t :=
  ⟨by decide, rfl, by decide, ⟨_, rfl⟩, rfl, rfl, _, rfl⟩

theorem witness_OneRegisterAccessPerStep : ∃ t, step State.reset = .next t := ⟨_, rfl⟩

/-- A running operation that returns, and one that does not; an accepted request that returns at once; and an idle
engine with no request. -/
theorem witness_EveryReturnYieldsOneResult :
    (let s := scheduled (running .reset (.transfer en11 .t21 vars)) (.engine false)
     s.op ≠ .idle ∧ chosen s ≠ .reset ∧ ∃ t, step s = .next t ∧ t.op = .idle) ∧
    (let s := scheduled (running .reset (.transfer en11 .t3 vars)) (.engine false)
     s.op ≠ .idle ∧ chosen s ≠ .reset ∧ ∃ t, step s = .next t ∧ t.op ≠ .idle) ∧
    (let s := requested ⟨0x8, .none⟩
     s.op = .idle ∧ s.port ≠ none ∧ chosen s = .engine false ∧ ∃ t, step s = .next t ∧ t.op = .idle) ∧
    (State.reset.op = .idle ∧ State.reset.port = none ∧ chosen State.reset ≠ .reset ∧ ∃ t, step State.reset = .next t) :=
  ⟨⟨by decide, by decide, _, rfl, by decide⟩, ⟨by decide, by decide, _, rfl, by decide⟩,
    ⟨rfl, by decide, rfl, _, rfl, by decide⟩, rfl, rfl, by decide, _, rfl⟩

/-- X13: a push of TRANSFER onto a full queue. -/
def fullPush : State :=
  withCtl (running (linked 2) (.transfer en6 .t1 { vars with cmdLeft := [3] }))
    fun c => { c with cmdQ := List.replicate 16 0 }

theorem witness_OnlyPushesOfTransferFault :
    exec (.transfer en6) fullPush = .fault (.fifoOverflow .cmd) ∧ (∀ off, Instr.transfer en6 ≠ .read32 off) ∧
      (∀ off v, Instr.transfer en6 ≠ .write32 off v) ∧ ∀ r a, Instr.transfer en6 ≠ mmioInstr r a := by
  refine ⟨rfl, fun off => by simp, fun off v => by simp, fun r a => ?_⟩
  cases r <;> simp [mmioInstr]

theorem witness_CeilDivIsLeast : 1 ≤ 1 := by decide

theorem witness_TimingMonotoneInRate : 1 ≤ 1 ∧ 1 ≤ 500000000 := by decide

theorem witness_TimingValuesAreMultiplesOfEight : Params.default.byteQuantum = 8 := by decide

theorem witness_DefaultBundlesFit : 1 ≤ 1 := by decide

theorem witness_TimingComputeReturnsTheBundle :
    State.reset.op = .idle ∧ State.reset.params.uiNumerator = 500000000 ∧ 500000000 ≤ 500000000 ∧
      State.reset.params.escClkHz = 100000000 := by decide

theorem witness_ProgramTimingWritesTheWholeBundle :
    State.reset.op = .idle ∧ 1 ≤ State.reset.phyRateHz ∧
      fits State.reset.params.regMap.timing (bundleOf State.reset.params State.reset.phyRateHz) = true := by decide

theorem witness_TimingWordsCarryTheirFields :
    fits RegMap.dsi1.timing (bundleOf .default 250000000) = true := by decide

theorem witness_ProgramTimingRefusesBeforeWriting :
    ({ State.reset with phyRateHz := 0 } : State).op = .idle ∧ wideTiming.op = .idle ∧ 1 ≤ wideTiming.phyRateHz ∧
      fits wideTiming.params.regMap.timing (bundleOf wideTiming.params wideTiming.phyRateHz) = false := by decide

theorem witness_ProgramTimingFrame : ∃ t, exec .programTiming State.reset = .next t := ⟨_, rfl⟩

/-- K1 to K5 at the boundaries of each range. -/
theorem witness_ConfigureOutcomes :
    State.reset.op = .idle ∧ (linked 4).op = .idle ∧ (linked 4).cfg.configured = true ∧
      State.reset.cfg.configured = false ∧ State.reset.params.maxLanes < 5 ∧ 4 ≤ State.reset.params.maxLanes := by decide

/-- Each condition of R246 and R247 can be met, and an accepted packet exists (EN20 to EN29, EN6). -/
theorem witness_EncodeOutcomes :
    State.reset.op = .idle ∧ State.reset.cfg.configured = false ∧ (linked 2).op = .idle ∧
      encodeCode .default (linked 2).cfg ⟨true, 0, 0x39, List.replicate 1028 0, false, 0, false⟩ = .capacity ∧
      encodeCode .default (linked 2).cfg ⟨true, 3, 0x3F, List.replicate 1027 0, false, 0, false⟩ = .ok ∧
      encodeCode .default (linked 2).cfg (readPacket 65535) = .ok := by decide +kernel

/-- EN20 to EN28: each condition of R246 at the first value that meets it; condition 3 of R247 with a shallow
command FIFO, and its condition 1. -/
theorem witness_EncodeOutcomes_conditions :
    encodeCode .default State.reset.cfg en11 = .config ∧ encodeCode .default (linked 0).cfg en11 = .config ∧
      encodeCode .default (linked 5).cfg en11 = .config ∧
      encodeCode .default (linked 4).cfg ⟨false, 4, 0x05, [], false, 0, false⟩ = .config ∧
      encodeCode .default (linked 1).cfg ⟨false, 0, 0x40, [], false, 0, false⟩ = .config ∧
      encodeCode .default (linked 1).cfg ⟨false, 0, 0x05, [1, 2, 3], false, 0, false⟩ = .config ∧
      encodeCode .default (linked 1).cfg (readPacket 0) = .config ∧
      encodeCode .default (linked 1).cfg ⟨false, 0, 0x05, [], false, 1, false⟩ = .config ∧
      encodeCode .default (linked 1).cfg (readPacket 65536) = .config ∧
      encodeCode { Params.default with cmdFifoDepth := 2 } (linked 1).cfg ⟨true, 0, 0x39, [1, 2, 3], false, 0, false⟩ =
        .capacity ∧
      65535 < (List.replicate 65536 (0 : Byte)).length := by
  refine ⟨?_, ?_, ?_, ?_, ?_, ?_, ?_, ?_, ?_, ?_, ?_⟩
  all_goals first | exact lt_of_lt_of_eq (by norm_num) List.length_replicate.symm | decide +kernel

theorem witness_SplitInvariants : Params.default.pixFifoWidth = 4 ∧ en6.isLong = true := by decide

theorem witness_EncodedWordsCarryTheirFields :
    Params.default.regMap = .dsi1 ∧ Params.default.cmdRepeat = 1 ∧ Params.default.pixFifoWidth = 4 ∧
      encodeCode .default (linked 2).cfg en6 = .ok ∧ en6.isLong = true ∧
      encodeCode .default (linked 2).cfg en11 = .ok ∧ en11.isLong = false := by decide

theorem witness_SequencerStart :
    State.reset.op = .idle ∧ State.reset.cfg.configured = false ∧ (linked 1).op = .idle ∧
      (linked 1).cfg.configured = true ∧ (linked 1).ctl.phyAfec0.getLsbD (linked 1).params.regMap.latchUlps = false ∧
      (linked 1).phyDegraded = false := by decide

theorem witness_PollSteps :
    (running (linked 1) (.ulps true .s4 (seqVars true))).op = .ulps true .s4 (seqVars true) ∧
      (seqVars true).pollFailed = true ∧ (seqVars false).pollFailed = false ∧
      (linked 1).ctl.stat &&& (linked 1).su ≠ (linked 1).su ∧ (0x03050000 : Word) &&& (linked 1).ss = (linked 1).ss := by
  decide

/-- Both timeouts, S4 and S10. -/
theorem witness_TimeoutsRollBack :
    ∀ l ∈ [SLabel.s4, SLabel.s10],
      let s : State := { running (linked 1) (.ulps true l (seqVars true)) with deadline := true }
      (seqVars true).pollFailed = true ∧ s.deadline = true ∧ s.op = .ulps true l (seqVars true) := by decide

/-- The handshake's start state, of an entry (Q1) and of an exit from ULPS (Q6). -/
def handshake (t : Bool) : State :=
  { withCtl (linked 1) fun c => { c with phyAfec0 := if t then 0 else 0x00004000 } with
    phyState := if t then .active else .ulps
    port := some ⟨if t then 0x00000005 else 0x00000006, .none⟩
    agenda := List.replicate 4 (.engine false) ++ [.env (.lanes 0x02040000)] ++ List.replicate 6 (.engine false) ++
      [.env (.lanes 0x01010000)] ++ List.replicate 2 (.engine false) }

theorem witness_UlpsHandshakeSucceeds : ∀ t : Bool,
    let s := handshake t
    s.op = .idle ∧ s.cfg.configured = true ∧ s.port = some ⟨if t then 0x00000005 else 0x00000006, .none⟩ ∧
      s.ctl.phyAfec0.getLsbD s.params.regMap.latchUlps ≠ t ∧
      s.agenda = List.replicate 4 (.engine false) ++ [.env (.lanes s.su)] ++ List.replicate 6 (.engine false) ++
        [.env (.lanes s.ss)] ++ List.replicate 2 (.engine false) := by decide

theorem witness_PhyStateReports : State.reset.op = .idle := by decide

theorem witness_TransferEncodingErrorReturnsAtOnce :
    State.reset.op = .idle ∧ encodeCode State.reset.params State.reset.cfg en11 ≠ .ok := by decide

theorem witness_TransferSubmits :
    (linked 2).op = .idle ∧ encodeCode (linked 2).params (linked 2).cfg en6 = .ok ∧
      (linked 2).params.regMap.txpkt1c.cmdEn < 32 ∧
      (linked 2).ctl.cmdQ.length + cmdLen .default en6 ≤ (linked 2).params.cmdFifoDepth ∧
      (linked 2).ctl.pixQ.length + pixCount .default en6 ≤ (linked 2).params.pixFifoDepth := by decide

theorem witness_TransferWaits :
    (running (linked 2) (.transfer en11 .t8 vars)).op = .transfer en11 .t8 vars ∧ (linked 2).signal = none ∧
      (linked 2).deadline = false ∧ (running (linked 2) (.transfer en11 .t9 vars)).op = .transfer en11 .t9 vars ∧
      (linked 2).ctl.intStat &&& doneTx .dsi1 = 0 ∧ (0x00000002 : Word) &&& doneTx .dsi1 ≠ 0 := by decide

theorem witness_TransferRemasksAndReturns :
    (running (linked 2) (.transfer en11 .t10 vars)).op = .transfer en11 .t10 vars ∧
      (running (linked 2) (.transfer en11 .t21 vars)).op = .transfer en11 .t21 vars := by decide

theorem witness_TransferCleanup :
    let s := running (linked 2) (.transfer en11 .t11 { vars with r := .timeout })
    s.op = .transfer en11 .t11 { vars with r := .timeout } ∧ s.params.regMap = .dsi1 ∧
      s.params.fifoResetMask = 0x00000070 := by decide

/-- X6 (a long header of the wrong count) and X8 (a short header). -/
theorem witness_ResponseHeaderDecides :
    (running (linked 2) (.transfer (readPacket 8) .t17 vars)).op = .transfer (readPacket 8) .t17 vars ∧
      (linked 2).params.regMap = .dsi1 ∧ (0x01000A1C : Word).getLsbD 24 = true ∧
      ((0x01000A1C : Word).extractLsb' 8 16).toNat ≠ 8 ∧ (0x00341222 : Word).getLsbD 24 = false := by decide

/-- X7, and the same response with two of its three bytes missing, and with none there. -/
theorem witness_LongResponseIsDrained :
    ∀ q ∈ [[0x11, 0x22, 0x33], [0x11], ([] : List Byte)],
      let s := withCtl (running (linked 2) (.transfer (readPacket 3) .t17 vars))
        fun c => { c with rxpkt1h := 0x0100031C, rxQ := q }
      s.op = .transfer (readPacket 3) .t17 vars ∧ respIsLong s.params.regMap s.ctl.rxpkt1h = true ∧
        respCount s.params.regMap s.ctl.rxpkt1h = (readPacket 3).rxLen := by decide

/-- X1: the short write's start state. -/
def shortWrite : State :=
  { linked 2 with
    port := some ⟨0x00000007, .packet en11⟩
    agenda := List.replicate 6 (.engine false) ++ [.env (.transmit 0 0 true)] ++ List.replicate 4 .classifier ++
      List.replicate 3 (.engine false) }

theorem witness_ShortWriteSucceeds :
    shortWrite.op = .idle ∧ shortWrite.clsState = .cIdle ∧ shortWrite.params.regMap = .dsi1 ∧
      encodeCode shortWrite.params shortWrite.cfg en11 = .ok ∧ en11.isLong = false ∧ en11.expectsResponse = false ∧
      shortWrite.port = some ⟨0x00000007, .packet en11⟩ ∧
      shortWrite.agenda = List.replicate 6 (.engine false) ++ [.env (.transmit 0 0 true)] ++
        List.replicate 4 .classifier ++ List.replicate 3 (.engine false) := by decide

theorem witness_TransferFrame :
    (∃ t, exec (.transfer en11) (linked 2) = .next t) ∧ (linked 2).ctl.cmdQ.length < (linked 2).params.cmdFifoDepth ∧
      (linked 2).ctl.pixQ.length < (linked 2).params.pixFifoDepth := ⟨⟨_, rfl⟩, by decide, by decide⟩

theorem witness_ClassifierReadsAndClears :
    State.reset.clsState = .cIdle ∧ State.reset.ctl.intStat &&& State.reset.ctl.intEn = 0 ∧
      State.reset.params.irqShared = true ∧ State.reset.sharedLine = false ∧
      (0x00000402 : Word) &&& 0x00003FC2 ≠ 0 := by decide

theorem witness_ClassifierClassifies :
    let s : State := { State.reset with clsState := .cClassify, clsWord := 0x00003BC0 }
    s.clsState = .cClassify ∧ s.params.regMap = .dsi1 := by decide

theorem witness_PlainRegisterRows :
    RegName.phyAfec0 ∈ [RegName.txpkt1h, .intEn, .phyc, .hsClt0, .hsClt1, .hsClt2, .hsDlt3, .hsDlt4, .hsDlt5, .hsDlt6,
      .hsDlt7, .phyAfec0] := by decide

theorem witness_ControlWordRow :
    State.reset.params.regMap = .dsi1 ∧ (0x00000409 : Word).getLsbD 0 = true ∧ (0x00000408 : Word).getLsbD 0 = false ∧
      State.reset.ctl.txStepped = false ∧ (withCtl .reset fun c => { c with txStepped := true }).ctl.txStepped = true := by
  decide

theorem witness_ControlRegisterRow :
    State.reset.params.regMap = .dsi1 ∧ State.reset.params.fifoResetMask = 0x00000070 ∧ State.reset.ctl.ctrlClears = 0 ∧
      (withCtl .reset fun c => { c with ctrlClears := 0x70 }).ctl.ctrlClears ≠ 0 := by decide

/-- At the boundary: room for one more, and none. -/
theorem witness_FifoPortRows :
    (List.replicate 15 (0 : Byte)).length < State.reset.params.cmdFifoDepth ∧
      State.reset.params.cmdFifoDepth ≤ (List.replicate 16 (0 : Byte)).length ∧
      (List.replicate 255 (0 : Word)).length < State.reset.params.pixFifoDepth ∧
      State.reset.params.pixFifoDepth ≤ (List.replicate 256 (0 : Word)).length ∧ State.reset.ctl.rxQ = [] := by decide +kernel

/-- 0x71 is misaligned, 0x74 is outside the map, 0x70 is the last register in it. -/
theorem witness_BusRowsFollowTheMap :
    0x71 % 4 ≠ 0 ∧ State.reset.params.regMap.nameAt 0x74 = none ∧ State.reset.params.regMap = .dsi1 ∧ 0x70 % 4 = 0 ∧
      State.reset.params.regMap.nameAt 0x70 = some .phyAfec0 := by decide

theorem witness_BusAccessesComplete :
    State.reset.params.regMap.offsetsValid = true ∧ RegName.cmdFifo ≠ .rxpkt1h ∧ RegName.cmdFifo ≠ .rxFifo ∧
      State.reset.ctl.cmdQ.length < State.reset.params.cmdFifoDepth ∧ RegName.rxFifo ≠ .cmdFifo := by decide

theorem witness_EnvironmentSteps :
    (∀ e ∈ [EnvStep.intStat 2, .transmit 0 0 true, .response none [1] true, .lanes 0x02040000, .rate 1000000,
        .sharedLine true], chosen (scheduled .reset (.env e)) = .env e) ∧
      (withCtl .reset fun c => { c with txActive := true }).ctl.txActive = true ∧ State.reset.ctl.txActive = false := by
  decide

/-- A response FIFO of depth 2 that holds one byte takes one of the two bytes received (R50; log 16). -/
theorem test_bounded_response :
    after (step { scheduled (withCtl .reset fun c => { c with rxQ := [7] }) (.env (.response none [1, 2] false)) with
        params := { Params.default with rxFifoDepth := some 2 } }) (fun s => s.ctl.rxQ) = some [7, 1] := by decide

theorem witness_OnlyTheEnvironmentSetsStatusBits :
    (∃ t, step State.reset = .next t) ∧ ∀ e, chosen State.reset ≠ .env e := by
  refine ⟨⟨_, rfl⟩, fun e => ?_⟩
  have h : chosen State.reset = .engine false := by decide
  simp [h]

theorem witness_EnvironmentFrame :
    chosen (scheduled .reset (.env (.lanes 1))) = .env (.lanes 1) ∧
      ∃ t, step (scheduled .reset (.env (.lanes 1))) = .next t := ⟨by decide, _, rfl⟩

theorem witness_ConfigurationSetOnce :
    (∃ t, step (linked 2) = .next t) ∧ (linked 2).cfg.configured = true ∧
      ∃ t, step (scheduled (linked 2) .reset) = .next t := ⟨⟨_, rfl⟩, by decide, _, rfl⟩

theorem witness_CoreResetAbandons :
    chosen (scheduled (running (linked 2) (.transfer en11 .t8 vars)) .reset) = .reset := by decide

theorem witness_InitialStatesMeetTheInvariants :
    Controller.launch.cleanLaunch Params.default ∧ Controller.launch.txStepped = false := by decide

/-- A running TRANSFER whose locals are the encoder's. -/
def soundTransfer : State :=
  { running (linked 2) (.transfer en11 .t8 vars) with xfer := ⟨true, .ok, []⟩ }

theorem witness_StepsKeepCoreRegistersLegal :
    (∃ t, step soundTransfer = .next t) ∧ ConfigLegal soundTransfer ∧ DiagAlwaysOn soundTransfer ∧
      PendingTracksTransfer soundTransfer := by
  refine ⟨⟨_, rfl⟩, fun _ => ?_, ?_, ?_⟩
  · decide
  · unfold DiagAlwaysOn; decide
  · unfold PendingTracksTransfer; decide

/-- A transmission running on the control word last written. -/
def transmitting : State :=
  withCtl (linked 2) fun c => { c with txpkt1c := 0x00000409, txActive := true, txCtl := 0x00000409 }

theorem witness_StepsKeepControllerConsistent :
    (∃ t, step transmitting = .next t) ∧ QueuesBounded transmitting ∧ TransmitConsistent transmitting := by
  refine ⟨⟨_, rfl⟩, ⟨by decide, by decide, fun d h => by cases h⟩, fun _ => by decide, fun _ => by decide⟩

/-- A bundle of 500 MHz, stored and running. -/
def timed : State :=
  { State.reset with
    bundle := some (bundleOf .default 500000000), op := .programTiming .p1 (bundleOf .default 500000000) }

theorem witness_StepsKeepBundlesWhole : (∃ t, step timed = .next t) ∧ BundlesWhole timed := by
  refine ⟨⟨_, rfl⟩, fun b h => ?_, fun l b h => ?_⟩
  · cases h; exact ⟨500000000, by decide, rfl, by decide⟩
  · cases h; exact ⟨500000000, by decide, rfl, by decide⟩

theorem witness_StepsKeepTransferSound : (∃ t, step soundTransfer = .next t) ∧ TransferSound soundTransfer := by
  refine ⟨⟨_, rfl⟩, fun k l v h => ?_⟩
  cases h
  exact ⟨by decide, by decide, by decide, List.nil_suffix, List.nil_suffix, fun h => by cases h⟩

end Sys2Proof.Tests
end

