-- ==== Sys2Proof/Proofs/Scope.lean ====
section
/-! PROOFS. The statements of 00_scope.md: one register access a step (R5), the instruction a step runs (R5), and the
arithmetic primitives (R13). -/

namespace Sys2Proof.Machine

open Sys2Proof

/-! ### One access a step -/

/-- An environment step makes no register access (R195 to R198). -/
@[simp] theorem envStep_trace (e : EnvStep) (s : State) : (envStep e s).trace = s.trace := by
  obtain ⟨c, hz, l, h⟩ := envStep_core e s
  rw [h]

/-- Settles O8: only the agents that run an instruction access a register, and an instruction's step does so at most
once (`exec_trace`). -/
theorem oneRegisterAccessPerStep : Obligations.OneRegisterAccessPerStep := by
  intro s s' h
  cases step_cases h with
  | goesOn d i hc hi h => exact (exec_trace h :)
  | accepts d r i hc ho hr hd h => exact (exec_trace h :)
  | classifies hc h => exact (exec_trace h :)
  | bus t i hc hd h => exact (exec_trace h :)
  | mmio t i hc hd h => exact (exec_trace h :)
  | waits d hc ho hr h => subst h; exact .inl rfl
  | env e hc h => subst h; exact .inl (envStep_trace e _)
  | presents r hc h => subst h; exact .inl (State.present_trace _ r)
  | resets hc h => subst h; exact .inl (State.coreReset_trace _)

/-! ### The instruction a step runs -/

/-- A step is the step of the chosen agent, with the agenda moved on (log 1). -/
theorem step_of_chosen {s : State} {c : Choice} (h : chosen s = c) :
    step s = choiceStep c { s with agenda := s.agenda.tail } := by
  rw [step, scheduledStep, h]

/-- A busy engine takes the running operation's next step (R31). -/
theorem engineStep_of_instr {s : State} {i : Instr} (h : s.op.instr = some i) : engineStep s = exec i s := by
  simp [engineStep, h]

/-- A transaction that decodes runs its instruction (R139, R144). -/
theorem imageStep_of_decode {s : State} {img : Image} {i : Instr} (h : decode s.params.regMap img = .ok i) :
    imageStep img s = exec i s := by
  simp [imageStep, h]

/-- Settles O6, agent by agent. -/
theorem stepRunsTheInstructionOfItsAgent : Obligations.StepRunsTheInstructionOfItsAgent := by
  intro s
  refine ⟨fun d i hc hi => ?_, step_of_chosen, fun t i hc hd => ?_, fun t i hc hd => ?_⟩
  · rw [step_of_chosen hc]; exact engineStep_of_instr hi
  · rw [step_of_chosen hc]; exact imageStep_of_decode (s := { s with agenda := s.agenda.tail }) hd
  · rw [step_of_chosen hc]; exact imageStep_of_decode (s := { s with agenda := s.agenda.tail }) hd

/-! ### The primitives of R13 -/

/-- `roundup` is at least its argument. -/
theorem le_roundup (a : Nat) {b : Nat} (hb : 1 ≤ b) : a ≤ roundup a b := (ceilDiv_le hb).mp le_rfl

/-- `roundup` is a multiple of its divisor. -/
theorem dvd_roundup (a b : Nat) : b ∣ roundup a b := Nat.dvd_mul_left b _

/-- `roundup` is below every multiple that bounds its argument. -/
theorem roundup_le {a b n : Nat} (hb : 1 ≤ b) (hn : b ∣ n) (ha : a ≤ n) : roundup a b ≤ n := by
  obtain ⟨q, rfl⟩ := hn
  rw [Nat.mul_comm b q] at ha ⊢
  exact Nat.mul_le_mul_right b ((ceilDiv_le hb).mpr ha)

/-- Settles O11 by the adjunction `ceilDiv_le` of `ceilDiv` and multiplication. -/
theorem ceilDivIsLeast : Obligations.CeilDivIsLeast := fun a b hb =>
  ⟨⟨le_roundup a hb, fun _ => (ceilDiv_le hb).mpr⟩, dvd_roundup a b, le_roundup a hb, fun _ => roundup_le hb⟩

end Sys2Proof.Machine
end

