-- ==== Sys2Proof/Proofs/State.lean ====
section
/-! PROOFS. The statements of 10_state.md: the reset values (R56), the configuration set once (R32), and the invariants
every step keeps: of the core's own registers (R32, R33, R55, R317) and of the controller (R50, R51). -/

namespace Sys2Proof.Machine

open Sys2Proof

/-! ### What a step does to the core's registers -/

/-- The running operation waits for a transfer's completion: a TRANSFER between T3 and T10 (R317). -/
def OpState.waiting : OpState → Bool
  | .transfer _ l _ => pendingLabel l
  | _ => false

/-- The bundle a running PROGRAM_TIMING writes (R220). -/
def OpState.bundle : OpState → Option Bundle
  | .programTiming _ b => some b
  | _ => none

/-- `transferPending` reads `op_state` alone. -/
theorem transferPending_eq (s : State) : transferPending s = s.op.waiting := rfl

/-- `OpState.bundle` is the bundle of PROGRAM_TIMING, at whichever label it runs. -/
theorem OpState.bundle_eq_some {o : OpState} {b : Bundle} : o.bundle = some b ↔ ∃ l, o = .programTiming l b := by
  cases o <;> simp [OpState.bundle]

/-- What the invariants of the core's registers speak of: the registers they name, and of `op_state` whether it waits for
a completion and which bundle it writes. -/
structure CoreView where
  params : Params
  cfg : LinkConfig
  bundle : Option Bundle
  pending : Bool
  diag : Word
  waiting : Bool
  running : Option Bundle

/-- The view of a state. -/
def State.view (s : State) : CoreView :=
  ⟨s.params, s.cfg, s.bundle, s.xfer.pending, s.diag, s.op.waiting, s.op.bundle⟩

/-- The ways a step other than the core's reset changes the view. -/
inductive CoreStep : CoreView → CoreView → Prop
  /-- Every step but those below. -/
  | keeps (v) : CoreStep v v
  /-- CONFIGURE, accepted (R240). -/
  | configures (v) (c : ConfigRecord) (hn : v.cfg.configured = false) (hl : 1 ≤ c.lanes)
      (hm : c.lanes ≤ v.params.maxLanes) (hc : c.channel ≤ 3) : CoreStep v { v with cfg := linkConfigOf c }
  /-- P0 (R220). -/
  | computes (v) (b : Bundle) (hb : BundleWhole v.params b) : CoreStep v { v with running := some b }
  /-- P9 (R220). -/
  | stores (v) (b : Bundle) (hb : v.running = some b) : CoreStep v { v with bundle := some b, running := none }
  /-- T3 (R303). -/
  | arms (v) : CoreStep v { v with pending := true, diag := 0, waiting := true }
  /-- T10 (R309). -/
  | disarms (v) : CoreStep v { v with pending := false, waiting := false }
  /-- `classify` (R343). -/
  | reports (v) (w : Word) :
      CoreStep v { v with diag := v.diag ||| errMask v.params.regMap (errorsIn v.params.regMap w) }

/-- A configuration is stored over none (R240). -/
theorem CoreStep.cfg_of_configured {v v' : CoreView} (h : CoreStep v v') (hc : v.cfg.configured = true) :
    v'.cfg = v.cfg := by
  cases h with
  | configures c hn => exact absurd (hc.symm.trans hn) Bool.noConfusion
  | keeps | computes | stores | arms | disarms | reports => rfl

/-- A step that keeps the view. -/
theorem CoreStep.of_eq {v v' : CoreView} (h : v' = v) : CoreStep v v' := h ▸ .keeps v

/-- The view names registers of the core only. -/
theorem SameCore.view {s t : State} (h : SameCore s t) : t.view = s.view := by
  simp only [State.view, h.params, h.cfg, h.bundle, h.xfer, h.diag, h.op]

/-- Holding a request changes the port alone (R380). -/
theorem State.hold_view (s : State) (i : Instr) : (s.hold i).view = s.view := by
  simp only [State.view, State.hold_params, State.hold_cfg, State.hold_bundle, State.hold_xfer, State.hold_diag,
    State.hold_op]

/-- A one-step operation does what its run does from IDLE, or is held (R380). -/
theorem whenIdle_coreStep {i : Instr} {s s' : State} {run : State → Out} (h : whenIdle i s run = .next s')
    (hr : s.op = .idle → run s = .next s' → CoreStep s.view s'.view) : CoreStep s.view s'.view := by
  unfold whenIdle at h
  split at h
  · exact hr ‹_› h
  · cases h; exact .of_eq (State.hold_view s i)

/-- The view of a state with the parts that come from `op_state` taken from `o`. -/
def State.viewAt (s : State) (o : OpState) : CoreView := { s.view with waiting := o.waiting, running := o.bundle }

/-- A state's own `op_state` gives its view. -/
theorem State.viewAt_op {s : State} {o : OpState} (h : s.op = o) : s.viewAt o = s.view := by rw [← h]; rfl

/-- An operation that reads once, and goes on as if at the label it came from. -/
theorem withRead_view {r : RegName} {s s' : State} {k : Word → State → Out} {o : OpState} (ho : s.op = o)
    (h : withRead r s k = .next s') (hk : ∀ w t, k w t = .next s' → s'.view = t.viewAt o) : s'.view = s.view := by
  obtain ⟨w, t, hr, h⟩ := withRead_next h
  have hc := readReg_core hr
  rw [hk w t h, State.viewAt_op (hc.op.trans ho), hc.view]

/-- An operation that writes once, and goes on as if at the label it came from. -/
theorem withWrite_view {r : RegName} {w : Word} {s s' : State} {k : State → Out} {o : OpState} (ho : s.op = o)
    (h : withWrite r w s k = .next s') (hk : ∀ t, k t = .next s' → s'.view = t.viewAt o) : s'.view = s.view := by
  obtain ⟨t, hw, h⟩ := withWrite_next h
  have hc := writeReg_core hw
  rw [hk t h, State.viewAt_op (hc.op.trans ho), hc.view]

/-- The view of an outcome that is a next state. -/
theorem next_view {u s' : State} {v : CoreView} (h : (Host.Outcome.next u : Out) = .next s') (hu : u.view = v) :
    s'.view = v := by
  cases h; exact hu

/-- An operation that makes no access, and goes on as if at the label it came from. -/
theorem next_viewAt {s u s' : State} {o : OpState} (ho : s.op = o) (h : (Host.Outcome.next u : Out) = .next s')
    (hu : u.view = s.viewAt o) : s'.view = s.view :=
  (next_view h hu).trans (State.viewAt_op ho)

/-- CONFIGURE (R240). -/
theorem configureRun_coreStep {c : ConfigRecord} {s s' : State} (ho : s.op = .idle)
    (h : configureRun c s = .next s') : CoreStep s.view s'.view := by
  rw [← State.viewAt_op ho]
  unfold configureRun at h
  split at h
  · cases h
  split at h
  · cases h; exact .keeps _
  split at h
  · cases h; exact .keeps _
  · cases h
    have hn : s.cfg.configured = false := by simpa using ‹¬ s.cfg.configured = true›
    have hm : c.lanes ≤ s.params.maxLanes := by omega
    exact .configures _ c hn (by omega) hm (by omega)

/-- ENCODE returns a result and changes nothing else (R245). -/
theorem encodeRun_view {k : Packet} {s s' : State} (ho : s.op = .idle) (h : encodeRun k s = .next s') :
    s'.view = s.view := by
  unfold encodeRun at h
  split at h <;> exact next_viewAt ho h rfl

/-- TIMING_COMPUTE returns a result and changes nothing else (R215). -/
theorem timingComputeRun_view {hz : Nat} {s s' : State} (ho : s.op = .idle)
    (h : timingComputeRun hz s = .next s') : s'.view = s.view := by
  unfold timingComputeRun at h
  split at h
  · cases h
  · exact next_viewAt ho h rfl

/-- PHY_STATE reads once and returns a result (R279). -/
theorem phyStateRun_view {s s' : State} (ho : s.op = .idle) (h : phyStateRun s = .next s') : s'.view = s.view :=
  withRead_view ho h fun _ _ h => next_view h rfl

/-! The sequencer names none of these registers (R274). -/

/-- S0 (R274). -/
theorem ulpsStart_view {t : Bool} {s s' : State} (ho : s.op = .idle) (h : ulpsStart t s = .next s') :
    s'.view = s.view := by
  unfold ulpsStart at h
  split at h
  · exact next_viewAt ho h rfl
  · refine withRead_view ho h fun a u h => ?_
    simp only at h
    split at h <;> exact next_view h rfl

/-- A poll step (R275). -/
theorem pollStep_view {t mask here done timeout l v} {s s' : State} (ho : s.op = .ulps t l v)
    (h : pollStep t mask here done timeout v s = .next s') : s'.view = s.view := by
  unfold pollStep at h
  split at h
  · exact next_viewAt ho h rfl
  · refine withRead_view ho h fun w u h => ?_
    split at h <;> exact next_view h rfl

/-- S1 to S11 and the timeout paths (R274). -/
theorem ulpsStep_view {t l v} {s s' : State} (ho : s.op = .ulps t l v) (h : ulpsStep t l v s = .next s') :
    s'.view = s.view := by
  cases l <;> simp only [ulpsStep] at h
  case s4 | s10 => exact pollStep_view ho h
  case s2 | s5 | s8 => exact withRead_view ho h fun _ _ h => next_view h rfl
  case s1 | s3 | s6 | s7 | s9 | s4u | s10u => exact withWrite_view ho h fun _ h => next_view h rfl
  case s11 => exact next_viewAt ho h rfl
  case s4t => exact withRead_view (s := s.emit (.seqTimeoutUlps t)) ho h fun _ _ h => next_view h rfl
  case s10t => exact withRead_view (s := s.emit (.seqTimeoutStop t)) ho h fun _ _ h => next_view h rfl

/-- ULPS_ENTER and ULPS_EXIT (R272, R273). -/
theorem ulpsSeq_view {i t} {s s' : State} (h : ulpsSeq i t s = .next s') : s'.view = s.view := by
  unfold ulpsSeq at h
  split at h
  · exact ulpsStart_view ‹_› h
  · split at h
    · subst t; exact ulpsStep_view ‹_› h
    · exact next_view h (State.hold_view s i)
  · exact next_view h (State.hold_view s i)

/-- P0 holds the bundle of a nonzero rate, checked to fit (R220). -/
theorem programTimingStart_coreStep {s s' : State} (ho : s.op = .idle) (h : programTimingStart s = .next s') :
    CoreStep s.view s'.view := by
  rw [← State.viewAt_op ho]
  unfold programTimingStart at h
  split at h
  · cases h
  simp only at h
  split at h
  · cases h
    exact .computes _ _ ⟨s.phyRateHz, Nat.one_le_iff_ne_zero.mpr ‹_›, rfl, ‹_›⟩
  · cases h

/-- P1 to P8 write registers of the controller; P9 stores the bundle (R220). -/
theorem programTimingStep_coreStep {l b} {s s' : State} (ho : s.op = .programTiming l b)
    (h : programTimingStep l b s = .next s') : CoreStep s.view s'.view := by
  cases l <;> simp only [programTimingStep] at h
  case p9 =>
    obtain ⟨t, hw, h⟩ := withWrite_next h
    have hc := writeReg_core hw
    cases h
    rw [← hc.view, ← State.viewAt_op (hc.op.trans ho)]
    exact .stores _ b rfl
  all_goals exact .of_eq (withWrite_view ho h fun _ h => next_view h rfl)

/-- PROGRAM_TIMING (R220). -/
theorem execProgramTiming_coreStep {s s' : State} (h : execProgramTiming s = .next s') :
    CoreStep s.view s'.view := by
  unfold execProgramTiming at h
  split at h
  · exact programTimingStart_coreStep ‹_› h
  · exact programTimingStep_coreStep ‹_› h
  · exact .of_eq (next_view h (State.hold_view _ _))

/-- After the command bytes TRANSFER is not pending yet. -/
theorem pendingLabel_afterCmd (v : XferLocals) : pendingLabel (afterCmd v) = false := by
  unfold afterCmd; split <;> rfl

/-- After T0 TRANSFER is not pending yet. -/
theorem pendingLabel_afterEncode (v : XferLocals) : pendingLabel (afterEncode v) = false := by
  unfold afterEncode; split
  · exact pendingLabel_afterCmd v
  · rfl

/-- After T10 TRANSFER is not pending any more. -/
theorem pendingLabel_afterWait (k : Packet) (r : Code) : pendingLabel (afterWait k r) = false := by
  unfold afterWait; split
  · rfl
  · split <;> rfl

/-- A TRANSFER going on at a label with the same pending state. -/
theorem goto_transfer_view {k k' l l' v v'} {s : State} (hl : pendingLabel l' = pendingLabel l) :
    (s.goto (.transfer k' l' v')).view = s.viewAt (.transfer k l v) := by
  simp only [State.view, State.viewAt, State.goto, OpState.waiting, OpState.bundle, hl]

/-- T0 (R301). -/
theorem transferStart_view {k : Packet} {s s' : State} (ho : s.op = .idle) (h : transferStart k s = .next s') :
    s'.view = s.view := by
  unfold transferStart at h
  split at h
  · refine next_viewAt ho h ?_
    simp only [State.view, State.viewAt, State.goto, OpState.waiting, OpState.bundle, pendingLabel_afterEncode]
  · exact next_viewAt ho h rfl

/-- T8 ends the wait, times out or waits on; T10, still to come, ends the pending state (R307, R317). -/
theorem transferT8_view {k v} {s s' : State} (ho : s.op = .transfer k .t8 v) (h : transferT8 k v s = .next s') :
    s'.view = s.view := by
  unfold transferT8 at h
  split at h
  · exact next_viewAt ho h rfl
  · split at h
    · exact next_viewAt ho h rfl
    · exact next_view h rfl

/-- T17 reads the header of a transfer that is not pending any more (R312, R314). -/
theorem transferT17_view {k v} {s s' : State} (ho : s.op = .transfer k .t17 v) (h : transferT17 k v s = .next s') :
    s'.view = s.view := by
  refine withRead_view ho h fun w t h => ?_
  simp only at h
  split at h
  · split at h
    · exact next_view h rfl
    · refine next_view h (goto_transfer_view ?_)
      split <;> rfl
  · exact next_view h rfl

/-- T18 reads a byte of a transfer that is not pending any more (R313). -/
theorem transferT18_view {k v} {s s' : State} (ho : s.op = .transfer k .t18 v) (h : transferT18 k v s = .next s') :
    s'.view = s.view := by
  unfold transferT18 at h
  split at h
  · exact next_viewAt ho h rfl
  · refine withRead_view ho h fun w t h => next_view h (goto_transfer_view ?_)
    split <;> rfl

/-- T1 to T21: T3 makes the transfer pending and clears `diag`, T10 ends that, and no other step changes the view
(R303, R309, R317). -/
theorem transferStep_coreStep {k l v} {s s' : State} (ho : s.op = .transfer k l v)
    (h : transferStep k l v s = .next s') : CoreStep s.view s'.view := by
  cases l <;> simp only [transferStep] at h
  case t1 =>
    unfold transferT1 at h
    split at h
    · exact .of_eq (next_viewAt ho h (goto_transfer_view (pendingLabel_afterCmd v)))
    · exact .of_eq (withWrite_view ho h fun _ h => next_view h (goto_transfer_view (pendingLabel_afterEncode _)))
  case t2 =>
    unfold transferT2 at h
    split at h
    · exact .of_eq (next_viewAt ho h rfl)
    · exact .of_eq (withWrite_view ho h fun _ h => next_view h (goto_transfer_view (pendingLabel_afterCmd _)))
  case t3 =>
    cases h
    rw [← State.viewAt_op ho]
    exact .arms _
  case t10 =>
    obtain ⟨t, hw, h⟩ := withWrite_next h
    have hc := writeReg_core hw
    rw [← hc.view, ← State.viewAt_op (hc.op.trans ho)]
    have hv : s'.view = { t.viewAt (.transfer k .t10 v) with pending := false, waiting := false } :=
      next_view h (by
        simp only [State.view, State.viewAt, State.goto, OpState.waiting, OpState.bundle, pendingLabel_afterWait])
    exact hv ▸ .disarms _
  case t8 => exact .of_eq (transferT8_view ho h)
  case t17 => exact .of_eq (transferT17_view ho h)
  case t18 => exact .of_eq (transferT18_view ho h)
  case t13 | t21 => exact .of_eq (next_viewAt ho h rfl)
  case t9 | t11 | t14 => exact .of_eq (withRead_view ho h fun _ _ h => next_view h rfl)
  case t4 | t5 | t6 | t7 | t12 | t15 | t16 => exact .of_eq (withWrite_view ho h fun _ h => next_view h rfl)

/-- TRANSFER (R300). -/
theorem execTransfer_coreStep {k : Packet} {s s' : State} (h : execTransfer k s = .next s') :
    CoreStep s.view s'.view := by
  unfold execTransfer at h
  split at h
  · exact .of_eq (transferStart_view ‹_› h)
  · split at h
    · subst k; exact transferStep_coreStep ‹_› h
    · exact .of_eq (next_view h (State.hold_view _ _))
  · exact .of_eq (next_view h (State.hold_view _ _))

/-- A signal changes the slot alone (R346). -/
theorem raiseSignal_view (s : State) (g : Signal) : (s.raiseSignal g).view = s.view := by
  simp only [State.view, State.raiseSignal_params, State.raiseSignal_cfg, State.raiseSignal_bundle,
    State.raiseSignal_xfer, State.raiseSignal_diag, State.raiseSignal_op]

/-- Waking a transfer changes the slot alone (R344). -/
theorem wake_view (w : Word) (s : State) : (wake w s).view = s.view := by
  unfold wake
  simp only
  split
  · exact raiseSignal_view s _
  · split
    · exact raiseSignal_view s _
    · rfl

/-- `classify` adds the errors it finds to `diag` (R343). -/
theorem classify_view (w : Word) (s : State) :
    (classify w s).view =
      { s.view with diag := s.diag ||| errMask s.params.regMap (errorsIn s.params.regMap w) } :=
  wake_view w (reportErrors w s)

/-- The classifier (R341). -/
theorem classifierStep_coreStep {s s' : State} (h : classifierStep s = .next s') : CoreStep s.view s'.view := by
  unfold classifierStep at h
  split at h
  · split at h <;> exact .of_eq (next_view h rfl)
  · obtain ⟨w, t, hr, h⟩ := withRead_next h
    exact .of_eq ((next_view h rfl).trans (readReg_core hr).view)
  · obtain ⟨t, hw, h⟩ := withWrite_next h
    exact .of_eq ((next_view h rfl).trans (writeReg_core hw).view)
  · cases h
    exact classify_view s.clsWord s ▸ .reports _ s.clsWord

/-- What an instruction's step does to the core's registers. -/
theorem exec_coreStep {i : Instr} {s s' : State} (h : exec i s = .next s') : CoreStep s.view s'.view := by
  cases i
  case configure c => exact whenIdle_coreStep h configureRun_coreStep
  case timingCompute => exact whenIdle_coreStep h fun ho h => .of_eq (timingComputeRun_view ho h)
  case programTiming => exact execProgramTiming_coreStep h
  case encode => exact whenIdle_coreStep h fun ho h => .of_eq (encodeRun_view ho h)
  case ulpsEnter => exact .of_eq (ulpsSeq_view h)
  case ulpsExit => exact .of_eq (ulpsSeq_view h)
  case transfer => exact execTransfer_coreStep h
  case phyState => exact whenIdle_coreStep h fun ho h => .of_eq (phyStateRun_view ho h)
  case irqClassify => exact classifierStep_coreStep h
  case read32 => exact .of_eq (execRead32_core h).view
  case write32 => exact .of_eq (execWrite32_core h).view
  all_goals exact .of_eq (accessReg_core h).view

/-- The environment drives none of the core's registers (R195 to R198). -/
theorem envStep_view (e : EnvStep) (s : State) : (envStep e s).view = s.view := by
  obtain ⟨c, hz, l, h⟩ := envStep_core e s
  rw [h]; rfl

/-- What a step of the machine does to the core's registers: a step of `CoreStep`, or the core's reset. -/
theorem step_coreStep {s s' : State} (h : step s = .next s') :
    CoreStep s.view s'.view ∨ (chosen s = .reset ∧ s'.view = s.coreReset.view) := by
  cases step_cases h with
  | goesOn d i hc hi h => exact .inl (exec_coreStep h :)
  | accepts d r i hc ho hr hd h => exact .inl (exec_coreStep h :)
  | classifies hc h => exact .inl (exec_coreStep h :)
  | bus t i hc hd h => exact .inl (exec_coreStep h :)
  | mmio t i hc hd h => exact .inl (exec_coreStep h :)
  | waits d hc ho hr h => subst h; exact .inl (.keeps s.view)
  | env e hc h => subst h; exact .inl (.of_eq (envStep_view e _))
  | presents r hc h => subst h; exact .inl (.keeps s.view)
  | resets hc h => subst h; exact .inr ⟨hc, rfl⟩

/-! ### The configuration -/

/-- Settles O53: the one step that stores a configuration is CONFIGURE's, of an unconfigured core. -/
theorem configurationSetOnce : Obligations.ConfigurationSetOnce := by
  intro s s' h hc
  obtain hs | ⟨hr, -⟩ := step_coreStep h
  · exact .inl (hs.cfg_of_configured hc)
  · exact .inr hr

/-! ### The invariants of the core's registers -/

/-- An invariant of the view that `CoreStep` keeps and the core's reset meets holds after every step. -/
theorem step_keeps_view {P : CoreView → Prop} (hstep : ∀ {v v'}, CoreStep v v' → P v → P v')
    (hreset : ∀ s : State, P s.coreReset.view) {s s' : State} (h : step s = .next s') (hs : P s.view) : P s'.view := by
  obtain hc | ⟨-, hv⟩ := step_coreStep h
  · exact hstep hc hs
  · exact hv ▸ hreset s

/-- `ConfigLegal` of the view. -/
def CoreView.ConfigLegal (v : CoreView) : Prop :=
  v.cfg.configured = true → 1 ≤ v.cfg.lanes ∧ v.cfg.lanes ≤ v.params.maxLanes ∧ v.cfg.channel ≤ 3

/-- CONFIGURE checks what it stores (R240). -/
theorem CoreStep.configLegal {v v' : CoreView} (h : CoreStep v v') (hv : v.ConfigLegal) : v'.ConfigLegal := by
  cases h with
  | configures c hn hl hm hc => exact fun _ => ⟨hl, hm, hc⟩
  | keeps | computes | stores | arms | disarms | reports => exact hv

/-- Every step keeps a configured core legal (R32). -/
theorem step_configLegal {s s' : State} (h : step s = .next s') (hs : ConfigLegal s) : ConfigLegal s' :=
  step_keeps_view CoreStep.configLegal (fun _ hc => nomatch hc) h hs

/-- A bit of `errMask` is a bit of one of the errors. -/
theorem getLsbD_errMask (m : RegMap) (bs : List ErrBit) (i : Nat) :
    (errMask m bs).getLsbD i = bs.any fun b => (b.mask m).getLsbD i := by
  have h : ∀ w : Word, (bs.foldl (fun w b => w ||| b.mask m) w).getLsbD i =
      (w.getLsbD i || bs.any fun b => (b.mask m).getLsbD i) := by
    induction bs with
    | nil => simp
    | cons b bs ih => simp [ih, Bool.or_assoc]
  simp [errMask, h]

/-- The errors classified are always-on bits (R44, R343). -/
theorem errMask_errorsIn_alwaysOn (m : RegMap) (w : Word) : errMask m (errorsIn m w) &&& ~~~alwaysOn m = 0 := by
  apply BitVec.eq_of_getLsbD_eq
  intro i hi
  have hsub : (errMask m (errorsIn m w)).getLsbD i = true → (alwaysOn m).getLsbD i = true := by
    simp only [alwaysOn, getLsbD_errMask, List.any_eq_true, errorsIn, List.mem_filter]
    rintro ⟨b, ⟨hb, -⟩, hbit⟩
    exact ⟨b, hb, hbit⟩
  simpa [hi] using hsub

/-- `DiagAlwaysOn` of the view. -/
def CoreView.DiagAlwaysOn (v : CoreView) : Prop := v.diag &&& ~~~alwaysOn v.params.regMap = 0

/-- `classify` adds always-on bits, and T3 clears all (R303, R343). -/
theorem CoreStep.diagAlwaysOn {v v' : CoreView} (h : CoreStep v v') (hv : v.DiagAlwaysOn) : v'.DiagAlwaysOn := by
  cases h with
  | reports w =>
    unfold CoreView.DiagAlwaysOn at hv ⊢
    rw [BitVec.and_or_distrib_right, hv, errMask_errorsIn_alwaysOn]
    rfl
  | arms => exact BitVec.zero_and
  | keeps | configures | computes | stores | disarms => exact hv

/-- Every step keeps `diag` within the always-on bits (R55). -/
theorem step_diagAlwaysOn {s s' : State} (h : step s = .next s') (hs : DiagAlwaysOn s) : DiagAlwaysOn s' :=
  step_keeps_view CoreStep.diagAlwaysOn (fun _ => BitVec.zero_and) h hs

/-- `PendingTracksTransfer` of the view. -/
def CoreView.PendingTracks (v : CoreView) : Prop := v.pending = v.waiting

/-- T3 and T10 move both together (R317). -/
theorem CoreStep.pendingTracks {v v' : CoreView} (h : CoreStep v v') (hv : v.PendingTracks) : v'.PendingTracks := by
  cases h with
  | arms | disarms => exact rfl
  | keeps | configures | computes | stores | reports => exact hv

/-- Every step keeps `xfer.pending` true exactly between T3 and T10 (R317). -/
theorem step_pendingTracksTransfer {s s' : State} (h : step s = .next s') (hs : PendingTracksTransfer s) :
    PendingTracksTransfer s' := by
  rw [PendingTracksTransfer, transferPending_eq] at hs ⊢
  exact step_keeps_view CoreStep.pendingTracks (fun _ => rfl) h hs

/-- Settles O57, one invariant at a time. -/
theorem stepsKeepCoreRegistersLegal : Obligations.StepsKeepCoreRegistersLegal := fun _ _ h =>
  ⟨step_configLegal h, step_diagAlwaysOn h, step_pendingTracksTransfer h⟩

/-- `BundlesWhole` of the view. -/
def CoreView.BundlesWhole (v : CoreView) : Prop :=
  (∀ b, v.bundle = some b → BundleWhole v.params b) ∧ ∀ b, v.running = some b → BundleWhole v.params b

/-- The running bundle of the view is PROGRAM_TIMING's (R220). -/
theorem bundlesWhole_iff (s : State) : BundlesWhole s ↔ s.view.BundlesWhole := by
  have hrun : (∀ l b, s.op = .programTiming l b → BundleWhole s.params b) ↔
      ∀ b, s.op.bundle = some b → BundleWhole s.params b := by
    simp only [OpState.bundle_eq_some, forall_exists_index]
    exact forall_comm
  exact and_congr_right fun _ => hrun

/-- P0 computes a whole bundle, and P9 stores the one PROGRAM_TIMING ran with (R220). -/
theorem CoreStep.bundlesWhole {v v' : CoreView} (h : CoreStep v v') (hv : v.BundlesWhole) : v'.BundlesWhole := by
  obtain ⟨hstored, hrunning⟩ := hv
  cases h with
  | computes b hb => exact ⟨hstored, fun _ h => Option.some.inj h ▸ hb⟩
  | stores b hb => exact ⟨fun _ h => Option.some.inj h ▸ hrunning b hb, fun _ h => nomatch h⟩
  | keeps | configures | arms | disarms | reports => exact ⟨hstored, hrunning⟩

/-- Settles O59 over the view. -/
theorem stepsKeepBundlesWhole : Obligations.StepsKeepBundlesWhole := by
  intro s s' hs h
  rw [bundlesWhole_iff] at hs ⊢
  exact step_keeps_view CoreStep.bundlesWhole (fun _ => ⟨(fun _ h => nomatch h), (fun _ h => nomatch h)⟩) h hs

/-! ### The invariants of the controller -/

/-- An invariant of the controller under the parameters that reads, writes and the environment keep holds after every
step: no other part of a step touches the controller. -/
theorem step_keeps_controller {P : Params → Controller → Prop}
    (hread : ∀ {r s t v}, readReg r s = .ok (v, t) → P s.params s.ctl → P t.params t.ctl)
    (hwrite : ∀ {r v s t}, writeEffect r v s = .ok t → P s.params s.ctl → P t.params t.ctl)
    (henv : ∀ e s, P s.params s.ctl → P (envStep e s).params (envStep e s).ctl)
    {s s' : State} (h : step s = .next s') (hs : P s.params s.ctl) : P s'.params s'.ctl := by
  have hexec : ∀ {i : Instr} {s : State}, exec i s = .next s' → P s.params s.ctl → P s'.params s'.ctl := by
    intro i s h hs
    obtain ⟨t, ha, hp⟩ := exec_accesses h
    rw [hp.params, hp.ctl]
    rcases ha with rfl | ⟨r, v, hr⟩ | ⟨r, v, hw⟩
    · exact hs
    · exact hread hr hs
    · obtain ⟨u, hu, rfl⟩ := writeReg_ok hw
      exact (hwrite hu hs : P u.params u.ctl)
  cases step_cases h with
  | goesOn d i hc hi h => exact hexec h hs
  | accepts d r i hc ho hr hd h => exact hexec h hs
  | classifies hc h => exact hexec h hs
  | bus t i hc hd h => exact hexec h hs
  | mmio t i hc hd h => exact hexec h hs
  | waits d hc ho hr h => subst h; exact hs
  | env e hc h => subst h; exact henv e _ hs
  | presents r hc h => subst h; exact hs
  | resets hc h => subst h; exact hs

/-- `QueuesBounded` of the controller (R50). -/
def Controller.QueuesBounded (p : Params) (c : Controller) : Prop :=
  c.cmdQ.length ≤ p.cmdFifoDepth ∧ c.pixQ.length ≤ p.pixFifoDepth ∧ ∀ d, p.rxFifoDepth = some d → c.rxQ.length ≤ d

/-- Queues that have not grown are still bounded. -/
theorem Controller.QueuesBounded.mono {p : Params} {c c' : Controller} (h : c.QueuesBounded p)
    (hcmd : c'.cmdQ.length ≤ c.cmdQ.length) (hpix : c'.pixQ.length ≤ c.pixQ.length)
    (hrx : c'.rxQ.length ≤ c.rxQ.length) : c'.QueuesBounded p := by
  obtain ⟨hcmdQ, hpixQ, hrxQ⟩ := h
  exact ⟨hcmd.trans hcmdQ, hpix.trans hpixQ, fun d hd => hrx.trans (hrxQ d hd)⟩

/-- A read at most pops the response queue (R189). -/
theorem readReg_queuesBounded {r s t v} (h : readReg r s = .ok (v, t)) (hs : s.ctl.QueuesBounded s.params) :
    t.ctl.QueuesBounded t.params := by
  obtain ⟨-, ht⟩ := readReg_ok h
  have hrx : t.ctl.rxQ.length ≤ s.ctl.rxQ.length := by
    rw [ht]; exact (readValue_rxQ_suffix r s).length_le
  rw [(readReg_same h).eq]
  exact hs.mono le_rfl le_rfl hrx

/-- A push checks for room (R187, R188). -/
theorem pushTx_queuesBounded {q v s t} (h : pushTx q v s = .ok t) (hs : s.ctl.QueuesBounded s.params) :
    t.ctl.QueuesBounded t.params := by
  obtain ⟨hcmd, hpix, hrx⟩ := hs
  cases q <;> simp only [pushTx] at h <;> split at h
  · cases h
  · cases h
    exact ⟨by simp only [List.length_append, List.length_singleton]; omega, hpix, hrx⟩
  · cases h
  · cases h
    exact ⟨hcmd, by simp only [List.length_append, List.length_singleton]; omega, hrx⟩

/-- A write of CTRL empties queues (R186). -/
theorem writeCtrl_queuesBounded {v s} (hs : s.ctl.QueuesBounded s.params) :
    (writeCtrl v s).ctl.QueuesBounded (writeCtrl v s).params := by
  refine hs.mono ?_ ?_ ?_ <;> simp only [writeCtrl] <;> split <;> simp

/-- Writing a register leaves the queues as they are. -/
theorem setReg_queuesBounded {p : Params} {c : Controller} (r : RegName) (v : Word) (hc : c.QueuesBounded p) :
    (c.setReg r v).QueuesBounded p := by
  obtain ⟨hcmd, hpix, hrx, -⟩ := c.setReg_rest r v
  exact hc.mono (by rw [hcmd]) (by rw [hpix]) (by rw [hrx])

/-- A write of TXPKT1C leaves the queues as they are (R185). -/
theorem writeTxpkt1c_queuesBounded {v s} (hs : s.ctl.QueuesBounded s.params) :
    (writeTxpkt1c v s).ctl.QueuesBounded (writeTxpkt1c v s).params := by
  unfold writeTxpkt1c
  simp only
  split <;> exact hs

/-- A write pushes with room, empties queues, or leaves them (R181). -/
theorem writeEffect_queuesBounded {r v s t} (h : writeEffect r v s = .ok t) (hs : s.ctl.QueuesBounded s.params) :
    t.ctl.QueuesBounded t.params := by
  unfold writeEffect at h
  split at h
  · cases h; exact setReg_queuesBounded r v hs
  · cases h
  · cases h; exact setReg_queuesBounded r _ hs
  · cases h; exact writeTxpkt1c_queuesBounded hs
  · cases h; exact writeCtrl_queuesBounded hs
  · exact pushTx_queuesBounded h hs
  · cases h

/-- The bytes a response step appends fit (R197). -/
theorem rxAccepted_fits {p : Params} {q bytes : List Byte} {d : Nat} (hd : p.rxFifoDepth = some d)
    (hq : q.length ≤ d) : (q ++ rxAccepted p q bytes).length ≤ d := by
  simp only [rxAccepted, hd, List.length_append, List.length_take]
  omega

/-- A transmit step takes from the queues (R196). -/
theorem transmitStep_queuesBounded {s : State} (k m : Nat) (done : Bool) (hs : s.ctl.QueuesBounded s.params) :
    (transmitStep k m done s).ctl.QueuesBounded (transmitStep k m done s).params := by
  unfold transmitStep
  simp only
  split
  · split <;> exact hs.mono (by simp [State.setIntStat]) (by simp [State.setIntStat]) le_rfl
  · exact hs

/-- A response step appends what fits (R197). -/
theorem responseStep_queuesBounded {s : State} (header : Option Word) (bytes : List Byte) (rtf : Bool)
    (hs : s.ctl.QueuesBounded s.params) :
    (responseStep header bytes rtf s).ctl.QueuesBounded (responseStep header bytes rtf s).params := by
  obtain ⟨hcmd, hpix, hrx⟩ := hs
  unfold responseStep
  simp only
  split <;> exact ⟨hcmd, hpix, fun d hd => rxAccepted_fits hd (hrx d hd)⟩

/-- The environment keeps the queues within their capacities (R195 to R198). -/
theorem envStep_queuesBounded (e : EnvStep) (s : State) (hs : s.ctl.QueuesBounded s.params) :
    (envStep e s).ctl.QueuesBounded (envStep e s).params := by
  cases e with
  | transmit k m done => exact transmitStep_queuesBounded k m done hs
  | response header bytes rtf => exact responseStep_queuesBounded header bytes rtf hs
  | intStat | lanes | rate | sharedLine => exact hs

/-- Every step keeps the queues within their capacities (R50). -/
theorem step_queuesBounded {s s' : State} (h : step s = .next s') (hs : QueuesBounded s) : QueuesBounded s' :=
  step_keeps_controller (P := fun p c => c.QueuesBounded p) readReg_queuesBounded writeEffect_queuesBounded
    envStep_queuesBounded h hs

/-- `TransmitConsistent` of the controller (R51, R185). -/
def Controller.TransmitConsistent (p : Params) (c : Controller) : Prop :=
  (c.txActive = true → c.txStepped = false ∧ c.txCtl = c.txpkt1c) ∧
    (c.txActive = true ∨ c.txStepped = true → bitOf c.txpkt1c p.regMap.txpkt1c.cmdEn = true)

/-- A read leaves the transmit state and the control word as they are. -/
theorem readReg_transmitConsistent {r s t v} (h : readReg r s = .ok (v, t))
    (hs : s.ctl.TransmitConsistent s.params) : t.ctl.TransmitConsistent t.params := by
  rw [(readReg_same h).eq]; exact hs

/-- A register other than TXPKT1C is no part of the transmit state. -/
theorem setReg_transmitConsistent {p : Params} {c : Controller} {r : RegName} (v : Word) (hr : .txpkt1c ≠ r)
    (hc : c.TransmitConsistent p) : (c.setReg r v).TransmitConsistent p := by
  obtain ⟨-, -, -, hact, -, hctl, hstep, -⟩ := c.setReg_rest r v
  have hword : (c.setReg r v).txpkt1c = c.txpkt1c := c.reg_setReg_other v hr
  rwa [Controller.TransmitConsistent, hact, hctl, hstep, hword]

/-- A write of TXPKT1C starts a transmission on the word written if it has CMD_EN set, and else leaves none (R185). -/
theorem writeTxpkt1c_transmitConsistent (v : Word) (s : State) :
    (writeTxpkt1c v s).ctl.TransmitConsistent (writeTxpkt1c v s).params := by
  cases hv : bitOf v s.params.regMap.txpkt1c.cmdEn with
  | true => rw [writeTxpkt1c_start hv]; exact ⟨fun _ => ⟨rfl, rfl⟩, fun _ => hv⟩
  | false => rw [writeTxpkt1c_stop hv]; exact ⟨fun h => absurd h Bool.noConfusion, fun h => by simp at h⟩

/-- A push is no part of the transmit state. -/
theorem pushTx_transmitConsistent {q v s t} (h : pushTx q v s = .ok t) (hs : s.ctl.TransmitConsistent s.params) :
    t.ctl.TransmitConsistent t.params := by
  cases q <;> simp only [pushTx] at h <;> split at h <;> cases h <;> exact hs

/-- Of the writes, only that of TXPKT1C changes the transmit state (R185). -/
theorem writeEffect_transmitConsistent {r v s t} (h : writeEffect r v s = .ok t)
    (hs : s.ctl.TransmitConsistent s.params) : t.ctl.TransmitConsistent t.params := by
  have hr : classOf r = .rw ∨ classOf r = .w1c → .txpkt1c ≠ r := by
    rintro (hc | hc) rfl <;> cases hc
  unfold writeEffect at h
  split at h
  · cases h; exact setReg_transmitConsistent v (hr (.inl ‹_›)) hs
  · cases h
  · cases h; exact setReg_transmitConsistent _ (hr (.inr ‹_›)) hs
  · cases h; exact writeTxpkt1c_transmitConsistent v s
  · cases h; exact hs
  · exact pushTx_transmitConsistent h hs
  · cases h

/-- A transmit step ends the transmission of a word that had CMD_EN set (R196). -/
theorem transmitStep_transmitConsistent {s : State} (k m : Nat) (done : Bool)
    (hs : s.ctl.TransmitConsistent s.params) :
    (transmitStep k m done s).ctl.TransmitConsistent (transmitStep k m done s).params := by
  unfold transmitStep
  simp only
  split
  · have hword := hs.2 (.inl ‹_›)
    split <;> exact ⟨fun h => absurd h Bool.noConfusion, fun _ => hword⟩
  · exact hs

/-- Of the environment's steps, only the transmit step changes the transmit state (R195 to R198). -/
theorem envStep_transmitConsistent (e : EnvStep) (s : State) (hs : s.ctl.TransmitConsistent s.params) :
    (envStep e s).ctl.TransmitConsistent (envStep e s).params := by
  cases e with
  | transmit k m done => exact transmitStep_transmitConsistent k m done hs
  | response header bytes rtf => unfold envStep responseStep; simp only; split <;> exact hs
  | intStat | lanes | rate | sharedLine => exact hs

/-- Every step keeps the transmit state in agreement with the control word (R51, R185). -/
theorem step_transmitConsistent {s s' : State} (h : step s = .next s') (hs : TransmitConsistent s) :
    TransmitConsistent s' :=
  step_keeps_controller (P := fun p c => c.TransmitConsistent p) readReg_transmitConsistent
    writeEffect_transmitConsistent envStep_transmitConsistent h hs

/-- Settles O58, one invariant at a time. -/
theorem stepsKeepControllerConsistent : Obligations.StepsKeepControllerConsistent := fun _ _ h =>
  ⟨step_queuesBounded h, step_transmitConsistent h⟩

/-! ### The initial states -/

/-- Settles O54: `State.initial` gives each register its value of R56. -/
theorem resetValues : Obligations.ResetValues := fun _ _ _ =>
  ⟨rfl, rfl, rfl, rfl, rfl, rfl, rfl, rfl, rfl, rfl, rfl, rfl, rfl⟩

/-- Empty queues are within any capacity. -/
theorem State.initial_queuesBounded {p : Params} {c : Controller} (hz : Nat) (hc : c.cleanLaunch p) :
    QueuesBounded (State.initial p c hz) := by
  obtain ⟨hcmd, hpix, hrx, -⟩ := hc
  refine ⟨?_, ?_, fun d _ => ?_⟩ <;> simp [State.initial, hcmd, hpix, hrx]

/-- With no transmission and no transmit step, the transmit state asks nothing of the control word. -/
theorem State.initial_transmitConsistent {p : Params} {c : Controller} (hz : Nat) (hact : c.txActive = false)
    (hstep : c.txStepped = false) : TransmitConsistent (State.initial p c hz) :=
  ⟨fun h => absurd (h.symm.trans hact) Bool.noConfusion, fun h => by simp [State.initial, hact, hstep] at h⟩

/-- Settles O56: an initial state is unconfigured and idle, holds no bundle, and has `diag` 0. -/
theorem initialStatesMeetTheInvariants : Obligations.InitialStatesMeetTheInvariants := by
  refine ⟨fun p c hz hc hstep => ?_, by decide, rfl, rfl⟩
  have hact : c.txActive = false := by
    obtain ⟨-, -, -, -, -, -, h, -⟩ := hc
    exact h
  have hcfg : ConfigLegal (State.initial p c hz) := fun h => nomatch h
  have hbundles : BundlesWhole (State.initial p c hz) := ⟨fun _ h => (nomatch h), fun _ _ h => (nomatch h)⟩
  have htransfer : TransferSound (State.initial p c hz) := fun _ _ _ h => nomatch h
  exact ⟨hcfg, State.initial_queuesBounded hz hc, rfl, State.initial_transmitConsistent hz hact hstep, hbundles,
    htransfer, BitVec.zero_and⟩

end Sys2Proof.Machine
end

