-- ==== Sys2Proof/Proofs/Encoding.lean ====
section
/-! PROOFS. The statements of 30_encoding.md: the decoder and the encoder undo each other (R130, R131, R139, R144), the
illegal requests are refused (R140), and the controller words carry the fields they are assembled from (R134, R135, R137,
R138). -/

namespace Sys2Proof.Machine

open Sys2Proof

/-! ### Transactions -/

/-- The form of an access's transaction is the access (R139). -/
@[simp] theorem access_busAccess (off : Nat) (a : Access) : (busAccess off a).access = a := by cases a <;> rfl

/-- A transaction is the one of its form at its offset, if as a read it carries no data (R139). -/
theorem busAccess_access {t : BusAccess} (h : t.dir = 0 → t.data = 0) : busAccess t.off t.access = t := by
  obtain ⟨dir, off, data⟩ := t
  obtain rfl | rfl := (by decide : ∀ b : BitVec 1, b = 0 ∨ b = 1) dir
  · obtain rfl : data = 0 := h rfl
    rfl
  · rfl

/-- A bus transaction is the image of the row it decodes to (R139). -/
theorem encode_decodeBus (m : RegMap) (t : BusAccess) : encode m (decodeBus t) = .bus (busAccess t.off t.access) := by
  unfold decodeBus BusAccess.access
  split <;> rfl

/-- The image of a register's row is a transaction at the register's offset (R144). -/
theorem encode_mmioInstr (m : RegMap) (r : RegName) (a : Access) :
    encode m (mmioInstr r a) = .mmio (busAccess (m.offsetOf r) a) := by cases r <;> rfl

/-- A transaction at the offset of a register is its row, under a valid map (R144). -/
theorem decodeMmio_offsetOf {m : RegMap} (hm : m.offsetsValid = true) {t : BusAccess} {r : RegName}
    (ht : t.off = m.offsetOf r) : decodeMmio m t = .ok (mmioInstr r t.access) := by
  simp [decodeMmio, ht, nameAt_offsetOf hm]

/-- The image of a register's row decodes to the row, under a valid map (R144). -/
theorem decode_encode_mmioInstr {m : RegMap} (hm : m.offsetsValid = true) (r : RegName) (a : Access) :
    decode m (encode m (mmioInstr r a)) = .ok (mmioInstr r a) := by
  rw [encode_mmioInstr, decode, decodeMmio_offsetOf hm (Laws.Image.busAccess_off _ a), access_busAccess]

/-- An mmio transaction that decodes is at the offset of the register whose row it is (R144). -/
theorem decodeMmio_eq_ok {m : RegMap} {t : BusAccess} {i : Instr} (h : decodeMmio m t = .ok i) :
    ∃ r, m.offsetOf r = t.off ∧ i = mmioInstr r t.access := by
  unfold decodeMmio at h
  split at h
  · cases h; exact ⟨_, nameAt_offset ‹_›, rfl⟩
  · cases h

/-! ### Requests -/

/-- An operand record of the shape its operation selects is that of the request the instruction encodes to (R131). -/
theorem encode_of_decodeOperands (m : RegMap) {op : Nat} {ops : Operands} {i : Instr}
    (h : decodeOperands op ops = .ok i) : encode m i = .request ⟨BitVec.ofNat 32 op, ops⟩ := by
  unfold decodeOperands at h
  split at h <;> cases h <;> rfl

/-- The operation code is the request word's low four bits (R130). -/
theorem toNat_opField (w : Word) : (opField w).toNat = w.toNat % 16 := by
  simp [opField, BitVec.extractLsb'_toNat]

/-- The reserved field is the rest of the request word (R130). -/
theorem toNat_rsvField (w : Word) : (rsvField w).toNat = w.toNat / 16 := by
  have := w.isLt
  rw [rsvField, BitVec.extractLsb'_toNat, Nat.shiftRight_eq_div_pow]
  omega

/-- The reserved field is 0 when its natural value is. -/
theorem rsvField_eq_zero_iff (w : Word) : rsvField w = 0 ↔ w.toNat / 16 = 0 := by
  rw [← toNat_rsvField]
  exact BitVec.toNat_inj.symm

/-- Beyond the first reason of R372, a legal operation is decoded by its reserved field and its operands. -/
theorem decodeRequest_of_legalOp {r : Request} (h₁ : 1 ≤ r.word.toNat % 16) (h₈ : r.word.toNat % 16 ≤ 8) :
    decodeRequest r = if rsvField r.word ≠ 0 then .error .rsvNonzero
      else decodeOperands (r.word.toNat % 16) r.operands := by
  rw [← toNat_opField] at h₁ h₈ ⊢
  refine if_neg (not_or.mpr ⟨fun h0 => ?_, Nat.not_le.mpr (Nat.lt_succ_of_le h₈)⟩)
  simp [h0] at h₁

/-- The request word of a legal operation is decoded by its operands (R130). -/
theorem decodeRequest_ofNat {op : Nat} (h₁ : 1 ≤ op) (h₈ : op ≤ 8) (ops : Operands) :
    decodeRequest ⟨BitVec.ofNat 32 op, ops⟩ = decodeOperands op ops := by
  have hop : (BitVec.ofNat 32 op).toNat = op := (BitVec.toNat_ofNat ..).trans (Nat.mod_eq_of_lt (by omega))
  have hmod : op % 16 = op := Nat.mod_eq_of_lt (by omega)
  have hrsv : rsvField (BitVec.ofNat 32 op) = 0 := by rw [rsvField_eq_zero_iff, hop]; omega
  rw [decodeRequest_of_legalOp (by simp only [hop]; omega) (by simp only [hop]; omega), if_neg (not_not.mpr hrsv), hop,
    hmod]

/-- With no reserved bit set the word is its operation code (R130). -/
theorem ofNat_opField {w : Word} (h : rsvField w = 0) : BitVec.ofNat 32 (opField w).toNat = w := by
  have hrsv : w.toNat / 16 = 0 := by rw [← toNat_rsvField, h]; rfl
  apply BitVec.eq_of_toNat_eq
  rw [BitVec.toNat_ofNat, toNat_opField]
  omega

/-- A request that decodes is the encoding of its instruction: every bit of its word is fixed (R130, R141). -/
theorem encode_of_decodeRequest (m : RegMap) {r : Request} {i : Instr} (h : decodeRequest r = .ok i) :
    encode m i = .request r := by
  unfold decodeRequest at h
  split at h
  · cases h
  split at h
  · cases h
  case _ hrsv =>
    rw [encode_of_decodeOperands m h, ofNat_opField (not_not.mp hrsv)]

/-! ### The decoder and the encoder -/

/-- Settles O2: a request by its operands, a bus row by its direction, and an mmio row by the register its offset
names. -/
theorem decodeOfEncodeIsTheInstruction : Obligations.DecodeOfEncodeIsTheInstruction := by
  intro m hm i
  cases i with
  | configure => exact decodeRequest_ofNat (op := 0x1) (by decide) (by decide) _
  | timingCompute => exact decodeRequest_ofNat (op := 0x2) (by decide) (by decide) _
  | programTiming => exact decodeRequest_ofNat (op := 0x3) (by decide) (by decide) _
  | encode => exact decodeRequest_ofNat (op := 0x4) (by decide) (by decide) _
  | ulpsEnter => exact decodeRequest_ofNat (op := 0x5) (by decide) (by decide) _
  | ulpsExit => exact decodeRequest_ofNat (op := 0x6) (by decide) (by decide) _
  | transfer => exact decodeRequest_ofNat (op := 0x7) (by decide) (by decide) _
  | phyState => exact decodeRequest_ofNat (op := 0x8) (by decide) (by decide) _
  | irqClassify => rfl
  | read32 | write32 => rfl
  | mmioCtrl a => exact decode_encode_mmioInstr hm .ctrl a
  | mmioTxpkt1c a => exact decode_encode_mmioInstr hm .txpkt1c a
  | mmioTxpkt1h a => exact decode_encode_mmioInstr hm .txpkt1h a
  | mmioRxpkt1h a => exact decode_encode_mmioInstr hm .rxpkt1h a
  | mmioTxpktCmdFifo a => exact decode_encode_mmioInstr hm .cmdFifo a
  | mmioTxpktPixFifo a => exact decode_encode_mmioInstr hm .pixFifo a
  | mmioRxpktFifo a => exact decode_encode_mmioInstr hm .rxFifo a
  | mmioIntStat a => exact decode_encode_mmioInstr hm .intStat a
  | mmioIntEn a => exact decode_encode_mmioInstr hm .intEn a
  | mmioStat a => exact decode_encode_mmioInstr hm .stat a
  | mmioPhyc a => exact decode_encode_mmioInstr hm .phyc a
  | mmioHsClt0 a => exact decode_encode_mmioInstr hm .hsClt0 a
  | mmioHsClt1 a => exact decode_encode_mmioInstr hm .hsClt1 a
  | mmioHsClt2 a => exact decode_encode_mmioInstr hm .hsClt2 a
  | mmioHsDlt3 a => exact decode_encode_mmioInstr hm .hsDlt3 a
  | mmioHsDlt4 a => exact decode_encode_mmioInstr hm .hsDlt4 a
  | mmioHsDlt5 a => exact decode_encode_mmioInstr hm .hsDlt5 a
  | mmioHsDlt6 a => exact decode_encode_mmioInstr hm .hsDlt6 a
  | mmioHsDlt7 a => exact decode_encode_mmioInstr hm .hsDlt7 a
  | mmioPhyAfec0 a => exact decode_encode_mmioInstr hm .phyAfec0 a

/-- Settles O3, format by format. -/
theorem encodeOfDecodeIsTheImage : Obligations.EncodeOfDecodeIsTheImage := by
  intro m img i h hread
  cases img with
  | request r => exact encode_of_decodeRequest m h
  | event => cases h; rfl
  | bus t =>
    cases h
    rw [encode_decodeBus, busAccess_access (hread t (.inl rfl))]
  | mmio t =>
    obtain ⟨r, hoff, rfl⟩ := decodeMmio_eq_ok h
    rw [encode_mmioInstr, hoff, busAccess_access (hread t (.inr rfl))]

/-- Settles O1: the requests and the event are images of their instructions (O2), and the twenty rows written out are
those of the register names at their offsets of the default map (R36). -/
theorem imagesSelectTheirInstruction : Obligations.ImagesSelectTheirInstruction := by
  have himage := decodeOfEncodeIsTheInstruction .dsi1 dsi1_offsetsValid
  refine ⟨fun c => himage (.configure c), fun hz => himage (.timingCompute hz), himage .programTiming,
    fun k => himage (.encode k), himage .ulpsEnter, himage .ulpsExit, fun k => himage (.transfer k), himage .phyState,
    himage .irqClassify, fun _ _ => rfl, fun _ _ => rfl, fun row hrow => ?_⟩
  obtain ⟨r, -, rfl⟩ : ∃ r ∈ RegName.all, (RegMap.dsi1.offsetOf r, mmioInstr r) = row := List.mem_map.mp hrow
  exact ⟨fun _ => decodeMmio_offsetOf dsi1_offsetsValid rfl, fun _ => decodeMmio_offsetOf dsi1_offsetsValid rfl⟩

/-! ### The illegal requests -/

/-- The operand record has the shape its operation selects (R131). -/
def Operands.LegalFor (op : Nat) (ops : Operands) : Prop :=
  (op = 1 ∧ ∃ c, ops = .config c) ∨ (op = 2 ∧ ∃ hz, ops = .rate hz) ∨
  ((op = 3 ∨ op = 5 ∨ op = 6 ∨ op = 8) ∧ ops = .none) ∨ ((op = 4 ∨ op = 7) ∧ ∃ k, ops = .packet k)

/-- Any other record is refused (R140). -/
theorem decodeOperands_of_not_legalFor {op : Nat} {ops : Operands} (h : ¬ Operands.LegalFor op ops) :
    decodeOperands op ops = .error .badOperands := by
  unfold decodeOperands
  split
  case h_9 => rfl
  all_goals exact absurd (by simp [Operands.LegalFor]) h

/-- The first reason of R372. -/
theorem decodeRequest_reservedOp {r : Request} (h : r.word.toNat % 16 = 0 ∨ 9 ≤ r.word.toNat % 16) :
    decodeRequest r = .error .reservedOp := by
  rw [← toNat_opField] at h
  exact if_pos (h.imp_left fun h0 => BitVec.eq_of_toNat_eq h0)

/-- An idle engine answers a request it cannot decode with its refusal (R372). -/
theorem step_of_decodeRequest_error {s : State} {d : Bool} {r : Request} {e : DecodeError} (ho : s.op = .idle)
    (hp : s.port = some r) (hc : chosen s = .engine d) (he : decodeRequest r = .error e) : step s = rejected e := by
  rw [step_of_chosen hc]
  simp [choiceStep, engineStep, ho, hp, he, OpState.instr]

/-- Settles O4, one reason of R372 after the other. -/
theorem illegalRequestsAreRefused : Obligations.IllegalRequestsAreRefused := by
  intro s d r ho hp hc
  refine ⟨fun hop => ?_, fun h₁ h₈ hrsv => ?_, fun h₁ h₈ hrsv hshape => ?_⟩
  · exact step_of_decodeRequest_error ho hp hc (decodeRequest_reservedOp hop)
  · refine step_of_decodeRequest_error ho hp hc ((decodeRequest_of_legalOp h₁ h₈).trans (if_pos ?_))
    exact (rsvField_eq_zero_iff _).not.mpr hrsv
  · refine step_of_decodeRequest_error (e := .badOperands) ho hp hc ((decodeRequest_of_legalOp h₁ h₈).trans ?_)
    rw [if_neg (not_not.mpr ((rsvField_eq_zero_iff _).mpr hrsv))]
    exact decodeOperands_of_not_legalFor hshape

/-! ### Fields of a word (R14) -/

/-- A field holds the bits of its value from its lowest position up, and nothing elsewhere. -/
theorem getLsbD_setField {f : Field} (hf : f.lo ≤ f.hi) (hw : f.hi < 32) (v i : Nat) :
    (setField f v).getLsbD i = (decide (f.lo ≤ i) && decide (i ≤ f.hi) && v.testBit (i - f.lo)) := by
  simp only [setField, fieldWidth, BitVec.getLsbD_shiftLeft, BitVec.getLsbD_ofNat, Nat.testBit_mod_two_pow]
  grind

/-- What is read back from a part of a field is that part of its value. -/
theorem extractLsb'_setField_of_within {f : Field} {s n : Nat} (hs : f.lo ≤ s) (hn : s + n ≤ f.hi + 1)
    (hw : f.hi < 32) (v : Nat) : (setField f v).extractLsb' s n = BitVec.ofNat n (v >>> (s - f.lo)) := by
  apply BitVec.eq_of_getLsbD_eq
  intro i hi
  have hbit : s + i - f.lo = s - f.lo + i := by omega
  rw [BitVec.getLsbD_extractLsb', getLsbD_setField (by omega) hw, BitVec.getLsbD_ofNat, Nat.testBit_shiftRight, hbit]
  grind

/-- What is read back from beside a field is 0. -/
theorem extractLsb'_setField_of_apart {f : Field} {s n : Nat} (hf : f.lo ≤ f.hi) (hw : f.hi < 32)
    (h : s + n ≤ f.lo ∨ f.hi < s) (v : Nat) : (setField f v).extractLsb' s n = 0 := by
  apply BitVec.eq_of_getLsbD_eq
  intro i hi
  rw [BitVec.getLsbD_extractLsb', getLsbD_setField hf hw]
  grind

/-- A bit that is set under a condition is a field of one bit. -/
theorem ite_bit_eq_setField (c : Bool) (n : Nat) : (if c then bit n else 0) = setField ⟨n, n⟩ c.toNat := by
  cases c <;> simp [bit, setField, fieldWidth]

/-- A bit that is always set is a field of one bit. -/
theorem bit_eq_setField (n : Nat) : bit n = setField ⟨n, n⟩ 1 := ite_bit_eq_setField true n

/-! ### The timing words -/

/-- A value fits its field when it is less than the field's number of values (R219). -/
theorem fitsField_iff {f : Field} {v : Nat} : fitsField f v = true ↔ v < 2 ^ fieldWidth f := decide_eq_true_iff

/-- Settles O17: an extraction of bits takes from each field of a word that field's part, which is the whole value for the
field at these bits, as it fits, and 0 for a field beside them. -/
theorem timingWordsCarryTheirFields : Obligations.TimingWordsCarryTheirFields := by
  intro b f hfits
  simp only [fits, Bool.and_eq_true, fitsField_iff, f, RegMap.dsi1, TimingFields.dsi1, fieldWidth, Nat.reduceSub,
    Nat.reduceAdd, Nat.reducePow] at hfits
  simp [f, RegMap.dsi1, TimingFields.dsi1, clt0, clt1, clt2, dlt3, dlt4, dlt5, dlt6, dlt7, BitVec.extractLsb'_or,
    extractLsb'_setField_of_within, extractLsb'_setField_of_apart, hfits]

/-! ### Accepted packets -/

/-- What a packet needs to pass R246. -/
theorem checkConfig_eq_ok_iff {p : Params} {cfg : LinkConfig} {k : Packet} :
    checkConfig p cfg k = .ok ↔
      cfg.configured = true ∧ (1 ≤ cfg.lanes ∧ cfg.lanes ≤ p.maxLanes) ∧ k.channel ≤ 3 ∧ k.dataType ≤ 0x3F ∧
      (k.isLong = false → k.bytes.length ≤ 2) ∧ (k.expectsResponse = true ↔ k.rxLen ≠ 0) ∧ k.rxLen ≤ 65535 := by
  unfold checkConfig
  grind

/-- What a packet needs to pass R247. -/
theorem checkCapacity_eq_ok_iff {p : Params} {k : Packet} :
    checkCapacity p k = .ok ↔ (k.isLong = true →
      k.bytes.length ≤ 65535 ∧ pixCount p k ≤ p.pixFifoDepth ∧ cmdLen p k ≤ p.cmdFifoDepth) := by
  unfold checkCapacity
  grind

/-- A packet is accepted when it passes both checks (R245). -/
theorem encodeCode_eq_ok_iff {p : Params} {cfg : LinkConfig} {k : Packet} :
    encodeCode p cfg k = .ok ↔ checkConfig p cfg k = .ok ∧ checkCapacity p k = .ok := by
  unfold encodeCode
  split <;> simp_all

/-! ### The parts of a packet -/

/-- The data type does not run into the channel (R134). -/
theorem dtByte_eq {k : Packet} (h : k.dataType ≤ 0x3F) : dtByte k = k.channel * 64 + k.dataType := by
  rw [dtByte, ← Nat.shiftLeft_add_eq_or_of_lt (Nat.lt_succ_of_le h), Nat.shiftLeft_eq]

/-- The header's parameter of a long packet is its length (R134). -/
theorem headerParam_long {k : Packet} (h : k.isLong = true) : headerParam k = k.bytes.length := if_pos h

/-- The header's parameter of a short packet is its two bytes, the first one low (R134). -/
theorem headerParam_short {k : Packet} (h : k.isLong = false) :
    headerParam k = (byteAt k.bytes 1).toNat * 256 + (byteAt k.bytes 0).toNat := by
  rw [headerParam, h, if_neg Bool.false_ne_true, Nat.or_comm,
    ← Nat.shiftLeft_add_eq_or_of_lt (byteAt k.bytes 0).isLt, Nat.shiftLeft_eq]

/-- Bits 15:8 of a short packet's header are its first byte (R134). -/
theorem ofNat_headerParam_short {k : Packet} (h : k.isLong = false) :
    BitVec.ofNat 8 (headerParam k) = byteAt k.bytes 0 := by
  apply BitVec.eq_of_toNat_eq
  rw [BitVec.toNat_ofNat, headerParam_short h]
  omega

/-- Bits 23:16 of a short packet's header are its second byte (R134). -/
theorem ofNat_headerParam_short_high {k : Packet} (h : k.isLong = false) :
    BitVec.ofNat 8 (headerParam k / 256) = byteAt k.bytes 1 := by
  apply BitVec.eq_of_toNat_eq
  rw [BitVec.toNat_ofNat, headerParam_short h]
  omega

/-- A byte beyond the end of a list is 0 (R17). -/
theorem byteAt_eq (p : List Byte) (i : Nat) : byteAt p i = (p[i]?).getD 0 := List.getD_eq_getElem?_getD

/-- A short packet puts nothing in the command FIFO (R251). -/
theorem cmdLen_short {p : Params} {k : Packet} (h : k.isLong = false) : cmdLen p k = 0 := by simp [cmdLen, h]

/-- A short packet puts nothing in the pixel FIFO (R251). -/
theorem pixCount_short {p : Params} {k : Packet} (h : k.isLong = false) : pixCount p k = 0 := by simp [pixCount, h]

/-- There are no pixel words exactly when their number is 0. -/
theorem pixWordsOf_eq_nil_iff {p : Params} {k : Packet} : pixWordsOf p k = [] ↔ pixCount p k = 0 := by
  simp [pixWordsOf]

/-! ### The header and control words -/

/-- The header word of the default map as its three fields (R134, R39). -/
theorem headerWord_dsi1 {p : Params} (hmap : p.regMap = .dsi1) (k : Packet) :
    headerWord p k =
      setField ⟨7, 0⟩ (dtByte k) ||| setField ⟨23, 8⟩ (headerParam k) ||| setField ⟨31, 24⟩ (cmdLen p k) := by
  cases h : k.isLong <;> simp [headerWord, hmap, RegMap.dsi1, Txpkt1hBits.dsi1, cmdLen, h, setField]

/-- The control word of the default map as its six fields (R135, R38). -/
theorem controlWord_dsi1 {p : Params} (hmap : p.regMap = .dsi1) (k : Packet) :
    controlWord p k =
      setField ⟨23, 10⟩ p.cmdRepeat ||| setField ⟨9, 8⟩ (if 0 < pixCount p k then 2 else 0) |||
      setField ⟨5, 4⟩ (if k.expectsResponse then 1 else 0) ||| setField ⟨3, 3⟩ k.lp.toNat |||
      setField ⟨2, 2⟩ k.isLong.toNat ||| setField ⟨0, 0⟩ 1 := by
  rw [controlWord, ite_bit_eq_setField, ite_bit_eq_setField, bit_eq_setField, hmap]
  rfl

/-- What is read back from the header word of an encoded packet (R134, R251). -/
theorem header_fields {p : Params} (hmap : p.regMap = .dsi1) (k : Packet) :
    (encodePacket p k).header.extractLsb' 0 8 = BitVec.ofNat 8 (dtByte k) ∧
    (encodePacket p k).header.extractLsb' 8 16 = BitVec.ofNat 16 (headerParam k) ∧
    (encodePacket p k).header.extractLsb' 8 8 = BitVec.ofNat 8 (headerParam k) ∧
    (encodePacket p k).header.extractLsb' 16 8 = BitVec.ofNat 8 (headerParam k / 256) ∧
    (encodePacket p k).header.extractLsb' 24 8 = BitVec.ofNat 8 (cmdLen p k) := by
  simp [encodePacket, headerWord_dsi1 hmap, BitVec.extractLsb'_or, extractLsb'_setField_of_within,
    extractLsb'_setField_of_apart, Nat.shiftRight_eq_div_pow]

/-- What is read back from the wider fields of the control word of an encoded packet (R135). -/
theorem control_fields {p : Params} (hmap : p.regMap = .dsi1) (k : Packet) :
    (encodePacket p k).control.extractLsb' 24 8 = 0 ∧
    (encodePacket p k).control.extractLsb' 10 14 = BitVec.ofNat 14 p.cmdRepeat ∧
    (encodePacket p k).control.extractLsb' 8 2 = BitVec.ofNat 2 (if 0 < pixCount p k then 2 else 0) ∧
    (encodePacket p k).control.extractLsb' 6 2 = 0 ∧
    (encodePacket p k).control.extractLsb' 4 2 = BitVec.ofNat 2 (if k.expectsResponse then 1 else 0) := by
  simp [encodePacket, controlWord_dsi1 hmap, BitVec.extractLsb'_or, extractLsb'_setField_of_within,
    extractLsb'_setField_of_apart]

/-- The bits of the control word of an encoded packet below them: LP, LONG, CMD_TE_EN and CMD_EN (R135). -/
theorem control_bits {p : Params} (hmap : p.regMap = .dsi1) (k : Packet) :
    (encodePacket p k).control.getLsbD 3 = k.lp ∧ (encodePacket p k).control.getLsbD 2 = k.isLong ∧
    (encodePacket p k).control.getLsbD 1 = false ∧ (encodePacket p k).control.getLsbD 0 = true := by
  simp (disch := decide) only [encodePacket, controlWord_dsi1 hmap, BitVec.getLsbD_or, getLsbD_setField]
  simp [Nat.mod_eq_of_lt (Bool.toNat_lt _)]

/-- DISPLAY_NO is 2 exactly for a packet with pixel words (R248). -/
theorem ite_pixCount_eq (p : Params) (k : Packet) :
    (if 0 < pixCount p k then 2 else 0) = if pixWordsOf p k = [] then 0 else 2 := by
  simp only [pixWordsOf_eq_nil_iff, Nat.pos_iff_ne_zero, ite_not]

/-- Settles O23: what is read back from the fields of the two words are the packet's parts, and the checks of R246 and
R247 leave none too wide for its field. -/
theorem encodedWordsCarryTheirFields : Obligations.EncodedWordsCarryTheirFields := by
  intro p cfg k hmap hrep hwidth hcode
  obtain ⟨hcfg, hcap⟩ := encodeCode_eq_ok_iff.mp hcode
  obtain ⟨-, -, hchan, htype, -, -, -⟩ := checkConfig_eq_ok_iff.mp hcfg
  obtain ⟨hdt, hparam, hb0, hb1, hcmd⟩ := header_fields hmap k
  obtain ⟨htrig, hrepeat, hdisplay, htime, hctrl⟩ := control_fields hmap k
  refine ⟨?_, fun hlong => ⟨?_, ?_⟩, fun hshort => ⟨?_, ?_, ?_, ?_, ?_⟩, ?_, ?_, ?_, ?_, ?_, control_bits hmap k⟩
  · rw [hdt, BitVec.toNat_ofNat, dtByte_eq htype]
    omega
  · obtain ⟨hlen, -, -⟩ := checkCapacity_eq_ok_iff.mp hcap hlong
    rw [hparam, BitVec.toNat_ofNat, headerParam_long hlong]
    omega
  · rw [hcmd, BitVec.toNat_ofNat, cmdLen, if_pos hlong, hwidth]
    omega
  · simp [encodePacket, cmdBytesOf, hshort]
  · exact pixWordsOf_eq_nil_iff.mpr (pixCount_short hshort)
  · rw [hb0, ofNat_headerParam_short hshort, byteAt_eq]
  · rw [hb1, ofNat_headerParam_short_high hshort, byteAt_eq]
  · rw [hcmd, cmdLen_short hshort]
    rfl
  · rw [htrig]
    rfl
  · rw [hrepeat, hrep]
    rfl
  · rw [hdisplay, ite_pixCount_eq, encodePacket]
    split <;> rfl
  · rw [htime]
    rfl
  · rw [hctrl]
    split <;> rfl

/-! ### The lane masks -/

/-- Settles O24 by evaluation of each mask at each lane count. -/
theorem laneMaskTable : Obligations.LaneMaskTable := by
  unfold Obligations.LaneMaskTable
  decide

end Sys2Proof.Machine
end

