-- ==== Sys2Proof/Proofs/RegisterPort.lean ====
section
/-! PROOFS. The statements of 40_register_port.md: the row of each register (R182 to R189), the two bus rows (R180,
R181, R190), and the steps of the environment (R184, R195 to R198). -/

namespace Sys2Proof.Machine

open Sys2Proof

/-! ### The outcome of a register row -/

/-- The read form of a row answers the state after the read (R180). -/
theorem accessReg_read {r : RegName} {s t : State} {v : Word} (h : readReg r s = .ok (v, t)) :
    accessReg r .read s = .next t := withRead_ok h

/-- The write form of a row answers the state after the write (R181). -/
theorem accessReg_write {r : RegName} {v : Word} {s t : State} (h : writeReg r v s = .ok t) :
    accessReg r (.write v) s = .next t := withWrite_ok h

/-- The read form of a row faults as the read does (R190). -/
theorem accessReg_read_fault {r : RegName} {s : State} {f : Fault} (h : readReg r s = .error f) :
    accessReg r .read s = .fault f := by
  simp [accessReg, withRead, h]

/-- The write form of a row faults as the write does (R190). -/
theorem accessReg_write_fault {r : RegName} {v : Word} {s : State} {f : Fault} (h : writeReg r v s = .error f) :
    accessReg r (.write v) s = .fault f := by
  simp [accessReg, withWrite, h]

/-- The read form of a row records the value read at the register's offset (R139). -/
theorem accessReg_read_at {r : RegName} {s t : State} {v : Word} {off : Nat} (hoff : s.off r = off)
    (h : readReg r s = .ok (v, t)) :
    accessReg r .read s = .next { t with trace := s.trace ++ [⟨0, off, v⟩] } := by
  rw [accessReg_read h, ← hoff, ← readReg_trace h]

/-- The write form of a row records the value written at the register's offset (R139). -/
theorem accessReg_write_at {r : RegName} {v : Word} {s t : State} {off : Nat} (hoff : s.off r = off)
    (h : writeReg r v s = .ok t) :
    accessReg r (.write v) s = .next { t with trace := s.trace ++ [⟨1, off, v⟩] } := by
  have htrace : t.trace = s.trace ++ [⟨1, s.off r, v⟩] := congrArg State.trace (writeReg_same h)
  rw [accessReg_write h, ← hoff, ← htrace]

/-- The push ports are the two transmit FIFOs (R187, R188). -/
theorem classOf_ne_push {r : RegName} (hcmd : r ≠ .cmdFifo) (hpix : r ≠ .pixFifo) (q : TxQueue) :
    classOf r ≠ .push q := by
  cases r with
  | cmdFifo => exact absurd rfl hcmd
  | pixFifo => exact absurd rfl hpix
  | _ => exact AccessClass.noConfusion

/-- A read of a register other than the push ports returns its value, and records it (R180). -/
theorem readReg_of_value {r : RegName} {s t : State} {v : Word} (hcmd : r ≠ .cmdFifo) (hpix : r ≠ .pixFifo)
    (h : readValue r s = (v, t)) : readReg r s = .ok (v, t.logged 0 r v) := by
  rw [readReg_total s (classOf_ne_push hcmd hpix), h]

/-! ### The plain registers -/

/-- The value of a plain register is the register (R182). -/
theorem readValue_rw {r : RegName} (s : State) (h : classOf r = .rw) : readValue r s = (s.ctl.reg r, s) := by
  simp [readValue, h]

/-- Storing a value in a register and recording the write changes that register alone. -/
theorem onlyRegister_setReg (s : State) (r : RegName) (v : Word) :
    OnlyRegister s ({ s with ctl := s.ctl.setReg r v }.logged 1 r v) r ⟨1, s.off r, v⟩ :=
  ⟨rfl, fun _ hne => s.ctl.reg_setReg_other v hne, s.ctl.setReg_rest r v⟩

/-- Settles O43: the registers written out are of the class RW. -/
theorem plainRegisterRows : Obligations.PlainRegisterRows := by
  intro s r v hr
  obtain ⟨hc, hcmd, hpix⟩ : classOf r = .rw ∧ r ≠ .cmdFifo ∧ r ≠ .pixFifo := by revert r; decide
  rw [exec_mmio, exec_mmio]
  exact ⟨⟨_, accessReg_write (writeReg_rw v s hc), s.ctl.reg_setReg_self r v (.inl hc), onlyRegister_setReg s r v⟩,
    accessReg_read (readReg_of_value hcmd hpix (readValue_rw s hc))⟩

/-! ### The status registers and the response header -/

/-- A write of the response header faults (R183, R190). -/
theorem writeReg_rxpkt1h (v : Word) (s : State) :
    writeReg .rxpkt1h v s = .error (.writeOfReadOnly (s.off .rxpkt1h)) := rfl

/-- Settles O44, row by row. -/
theorem statusAndHeaderRows : Obligations.StatusAndHeaderRows := fun s v =>
  ⟨accessReg_write (writeReg_intStat v s), accessReg_read (readReg_intStat s), accessReg_write (writeReg_stat v s),
    accessReg_read (readReg_stat s), accessReg_read (readReg_rxpkt1h s),
    accessReg_write_fault (writeReg_rxpkt1h v s)⟩

/-! ### The control word and CTRL -/

/-- With no bit to draw the value itself is read. -/
theorem drawBits_of_eq_zero {mask : Word} (h : mask = 0) (w : Word) (s : State) : drawBits mask w s = (w, s) := if_pos h

/-- With bits to draw one draw is taken, and replaces them. -/
theorem drawBits_of_ne_zero {mask : Word} (h : mask ≠ 0) (w : Word) (s : State) :
    drawBits mask w s = (mixBits mask w (Config.draw s.draws), { s with draws := s.draws + 1 }) := if_neg h

/-- The offset of a register under the default map (R36). -/
theorem State.off_dsi1 {s : State} (hmap : s.params.regMap = .dsi1) (r : RegName) :
    s.off r = RegMap.dsi1.offsetOf r := by
  rw [State.off_eq, hmap]

/-- Before a transmit step no bit of the control word is drawn (R185). -/
theorem txpkt1cDrawn_of_not_stepped {s : State} (h : s.ctl.txStepped = false) : txpkt1cDrawn s = 0 := by
  simp [txpkt1cDrawn, h]

/-- After one bit 0 is, under the default map (R185, R38). -/
theorem txpkt1cDrawn_of_stepped {s : State} (hmap : s.params.regMap = .dsi1) (h : s.ctl.txStepped = true) :
    txpkt1cDrawn s = 1 := by
  rw [txpkt1cDrawn, if_pos h, hmap]
  rfl

/-- Settles O45: CMD_EN is bit 0, of the word written and of the word read. -/
theorem controlWordRow : Obligations.ControlWordRow := by
  intro s v hmap
  have hoff : s.off .txpkt1c = 0x04 := State.off_dsi1 hmap .txpkt1c
  have hen : bitOf v s.params.regMap.txpkt1c.cmdEn = v.getLsbD 0 := by rw [hmap]; rfl
  have hwrite := accessReg_write_at hoff (writeReg_txpkt1c v s)
  have hread {w t} (h : drawBits (txpkt1cDrawn s) s.ctl.txpkt1c s = (w, t)) :=
    accessReg_read_at hoff (readReg_of_value nofun nofun h)
  refine ⟨fun hv => ?_, fun hv => ?_, fun hstep => ?_, fun hstep => ?_⟩
  · rw [writeTxpkt1c_start (hen.trans hv)] at hwrite
    exact hwrite
  · rw [writeTxpkt1c_stop (hen.trans hv)] at hwrite
    exact hwrite
  · exact hread (drawBits_of_eq_zero (txpkt1cDrawn_of_not_stepped hstep) _ s)
  · rw [txpkt1cDrawn_of_stepped hmap hstep] at hread
    exact hread (drawBits_of_ne_zero (by decide) _ s)

/-- The clear bits of CTRL under the default map and mask are bits 7:4 (R186, R37). -/
theorem ctrlClearBits_dsi1 {p : Params} (hmap : p.regMap = .dsi1) (hmask : p.fifoResetMask = 0x00000070) :
    ctrlClearBits p = 0x000000F0 := by
  rw [ctrlClearBits, hmap, hmask]
  rfl

/-- Settles O46: the bits drawn are those the last write remembered. -/
theorem controlRegisterRow : Obligations.ControlRegisterRow := by
  intro s v hmap hmask
  have hoff : s.off .ctrl = 0x00 := State.off_dsi1 hmap .ctrl
  have hwrite := accessReg_write_at hoff (writeReg_ctrl v s)
  have hread {w t} (h : drawBits s.ctl.ctrlClears s.ctl.ctrl s = (w, t)) :=
    accessReg_read_at hoff (readReg_of_value nofun nofun h)
  refine ⟨?_, fun hc => ?_, fun hc => ?_⟩
  · rw [writeCtrl, ctrlClearBits_dsi1 hmap hmask, hmap] at hwrite
    exact hwrite
  · exact hread (drawBits_of_eq_zero hc _ s)
  · exact hread (drawBits_of_ne_zero hc _ s)

/-! ### The FIFO ports -/

/-- The low byte of a word is its bits 7:0 (R187). -/
theorem lowByte_eq_extractLsb' (v : Word) : lowByte v = v.extractLsb' 0 8 := BitVec.setWidth_eq_extractLsb' (by decide)

/-- A pop takes the oldest byte of the response FIFO (R189). -/
theorem readReg_rxFifo_cons {s : State} {b : Byte} {rest : List Byte} (h : s.ctl.rxQ = b :: rest) :
    readReg .rxFifo s = .ok (zext b, { s with ctl := { s.ctl with rxQ := rest } }.logged 0 .rxFifo (zext b)) := by
  simp [readReg, readValue, classOf, popRx, h]

/-- A pop of an empty response FIFO is a draw (R189). -/
theorem readReg_rxFifo_nil {s : State} (h : s.ctl.rxQ = []) :
    readReg .rxFifo s =
      .ok (Config.draw s.draws, { s with draws := s.draws + 1 }.logged 0 .rxFifo (Config.draw s.draws)) := by
  simp [readReg, readValue, classOf, popRx, h]

/-- A push port faults on a read (R190). -/
theorem readReg_cmdFifo (s : State) : readReg .cmdFifo s = .error (.readOfWriteOnly (s.off .cmdFifo)) := rfl

/-- A push port faults on a read (R190). -/
theorem readReg_pixFifo (s : State) : readReg .pixFifo s = .error (.readOfWriteOnly (s.off .pixFifo)) := rfl

/-- The pop port faults on a write (R190). -/
theorem writeReg_rxFifo (v : Word) (s : State) :
    writeReg .rxFifo v s = .error (.writeOfReadOnly (s.off .rxFifo)) := rfl

/-- Settles O47, row by row. -/
theorem fifoPortRows : Obligations.FifoPortRows := by
  intro s v
  rw [← lowByte_eq_extractLsb']
  exact ⟨fun hroom => accessReg_write (writeReg_cmdFifo v s hroom),
    fun hfull => accessReg_write_fault (writeReg_cmdFifo_full v s hfull),
    accessReg_read_fault (readReg_cmdFifo s),
    fun hroom => accessReg_write (writeReg_pixFifo v s hroom),
    fun hfull => accessReg_write_fault (writeReg_pixFifo_full v s hfull),
    accessReg_read_fault (readReg_pixFifo s),
    fun _ _ hq => accessReg_read (readReg_rxFifo_cons hq),
    fun hq => accessReg_read (readReg_rxFifo_nil hq),
    accessReg_write_fault (writeReg_rxFifo v s)⟩

/-! ### The bus rows -/

/-- An access outside the map faults and names its offset, in both directions (R180, R181, R190). -/
theorem exec_bus_badOffset {s : State} {off : Nat} (h : off % 4 ≠ 0 ∨ s.params.regMap.nameAt off = none) (v : Word) :
    exec (.read32 off) s = .fault (.badOffset off) ∧ exec (.write32 off v) s = .fault (.badOffset off) := by
  rcases h with h | h <;> simp [exec, execRead32, execWrite32, readOffset, writeOffset, h]

/-- READ32 of an offset that names a register is the read form of its row (R180). -/
theorem exec_read32_named {s : State} {off : Nat} {r : RegName} (ho : off % 4 = 0)
    (hr : s.params.regMap.nameAt off = some r) : exec (.read32 off) s = accessReg r .read s := by
  simp only [exec, execRead32, readOffset, ho, hr, accessReg, withRead]
  cases readReg r s <;> rfl

/-- WRITE32 of an offset that names a register is the write form of its row (R181). -/
theorem exec_write32_named {s : State} {off : Nat} {r : RegName} (ho : off % 4 = 0)
    (hr : s.params.regMap.nameAt off = some r) (v : Word) : exec (.write32 off v) s = accessReg r (.write v) s := by
  simp only [exec, execWrite32, writeOffset, ho, hr, accessReg, withWrite]
  cases writeReg r v s <;> rfl

/-- No register of the default map is at an offset of R49. -/
theorem nameAt_unmappedDsi1 : ∀ off ∈ unmappedDsi1, RegMap.dsi1.nameAt off = none := by decide

/-- Settles O48: the offsets of R49 are outside the default map, and any other access is a row's. -/
theorem busRowsFollowTheMap : Obligations.BusRowsFollowTheMap := by
  intro s off v
  refine ⟨fun h => exec_bus_badOffset h v, fun hmap hoff => ?_, fun r ho hr => ?_⟩
  · exact exec_bus_badOffset (.inr (hmap ▸ nameAt_unmappedDsi1 off hoff)) v
  · rw [exec_mmio, exec_mmio]
    exact ⟨exec_read32_named ho hr, exec_write32_named ho hr v⟩

/-- Only the read-only registers and a full queue fault on a write (R181). -/
theorem writeReg_total {r : RegName} {s : State} (v : Word) (hhdr : r ≠ .rxpkt1h) (hrx : r ≠ .rxFifo)
    (hcmd : r = .cmdFifo → s.ctl.cmdQ.length < s.params.cmdFifoDepth)
    (hpix : r = .pixFifo → s.ctl.pixQ.length < s.params.pixFifoDepth) : ∃ t, writeReg r v s = .ok t := by
  cases r with
  | rxpkt1h => exact absurd rfl hhdr
  | rxFifo => exact absurd rfl hrx
  | cmdFifo => exact ⟨_, writeReg_cmdFifo v s (hcmd rfl)⟩
  | pixFifo => exact ⟨_, writeReg_pixFifo v s (hpix rfl)⟩
  | txpkt1c => exact ⟨_, writeReg_txpkt1c v s⟩
  | ctrl => exact ⟨_, writeReg_ctrl v s⟩
  | intStat | stat => exact ⟨_, writeReg_w1c v s rfl⟩
  | _ => exact ⟨_, writeReg_rw v s rfl⟩

/-- Settles O49: the access is that of the register its offset names, which completes and records itself. -/
theorem busAccessesComplete : Obligations.BusAccessesComplete := by
  intro s r v hm
  have ho : s.off r % 4 = 0 := offsetOf_aligned hm r
  have hr : s.params.regMap.nameAt (s.off r) = some r := nameAt_offsetOf hm r
  refine ⟨fun hcmd hpix => ?_, fun hhdr hrx hcmd hpix => ?_⟩
  · have hread := readReg_total s (classOf_ne_push hcmd hpix)
    exact ⟨_, _, (exec_read32_named ho hr).trans (accessReg_read hread), readReg_trace hread⟩
  · obtain ⟨t, hwrite⟩ := writeReg_total v hhdr hrx hcmd hpix
    exact ⟨t, (exec_write32_named ho hr v).trans (accessReg_write hwrite),
      congrArg State.trace (writeReg_same hwrite)⟩

/-! ### Status bits -/

/-- No bit of INT_STAT or STAT that is 0 in `c` is 1 in `c'` (R184). -/
def Controller.SetsNoStatus (c c' : Controller) : Prop :=
  c'.intStat &&& ~~~c.intStat = 0 ∧ c'.stat &&& ~~~c.stat = 0

/-- Status registers left as they are have no bit set. -/
theorem Controller.SetsNoStatus.of_eq {c c' : Controller} (hint : c'.intStat = c.intStat) (hstat : c'.stat = c.stat) :
    c.SetsNoStatus c' := by
  simp [Controller.SetsNoStatus, hint, hstat]

/-- A plain register is none of the status registers (R182). -/
theorem setReg_setsNoStatus (c : Controller) {r : RegName} (h : classOf r = .rw) (v : Word) :
    c.SetsNoStatus (c.setReg r v) := by
  have hne : ∀ r', classOf r' = .w1c → r' ≠ r := by
    rintro r' h' rfl
    cases h.symm.trans h'
  exact .of_eq (c.reg_setReg_other v (hne .intStat rfl)) (c.reg_setReg_other v (hne .stat rfl))

/-- Clearing bits of a status register sets none (R184). -/
theorem clear_setsNoStatus (c : Controller) {r : RegName} (h : classOf r = .w1c) (v : Word) :
    c.SetsNoStatus (c.setReg r (c.reg r &&& ~~~v)) := by
  have hclear : ∀ r', (c.setReg r (c.reg r &&& ~~~v)).reg r' &&& ~~~c.reg r' = 0 := by
    intro r'
    by_cases hr : r' = r
    · subst hr
      rw [c.reg_setReg_self r' _ (.inr h), BitVec.and_assoc, BitVec.and_comm (~~~v), ← BitVec.and_assoc,
        BitVec.and_not_self]
      exact BitVec.zero_and
    · rw [c.reg_setReg_other _ hr, BitVec.and_not_self]
  exact ⟨hclear .intStat, hclear .stat⟩

/-- A write of TXPKT1C leaves the status registers as they are (R185). -/
theorem writeTxpkt1c_setsNoStatus (v : Word) (s : State) : s.ctl.SetsNoStatus (writeTxpkt1c v s).ctl := by
  unfold writeTxpkt1c
  simp only
  split <;> exact .of_eq rfl rfl

/-- A push leaves the status registers as they are (R187, R188). -/
theorem pushTx_setsNoStatus {q : TxQueue} {v : Word} {s t : State} (h : pushTx q v s = .ok t) :
    s.ctl.SetsNoStatus t.ctl := by
  cases q <;> simp only [pushTx] at h <;> split at h <;> cases h <;> exact .of_eq rfl rfl

/-- A write sets no status bit (R181, R184). -/
theorem writeEffect_setsNoStatus {r : RegName} {v : Word} {s t : State} (h : writeEffect r v s = .ok t) :
    s.ctl.SetsNoStatus t.ctl := by
  unfold writeEffect at h
  split at h
  · cases h; exact setReg_setsNoStatus s.ctl ‹_› v
  · cases h
  · cases h; exact clear_setsNoStatus s.ctl ‹_› v
  · cases h; exact writeTxpkt1c_setsNoStatus v s
  · cases h; exact .of_eq rfl rfl
  · exact pushTx_setsNoStatus h
  · cases h

/-- An access sets no status bit. -/
theorem OneAccess.setsNoStatus {s t : State} (h : OneAccess s t) : s.ctl.SetsNoStatus t.ctl := by
  rcases h with rfl | ⟨r, v, hread⟩ | ⟨r, v, hwrite⟩
  · exact .of_eq rfl rfl
  · rw [(readReg_same hread).eq]
    exact .of_eq rfl rfl
  · obtain ⟨u, hu, rfl⟩ := writeReg_ok hwrite
    exact (writeEffect_setsNoStatus hu : s.ctl.SetsNoStatus u.ctl)

/-- An instruction's step sets no status bit. -/
theorem exec_setsNoStatus {i : Instr} {s s' : State} (h : exec i s = .next s') : s.ctl.SetsNoStatus s'.ctl := by
  obtain ⟨t, ha, hp⟩ := exec_accesses h
  rw [hp.ctl]
  exact ha.setsNoStatus

/-- Settles O51: the other agents' steps are instructions' steps, or leave the controller as it is. -/
theorem onlyTheEnvironmentSetsStatusBits : Obligations.OnlyTheEnvironmentSetsStatusBits := by
  intro s s' h henv
  have hsame : s.ctl.SetsNoStatus s.ctl := .of_eq rfl rfl
  cases step_cases h with
  | goesOn d i hc hi h => exact (exec_setsNoStatus h :)
  | accepts d r i hc ho hr hd h => exact (exec_setsNoStatus h :)
  | classifies hc h => exact (exec_setsNoStatus h :)
  | bus t i hc hd h => exact (exec_setsNoStatus h :)
  | mmio t i hc hd h => exact (exec_setsNoStatus h :)
  | env e hc h => exact absurd hc (henv e)
  | waits d hc ho hr h => subst h; exact hsame
  | presents r hc h => subst h; exact hsame
  | resets hc h => subst h; exact hsame

/-! ### The environment's steps -/

/-- A scheduled environment step is the environment's, with the agenda moved on (log 1). -/
theorem step_of_env {s t : State} {e : EnvStep} (h : chosen s = .env e)
    (he : envStep e { s with agenda := s.agenda.tail } = t) : step s = .next t :=
  (step_of_chosen h).trans (congrArg Host.Outcome.next he)

/-- The transmit step of an active transmission (R196). -/
theorem transmitStep_active {s : State} {k m : Nat} {done : Bool} (h : s.ctl.txActive = true) :
    transmitStep k m done s = { s with ctl := { s.ctl with
      cmdQ := s.ctl.cmdQ.drop k, pixQ := s.ctl.pixQ.drop m, txActive := false, txStepped := true
      intStat := if done then s.ctl.intStat ||| s.latched (doneTx s.params.regMap) else s.ctl.intStat } } := by
  rw [transmitStep, if_pos h]
  cases done <;> rfl

/-- The transmit step while no transmission is active (log 16). -/
theorem transmitStep_inactive {s : State} {k m : Nat} {done : Bool} (h : s.ctl.txActive = false) :
    transmitStep k m done s = s := by
  simp [transmitStep, h]

/-- The response step (R197). -/
theorem responseStep_eq (s : State) (header : Option Word) (bytes : List Byte) (rtf : Bool) :
    responseStep header bytes rtf s = { s with ctl := { s.ctl with
      rxpkt1h := header.getD s.ctl.rxpkt1h, rxQ := s.ctl.rxQ ++ rxAccepted s.params s.ctl.rxQ bytes
      intStat := if rtf then s.ctl.intStat ||| s.latched (doneRx s.params.regMap) else s.ctl.intStat } } := by
  cases rtf <;> rfl

/-- The bytes a response step appends are the first that the response FIFO has room for, all of them when it is
unbounded (R197). -/
theorem rxAccepted_eq_take (p : Params) (q bytes : List Byte) :
    rxAccepted p q bytes = bytes.take (p.rxFifoDepth.elim bytes.length (· - q.length)) := by
  cases h : p.rxFifoDepth <;> simp [rxAccepted, h]

/-- What the environment's steps can change (R195 to R198, R210, R340). -/
theorem envStep_frame (e : EnvStep) (s : State) :
    envStep e s = { s with
      phyRateHz := (envStep e s).phyRateHz, sharedLine := (envStep e s).sharedLine
      ctl := { s.ctl with
        intStat := (envStep e s).ctl.intStat, stat := (envStep e s).ctl.stat, rxpkt1h := (envStep e s).ctl.rxpkt1h
        cmdQ := (envStep e s).ctl.cmdQ, pixQ := (envStep e s).ctl.pixQ, rxQ := (envStep e s).ctl.rxQ
        txActive := (envStep e s).ctl.txActive, txStepped := (envStep e s).ctl.txStepped } } := by
  cases e with
  | intStat | lanes | rate | sharedLine => rfl
  | transmit k m done =>
    cases h : s.ctl.txActive with
    | true => simp only [envStep, transmitStep_active h]
    | false => simp only [envStep, transmitStep_inactive h]
  | response header bytes rtf => simp only [envStep, responseStep_eq]

/-- Settles O52: a scheduled environment step is one of `envStep`. -/
theorem environmentFrame : Obligations.EnvironmentFrame := by
  intro s s' e hc h
  rw [step_of_env hc rfl] at h
  cases h
  exact envStep_frame e _

/-- Settles O50, step by step. -/
theorem environmentSteps : Obligations.EnvironmentSteps := by
  intro s
  refine ⟨fun e hc => step_of_env hc rfl, fun k j d hc hact => step_of_env hc (transmitStep_active hact),
    fun k j d hc hact => step_of_env hc (transmitStep_inactive hact), fun h bs d hc => step_of_env hc ?_,
    fun e hc => step_of_env hc rfl, fun hz hc => step_of_env hc rfl, fun b hc => step_of_env hc rfl⟩
  rw [envStep, responseStep_eq, rxAccepted_eq_take]
  cases s.params.rxFifoDepth <;> rfl

end Sys2Proof.Machine
end

