-- ==== Sys2Proof/Proofs/Timing.lean ====
section
/-! PROOFS. The statements of 41_timing.md: the bundle (R211 to R217), its fit (R219), TIMING_COMPUTE (R215) and
PROGRAM_TIMING (R220). -/

namespace Sys2Proof.Machine

open Sys2Proof

/-! ### Monotonicity of the quantizers -/

/-- `ceilDiv` is monotone in its numerator. -/
theorem ceilDiv_mono_left {a a' : Nat} (b : Nat) (h : a ≤ a') : ceilDiv a b ≤ ceilDiv a' b :=
  Nat.div_le_div_right (by omega)

/-- `ceilDiv` is antitone in its divisor (R216). -/
theorem ceilDiv_antitone (a : Nat) {b b' : Nat} (hb : 1 ≤ b) (h : b ≤ b') : ceilDiv a b' ≤ ceilDiv a b :=
  (ceilDiv_le (hb.trans h)).mpr <| calc
    a ≤ ceilDiv a b * b := (ceilDiv_le hb).mp le_rfl
    _ ≤ ceilDiv a b * b' := Nat.mul_le_mul_left _ h

/-- `roundup` is monotone in its argument. -/
theorem roundup_mono {a a' : Nat} (b : Nat) (h : a ≤ a') : roundup a b ≤ roundup a' b :=
  Nat.mul_le_mul_right b (ceilDiv_mono_left b h)

/-- `ui_ns` is antitone in the rate (R216). -/
theorem uiNs_antitone (p : Params) {R R' : Nat} (hR : 1 ≤ R) (h : R ≤ R') : uiNs p R' ≤ uiNs p R :=
  ceilDiv_antitone _ hR h

/-- `ui_ns` of a rate is 0 only with a `UI_NUMERATOR` of 0 (log 34). -/
theorem uiNs_eq_zero_iff (p : Params) {R : Nat} (hR : 1 ≤ R) : uiNs p R = 0 ↔ p.uiNumerator = 0 := by
  rw [← Nat.le_zero, uiNs, ceilDiv_le hR, Nat.zero_mul, Nat.le_zero]

/-- A timing value is monotone in the rate (R216). With a `UI_NUMERATOR` of 0 it is the same at every rate. -/
theorem hsTiming_uiNs_mono (p : Params) {R R' : Nat} (hR : 1 ≤ R) (h : R ≤ R') (ns ui : Nat) :
    hsTiming p (uiNs p R) ns ui ≤ hsTiming p (uiNs p R') ns ui := by
  refine roundup_mono _ (Nat.add_le_add_left ?_ ui)
  rcases Nat.eq_zero_or_pos (uiNs p R') with h0 | hpos
  · have hnum : p.uiNumerator = 0 := (uiNs_eq_zero_iff p (hR.trans h)).mp h0
    rw [h0, (uiNs_eq_zero_iff p hR).mpr hnum]
  · exact ceilDiv_antitone ns hpos (uiNs_antitone p hR h)

/-! ### The bundle -/

/-- Every field of a bundle is at most that of another. -/
structure Bundle.FieldsLe (b b' : Bundle) : Prop where
  czero : b.czero ≤ b'.czero
  cpre : b.cpre ≤ b'.cpre
  cprep : b.cprep ≤ b'.cprep
  ctrail : b.ctrail ≤ b'.ctrail
  cpost : b.cpost ≤ b'.cpost
  wup : b.wup ≤ b'.wup
  exit : b.exit ≤ b'.exit
  zero : b.zero ≤ b'.zero
  pre : b.pre ≤ b'.pre
  lpx : b.lpx ≤ b'.lpx
  trail : b.trail ≤ b'.trail
  anlat : b.anlat ≤ b'.anlat
  init : b.init ≤ b'.init
  taGet : b.taGet ≤ b'.taGet
  taSure : b.taSure ≤ b'.taSure
  taGo : b.taGo ≤ b'.taGo
  lpLpx : b.lpLpx ≤ b'.lpLpx
  lpWup : b.lpWup ≤ b'.lpWup

/-- The bundle is monotone in the rate (R216). -/
theorem bundleOf_mono (p : Params) {R R' : Nat} (hR : 1 ≤ R) (h : R ≤ R') :
    (bundleOf p R).FieldsLe (bundleOf p R') := by
  have hs := hsTiming_uiNs_mono p hR h
  exact {
    czero := hs _ _, cpre := hs _ _, cprep := hs _ _, ctrail := hs _ _, cpost := hs _ _, wup := hs _ _
    exit := hs _ _, zero := hs _ _, pre := hs _ _, lpx := hs _ _, trail := max_le_max (hs _ _) (hs _ _)
    init := hs _ _, anlat := le_rfl, taGet := le_rfl, taSure := le_rfl, taGo := le_rfl, lpLpx := le_rfl
    lpWup := le_rfl }

/-- Settles O12: a higher rate has a shorter unit interval, and the escape-derived fields do not read it. -/
theorem timingMonotoneInRate : Obligations.TimingMonotoneInRate := by
  intro p R R' hR h
  have hb := bundleOf_mono p hR h
  exact ⟨fun ns _ _ => ceilDiv_antitone ns, uiNs_antitone p hR h,
    ⟨hb.czero, hb.cpre, hb.cprep, hb.ctrail, hb.cpost, hb.wup, hb.exit, hb.zero, hb.pre, hb.lpx, hb.trail, hb.init⟩,
    rfl, rfl, rfl, rfl, rfl⟩

/-- A timing value is a multiple of the byte quantum (R217). -/
theorem byteQuantum_dvd_hsTiming (p : Params) (u ns ui : Nat) : p.byteQuantum ∣ hsTiming p u ns ui :=
  dvd_roundup _ _

/-- Settles O13: each field is a timing value, or for TRAIL the larger of two. -/
theorem timingValuesAreMultiplesOfEight : Obligations.TimingValuesAreMultiplesOfEight := by
  intro p R hq
  have hs : ∀ ns ui, 8 ∣ hsTiming p (uiNs p R) ns ui := hq ▸ byteQuantum_dvd_hsTiming p (uiNs p R)
  have htrail : 8 ∣ (bundleOf p R).trail := max_rec' (8 ∣ ·) (hs _ _) (hs _ _)
  exact ⟨hs _ _, hs _ _, hs _ _, hs _ _, hs _ _, hs _ _, hs _ _, hs _ _, hs _ _, hs _ _, htrail, hs _ _⟩

/-- A value below one that fits a field fits it. -/
theorem fitsField_of_le {f : Field} {v v' : Nat} (h : v ≤ v') (hv' : fitsField f v' = true) : fitsField f v = true :=
  fitsField_iff.mpr (h.trans_lt (fitsField_iff.mp hv'))

/-- A bundle below one that fits fits (R219). -/
theorem fits_of_fieldsLe {f : TimingFields} {b b' : Bundle} (h : b.FieldsLe b') (hb' : fits f b' = true) :
    fits f b = true := by
  simp only [fits, Bool.and_eq_true] at hb' ⊢
  simp only [fitsField_of_le h.czero, fitsField_of_le h.cpre, fitsField_of_le h.cprep, fitsField_of_le h.ctrail,
    fitsField_of_le h.cpost, fitsField_of_le h.wup, fitsField_of_le h.exit, fitsField_of_le h.zero,
    fitsField_of_le h.pre, fitsField_of_le h.lpx, fitsField_of_le h.trail, fitsField_of_le h.anlat,
    fitsField_of_le h.init, fitsField_of_le h.taGet, fitsField_of_le h.taSure, fitsField_of_le h.taGo,
    fitsField_of_le h.lpLpx, fitsField_of_le h.lpWup, hb', and_self]

/-- A quotient of at most 1 that is not 0 rounds up to 1. -/
theorem ceilDiv_eq_one {a b : Nat} (ha : 1 ≤ a) (h : a ≤ b) : ceilDiv a b = 1 := by
  have hb : 1 ≤ b := ha.trans h
  have hle : ceilDiv a b ≤ 1 := (ceilDiv_le hb).mpr (by omega)
  have hne : ¬ ceilDiv a b ≤ 0 := mt (ceilDiv_le hb).mp (by omega)
  omega

/-- Every rate of at least `UI_NUMERATOR` has the bundle of one nanosecond (R211). -/
theorem bundleOf_of_uiNumerator_le {p : Params} {R : Nat} (hnum : 1 ≤ p.uiNumerator) (h : p.uiNumerator ≤ R) :
    bundleOf p R = bundleAt p 1 := by
  rw [bundleOf, uiNs, ceilDiv_eq_one hnum h]

/-- Settles O14: the largest bundle, that of one nanosecond, fits. -/
theorem defaultBundlesFit : Obligations.DefaultBundlesFit := by
  intro R hR
  refine fits_of_fieldsLe (bundleOf_mono _ hR (le_max_left R Params.default.uiNumerator)) ?_
  rw [bundleOf_of_uiNumerator_le (by decide) (le_max_right _ _)]
  decide

/-! ### TIMING_COMPUTE -/

/-- TIMING_COMPUTE of an idle engine takes its one step (R215). -/
theorem exec_timingCompute {s : State} (ho : s.op = .idle) (hz : Nat) :
    exec (.timingCompute hz) s = timingComputeRun hz s := whenIdle_idle ho

/-- At the 100 MHz escape clock a cycle is 10 ns (R212). -/
theorem escTiming_100MHz {p : Params} (h : p.escClkHz = 100000000) (ns : Nat) : escTiming p ns = ceilDiv ns 10 := by
  simp only [escTiming, h, ceilDiv]
  omega

/-- Settles O15, clause by clause: the 18 formulas are those of `bundleAt`, with the escape period of R210 put in. -/
theorem timingComputeReturnsTheBundle : Obligations.TimingComputeReturnsTheBundle := by
  intro s hz ho
  rw [exec_timingCompute ho]
  refine ⟨fun h0 => if_pos h0, fun h1 => ?_, fun hnum hmax => ?_, fun hesc u => ?_⟩
  · rw [timingComputeRun, if_neg (Nat.one_le_iff_ne_zero.mp h1), finish_idle ho]
    rfl
  · exact bundleOf_of_uiNumerator_le (by omega) (by omega)
  · simp only [bundleAt, lpxCycles, escTiming_100MHz hesc, hsTiming]

/-! ### PROGRAM_TIMING -/

/-- The register a step of PROGRAM_TIMING writes (R220). -/
def PLabel.reg : PLabel → RegName
  | .p1 => .hsClt0
  | .p2 => .hsClt1
  | .p3 => .hsClt2
  | .p4 => .hsDlt3
  | .p5 => .hsDlt4
  | .p6 => .hsDlt5
  | .p7 => .hsDlt6
  | .p8 => .hsDlt7
  | .p9 => .intEn

/-- The word it writes there (R137, R221). -/
def PLabel.word (m : RegMap) (b : Bundle) : PLabel → Word
  | .p1 => clt0 m.timing b
  | .p2 => clt1 m.timing b
  | .p3 => clt2 m.timing b
  | .p4 => dlt3 m.timing b
  | .p5 => dlt4 m.timing b
  | .p6 => dlt5 m.timing b
  | .p7 => dlt6 m.timing b
  | .p8 => dlt7 m.timing b
  | .p9 => alwaysOn m

/-- What follows the write: the next label, or, after the last, the bundle stored and OK returned (R220). -/
def PLabel.after (b : Bundle) (s : State) : PLabel → State
  | .p1 => s.goto (.programTiming .p2 b)
  | .p2 => s.goto (.programTiming .p3 b)
  | .p3 => s.goto (.programTiming .p4 b)
  | .p4 => s.goto (.programTiming .p5 b)
  | .p5 => s.goto (.programTiming .p6 b)
  | .p6 => s.goto (.programTiming .p7 b)
  | .p7 => s.goto (.programTiming .p8 b)
  | .p8 => s.goto (.programTiming .p9 b)
  | .p9 => { s with bundle := some b }.finish .ok [] 0 .none

/-- The state after the write of a label and what follows it. -/
def State.programmed (s : State) (l : PLabel) (b : Bundle) : State :=
  l.after b ({ s with ctl := s.ctl.setReg l.reg (l.word s.params.regMap b) }.logged 1 l.reg (l.word s.params.regMap b))

/-- P1 to P9 always answer a next state: none of their writes faults (R220). -/
theorem programTimingStep_eq (l : PLabel) (b : Bundle) (s : State) :
    programTimingStep l b s = .next (s.programmed l b) := by
  cases l <;> rfl

/-- A running PROGRAM_TIMING makes the write of its label. -/
theorem exec_programTiming {s : State} {l : PLabel} {b : Bundle} (h : s.op = .programTiming l b) :
    exec .programTiming s = .next (s.programmed l b) := by
  simp only [exec, execProgramTiming, h, programTimingStep_eq]

/-- PROGRAM_TIMING of an idle engine takes P0 (R220). -/
theorem exec_programTiming_idle {s : State} (ho : s.op = .idle) : exec .programTiming s = programTimingStart s := by
  simp only [exec, execProgramTiming, ho]

/-- PROGRAM_TIMING while another operation runs is held (R380). -/
theorem exec_programTiming_busy {s : State} (ho : s.op ≠ .idle) (hp : ∀ l b, s.op ≠ .programTiming l b) :
    exec .programTiming s = .next (s.hold .programTiming) := by
  simp only [exec, execProgramTiming]

/-- P0 goes on to P1 with the bundle of a nonzero rate, if it fits (R220). -/
theorem programTimingStart_fits {s : State} (hR : s.phyRateHz ≠ 0)
    (hf : fits s.params.regMap.timing (bundleOf s.params s.phyRateHz) = true) :
    programTimingStart s = .next (s.goto (.programTiming .p1 (bundleOf s.params s.phyRateHz))) := by
  simp only [programTimingStart, if_neg hR, if_pos hf]

/-- P0 refuses a bundle that does not fit (R219). -/
theorem programTimingStart_unfit {s : State} (hR : s.phyRateHz ≠ 0)
    (hf : fits s.params.regMap.timing (bundleOf s.params s.phyRateHz) = false) :
    programTimingStart s = .refused .fieldOverflow := by
  simp [programTimingStart, hR, hf]

/-- P0 only names its next label. -/
theorem programTimingStart_next {s s' : State} (h : programTimingStart s = .next s') : s' = s.goto s'.op := by
  unfold programTimingStart at h
  split at h
  · cases h
  simp only at h
  split at h
  · cases h; rfl
  · cases h

/-- Settles O18: P0, which makes no access, takes both refusals. -/
theorem programTimingRefusesBeforeWriting : Obligations.ProgramTimingRefusesBeforeWriting := by
  intro s ho
  rw [exec_programTiming_idle ho]
  exact ⟨fun h0 => if_pos h0, fun h1 => programTimingStart_unfit (Nat.one_le_iff_ne_zero.mp h1)⟩

/-- The nine writes of PROGRAM_TIMING, in order (R220). -/
theorem execTimes_programTiming {s : State} {b : Bundle} (h : s.op = .programTiming .p1 b) :
    execTimes 9 .programTiming s = .next
      (s.programmed .p1 b |>.programmed .p2 b |>.programmed .p3 b |>.programmed .p4 b |>.programmed .p5 b
        |>.programmed .p6 b |>.programmed .p7 b |>.programmed .p8 b |>.programmed .p9 b) := by
  rw [execTimes_succ (exec_programTiming h)]
  rfl

/-- Settles O16: P0, then the nine writes, each of which appends its transaction. -/
theorem programTimingWritesTheWholeBundle : Obligations.ProgramTimingWritesTheWholeBundle := by
  intro s ho hR f B hf
  have hstart := programTimingStart_fits (Nat.one_le_iff_ne_zero.mp hR) hf
  rw [execTimes_succ ((exec_programTiming_idle ho).trans hstart), execTimes_programTiming rfl]
  simp [State.programmed, PLabel.after, PLabel.reg, PLabel.word, Controller.setReg, State.logged, State.goto,
    State.finish, State.off, ho, f, B]

/-- Settles O19, by what the engine does: P0 moves the label, P1 to P9 write one register each, of which P9 stores the
bundle, and another operation has the request held. -/
theorem programTimingFrame : Obligations.ProgramTimingFrame := by
  intro s s' h
  cases ho : s.op with
  | idle =>
    rw [exec_programTiming_idle ho] at h
    rw [programTimingStart_next h]
    exact ⟨rfl, fun _ hr => hr, .inl rfl⟩
  | programTiming l b =>
    rw [exec_programTiming ho] at h
    cases h
    cases l with
    | p9 => exact ⟨rfl, fun _ hr => hr, .inr ⟨b, rfl, rfl⟩⟩
    | _ => exact ⟨rfl, fun _ hr => hr, .inl rfl⟩
  | ulps | transfer =>
    rw [exec_programTiming_busy (by simp [ho]) (by simp [ho])] at h
    cases h
    obtain ⟨hframe, hport⟩ := hold_frame s .programTiming
    rw [hframe]
    exact ⟨rfl, hport, .inl rfl⟩

end Sys2Proof.Machine
end

