-- ==== Sys2Proof/Proofs/Encoder.lean ====
section
/-! PROOFS. The statements of 42_encoder.md: the split of a long payload (R252), the outcomes of ENCODE (R245 to R247)
and CONFIGURE (R240). -/

namespace Sys2Proof.Machine

open Sys2Proof

/-! ### The split of a long payload -/

/-- A byte at a position of a word is a field of eight bits there (R115). -/
theorem zext_shiftLeft_eq_setField (b : Byte) (n : Nat) : zext b <<< n = setField ⟨n + 7, n⟩ b.toNat := by
  have hwidth : fieldWidth ⟨n + 7, n⟩ = 8 := by simp [fieldWidth]
  rw [setField, hwidth, Nat.mod_eq_of_lt b.isLt, BitVec.ofNat_toNat, zext]

/-- The byte at a position of a word is its eight bits there (R115). -/
theorem lowByte_ushiftRight (w : Word) (n : Nat) : lowByte (w >>> n) = w.extractLsb' n 8 :=
  BitVec.eq_of_getLsbD_eq fun i hi => by simp [lowByte, hi]

/-- A word as its four bytes, the lowest first (R115). -/
theorem wordBytes_eq (w : Word) :
    wordBytes w = [w.extractLsb' 0 8, w.extractLsb' 8 8, w.extractLsb' 16 8, w.extractLsb' 24 8] := by
  simp only [wordBytes, lowByte_ushiftRight, lowByte_eq_extractLsb' w]

/-- A pixel word as its four fields of one payload byte (R115). -/
theorem pixWord_eq_setField (p : List Byte) (base : Nat) :
    pixWord 4 p base =
      setField ⟨7, 0⟩ (byteAt p base).toNat ||| setField ⟨15, 8⟩ (byteAt p (base + 1)).toNat |||
      setField ⟨23, 16⟩ (byteAt p (base + 2)).toNat ||| setField ⟨31, 24⟩ (byteAt p (base + 3)).toNat := by
  simp [pixWord, List.range_succ, ← zext_shiftLeft_eq_setField]

/-- The bytes of a pixel word are its payload bytes (R115). -/
theorem wordBytes_pixWord (p : List Byte) (base : Nat) :
    wordBytes (pixWord 4 p base) = (List.range 4).map fun k => byteAt p (base + k) := by
  simp [wordBytes_eq, pixWord_eq_setField, List.range_succ, BitVec.extractLsb'_or, extractLsb'_setField_of_within,
    extractLsb'_setField_of_apart]

/-- Bytes read one after the other are a slice of the list, when it is long enough. -/
theorem map_byteAt_range {p : List Byte} {base n : Nat} (h : base + n ≤ p.length) :
    (List.range n).map (fun k => byteAt p (base + k)) = (p.drop base).take n := by
  apply List.ext_getElem
  · rw [List.length_map, List.length_range, List.length_take, List.length_drop]
    omega
  · intro i hi _
    rw [List.length_map, List.length_range] at hi
    have hp : base + i < p.length := by omega
    simp [byteAt, hp]

/-- The words of consecutive groups of four bytes give the bytes back. -/
theorem flatMap_wordBytes_range {p : List Byte} {base n : Nat} (h : base + 4 * n ≤ p.length) :
    (List.range n).flatMap (fun i => wordBytes (pixWord 4 p (base + 4 * i))) = (p.drop base).take (4 * n) := by
  induction n with
  | zero => rfl
  | succ n ih =>
    have hlast : wordBytes (pixWord 4 p (base + 4 * n)) = ((p.drop base).drop (4 * n)).take 4 := by
      rw [wordBytes_pixWord, map_byteAt_range (by omega), List.drop_drop]
    rw [List.range_succ, List.flatMap_append, ih (by omega), List.flatMap_singleton, hlast, Nat.mul_succ, List.take_add]

/-- A long packet puts its first bytes, those beyond a whole number of words, in the command FIFO (R250). -/
theorem cmdBytesOf_long {p : Params} {k : Packet} (hw : p.pixFifoWidth = 4) (hlong : k.isLong = true) :
    cmdBytesOf p k = k.bytes.take (k.bytes.length % 4) := by
  rw [cmdBytesOf, if_pos hlong, cmdLen, if_pos hlong, hw]

/-- A long packet puts the rest in the pixel FIFO, four bytes a word (R250). -/
theorem pixWordsOf_long {p : Params} {k : Packet} (hw : p.pixFifoWidth = 4) (hlong : k.isLong = true) :
    pixWordsOf p k = (List.range (k.bytes.length / 4)).map fun i =>
      pixWord 4 k.bytes (k.bytes.length % 4 + 4 * i) := by
  have hcount : (k.bytes.length - k.bytes.length % 4) / 4 = k.bytes.length / 4 := by omega
  rw [pixWordsOf, pixCount, if_pos hlong, cmdLen, if_pos hlong, hw, hcount]

/-- Settles O22: the command bytes are the first `L mod 4` of the payload, and the words hold the rest of it. -/
theorem splitInvariants : Obligations.SplitInvariants := by
  intro p k hw hlong e L
  have hcmd : e.cmdBytes = k.bytes.take (L % 4) := cmdBytesOf_long hw hlong
  have hpix : e.pixWords = (List.range (L / 4)).map fun i => pixWord 4 k.bytes (L % 4 + 4 * i) :=
    pixWordsOf_long hw hlong
  have hL : L % 4 + 4 * (L / 4) = L := Nat.mod_add_div L 4
  have hrest : e.pixWords.flatMap wordBytes = k.bytes.drop (L % 4) := by
    have hlen : (k.bytes.drop (L % 4)).length = 4 * (L / 4) := by
      rw [List.length_drop]
      omega
    rw [hpix, List.flatMap_map, flatMap_wordBytes_range hL.le, ← hlen, List.take_length]
  have hcmdLen : e.cmdBytes.length = L % 4 := by
    rw [hcmd, List.length_take]
    exact Nat.min_eq_left (Nat.mod_le L 4)
  have hpixLen : e.pixWords.length = L / 4 := by rw [hpix, List.length_map, List.length_range]
  refine ⟨hcmdLen, by omega, by omega, by omega, ?_⟩
  rw [hcmd, hrest, List.take_append_drop]

/-! ### ENCODE -/

/-- A packet that fails a check of R246 gets CONFIG. -/
theorem checkConfig_of_ne_ok {p : Params} {cfg : LinkConfig} {k : Packet} (h : checkConfig p cfg k ≠ .ok) :
    checkConfig p cfg k = .config := by
  unfold checkConfig at h ⊢
  grind

/-- A packet that fails a check of R247 gets CAPACITY. -/
theorem checkCapacity_of_ne_ok {p : Params} {k : Packet} (h : checkCapacity p k ≠ .ok) :
    checkCapacity p k = .capacity := by
  unfold checkCapacity at h ⊢
  grind

/-- The checks of R246 come first (R245). -/
theorem encodeCode_of_checkConfig_ne_ok {p : Params} {cfg : LinkConfig} {k : Packet} (h : checkConfig p cfg k ≠ .ok) :
    encodeCode p cfg k = .config := by
  rw [encodeCode, checkConfig_of_ne_ok h]

/-- A packet that passes them gets the code of R247 (R245). -/
theorem encodeCode_of_checkConfig_ok {p : Params} {cfg : LinkConfig} {k : Packet} (h : checkConfig p cfg k = .ok) :
    encodeCode p cfg k = checkCapacity p k := by
  rw [encodeCode, h]

/-- ENCODE of an idle engine takes its one step (R245). -/
theorem exec_encode {s : State} (ho : s.op = .idle) (k : Packet) : exec (.encode k) s = encodeRun k s :=
  whenIdle_idle ho

/-- An accepted packet is returned encoded (R245). -/
theorem exec_encode_ok {s : State} {k : Packet} (ho : s.op = .idle) (h : encodeCode s.params s.cfg k = .ok) :
    exec (.encode k) s = .next
      { s with results := s.results ++ [⟨.ok, [], 0, .encoded (encodePacket s.params k)⟩] } := by
  rw [exec_encode ho, encodeRun, h]
  exact congrArg _ (finish_idle ho ..)

/-- Any other code is returned alone (R245). -/
theorem exec_encode_rejected {s : State} {k : Packet} {e : Code} (ho : s.op = .idle)
    (h : encodeCode s.params s.cfg k = e) (he : e ≠ .ok) :
    exec (.encode k) s = .next { s with results := s.results ++ [⟨e, [], 0, .none⟩] } := by
  rw [exec_encode ho, encodeRun]
  split
  case h_1 hok => exact absurd (h.symm.trans hok) he
  case h_2 => rw [h, finish_idle ho]

/-- Settles O21: the two checks are the two lists of conditions, and the first that fails gives the code. -/
theorem encodeOutcomes : Obligations.EncodeOutcomes := by
  intro s k ho configBad w capacityBad
  have hconfig : checkConfig s.params s.cfg k = .ok ↔ ¬ configBad := by
    rw [checkConfig_eq_ok_iff]
    grind
  have hcapacity : checkCapacity s.params k = .ok ↔ ¬ capacityBad := by
    rw [checkCapacity_eq_ok_iff]
    unfold pixCount cmdLen
    grind
  refine ⟨fun hbad => ?_, fun hgood hbad => ?_, fun hgood hfits => ?_⟩
  · exact exec_encode_rejected ho (encodeCode_of_checkConfig_ne_ok fun h => hconfig.mp h hbad) (by decide)
  · refine exec_encode_rejected ho ?_ (by decide)
    rw [encodeCode_of_checkConfig_ok (hconfig.mpr hgood), checkCapacity_of_ne_ok fun h => hcapacity.mp h hbad]
  · exact exec_encode_ok ho (encodeCode_eq_ok_iff.mpr ⟨hconfig.mpr hgood, hcapacity.mpr hfits⟩)

/-! ### CONFIGURE -/

/-- CONFIGURE of an idle engine takes its one step (R240). -/
theorem exec_configure {s : State} (ho : s.op = .idle) (c : ConfigRecord) :
    exec (.configure c) s = configureRun c s := whenIdle_idle ho

/-- Settles O20, branch by branch of R240. -/
theorem configureOutcomes : Obligations.ConfigureOutcomes := by
  intro s c ho
  rw [exec_configure ho]
  unfold configureRun
  refine ⟨fun hc => if_pos hc, fun hc => ⟨fun hbad => ?_, fun hl hm hf hch => ?_⟩⟩
  · rw [if_neg (by simp [hc]), ← ite_or, if_pos (by omega), finish_idle ho]
  · rw [if_neg (by simp [hc]), if_neg (by omega), if_neg (by omega)]
    exact congrArg _ (finish_idle (s := { s with cfg := linkConfigOf c }) ho ..)

end Sys2Proof.Machine
end

