-- ==== Sys2Proof/Proofs/Sequencer.lean ====
section
/-! PROOFS. The statements of 43_power_sequencer.md: the steps of the sequencer (R274, R275), its timeout paths and its
full handshake (R276, R278), what it leaves unchanged (R272, R273), and PHY_STATE (R279). -/

namespace Sys2Proof.Machine

open Sys2Proof

/-! ### S0 -/

/-- The operation with target `t` of an idle engine takes S0 (R274). -/
theorem exec_ulps_idle {s : State} (ho : s.op = .idle) (t : Bool) :
    exec (if t then Instr.ulpsEnter else Instr.ulpsExit) s = ulpsStart t s := by
  cases t <;> simp [exec, execUlpsEnter, execUlpsExit, ulpsSeq, ho]

/-- S0 of an unconfigured core returns CONFIG (R270). -/
theorem ulpsStart_unconfigured {s : State} (hc : s.cfg.configured = false) (t : Bool) :
    ulpsStart t s = .next (s.finish .config [] 0 .none) := if_pos hc

/-- S0 of a configured core reads the latch (R271). -/
theorem ulpsStart_configured {s : State} (hc : s.cfg.configured = true) (t : Bool) :
    ulpsStart t s =
      let a := s.ctl.phyAfec0
      let cur := bitOf a s.params.regMap.latchUlps
      let s' := s.logged 0 .phyAfec0 a
      if cur = t ∧ s.phyDegraded = false then .next ({ s' with phyState := latchState t }.finish .ok [] 0 .none)
      else .next ({ s' with phyState := enteringState t }.goto (.ulps t .s1 ⟨a, 0, latchState cur, false⟩)) := by
  rw [ulpsStart, if_neg (by simp [hc])]
  rfl

/-- S0 returns at once from a run already done (R277). -/
theorem ulpsStart_done {s : State} {t : Bool} (hc : s.cfg.configured = true)
    (hcur : bitOf s.ctl.phyAfec0 s.params.regMap.latchUlps = t) (hd : s.phyDegraded = false) :
    ulpsStart t s = .next
      ({ s.logged 0 .phyAfec0 s.ctl.phyAfec0 with phyState := latchState t }.finish .ok [] 0 .none) :=
  (ulpsStart_configured hc t).trans (if_pos ⟨hcur, hd⟩)

/-- S0 starts a run when the latch is not at the target, or the state is degraded (R274). -/
theorem ulpsStart_run {s : State} {t : Bool} (hc : s.cfg.configured = true)
    (h : bitOf s.ctl.phyAfec0 s.params.regMap.latchUlps ≠ t ∨ s.phyDegraded = true) :
    ulpsStart t s = .next
      ({ s.logged 0 .phyAfec0 s.ctl.phyAfec0 with phyState := enteringState t }.goto
        (.ulps t .s1 ⟨s.ctl.phyAfec0, 0, latchState (bitOf s.ctl.phyAfec0 s.params.regMap.latchUlps), false⟩)) :=
  (ulpsStart_configured hc t).trans (if_neg fun ⟨hcur, hd⟩ => h.elim (· hcur) (by simp [hd]))

/-- Settles O25: the three outcomes of S0. -/
theorem sequencerStart : Obligations.SequencerStart := by
  intro s t ho i a cur read
  rw [exec_ulps_idle ho]
  refine ⟨fun hc => ?_, fun hc hcur hd => ?_, fun hc h => ulpsStart_run hc h⟩
  · rw [ulpsStart_unconfigured hc, finish_idle ho]
  · rw [ulpsStart_done hc hcur hd]
    exact congrArg _
      (finish_idle (s := { s.logged 0 .phyAfec0 s.ctl.phyAfec0 with phyState := latchState t }) ho ..)

/-! ### S1 to S11 and the timeout paths, label by label (R274)

Each label's one access made: none of them faults, and S4 and S10 are the polls. -/

section

variable (t : Bool) (v : SeqLocals) (s : State)

theorem ulpsStep_s1 : ulpsStep t .s1 v s = .next
    (({ s with ctl := { s.ctl with stat := s.ctl.stat &&& ~~~s.su } }.logged 1 .stat s.su).goto (.ulps t .s2 v)) := rfl

theorem ulpsStep_s2 : ulpsStep t .s2 v s = .next
    ((s.logged 0 .phyc s.ctl.phyc).goto (.ulps t .s3 { v with p := s.ctl.phyc })) := rfl

theorem ulpsStep_s3 : ulpsStep t .s3 v s = .next
    (({ s with ctl := { s.ctl with phyc := v.p ||| s.pu } }.logged 1 .phyc (v.p ||| s.pu)).goto
      (.ulps t .s4 { v with pollFailed := false })) := rfl

theorem ulpsStep_s4 : ulpsStep t .s4 v s = pollStep t s.su .s4 .s5 .s4t v s := rfl

theorem ulpsStep_s5 : ulpsStep t .s5 v s = .next
    ((s.logged 0 .phyAfec0 s.ctl.phyAfec0).goto (.ulps t .s6 { v with a := s.ctl.phyAfec0 })) := rfl

theorem ulpsStep_s6 : ulpsStep t .s6 v s = .next
    (({ s with phyState := if t then .stop else s.phyState
               ctl := { s.ctl with phyAfec0 := latchValue s.params.regMap t v.a } }.logged 1 .phyAfec0
        (latchValue s.params.regMap t v.a)).goto (.ulps t .s7 v)) := rfl

theorem ulpsStep_s7 : ulpsStep t .s7 v s = .next
    (({ s with ctl := { s.ctl with stat := s.ctl.stat &&& ~~~s.ss } }.logged 1 .stat s.ss).goto (.ulps t .s8 v)) := rfl

theorem ulpsStep_s8 : ulpsStep t .s8 v s = .next
    ((s.logged 0 .phyc s.ctl.phyc).goto (.ulps t .s9 { v with p := s.ctl.phyc })) := rfl

theorem ulpsStep_s9 : ulpsStep t .s9 v s = .next
    (({ s with ctl := { s.ctl with phyc := v.p &&& ~~~s.pu } }.logged 1 .phyc (v.p &&& ~~~s.pu)).goto
      (.ulps t .s10 { v with pollFailed := false })) := rfl

theorem ulpsStep_s10 : ulpsStep t .s10 v s = pollStep t s.ss .s10 .s11 .s10t v s := rfl

theorem ulpsStep_s11 : ulpsStep t .s11 v s = .next
    ({ s with phyState := latchState t, phyDegraded := false }.finish .ok [] 0 .none) := rfl

theorem ulpsStep_s4t : ulpsStep t .s4t v s = .next
    (((s.emit (.seqTimeoutUlps t)).logged 0 .phyc s.ctl.phyc).goto (.ulps t .s4u { v with p := s.ctl.phyc })) := rfl

theorem ulpsStep_s4u : ulpsStep t .s4u v s = .next
    ({ { s with ctl := { s.ctl with phyc := v.p &&& ~~~s.pu } }.logged 1 .phyc (v.p &&& ~~~s.pu) with
        phyState := v.prior }.finish .seqTimeout [] 0 .none) := rfl

theorem ulpsStep_s10t : ulpsStep t .s10t v s = .next
    (((s.emit (.seqTimeoutStop t)).logged 0 .phyc s.ctl.phyc).goto (.ulps t .s10u { v with p := s.ctl.phyc })) := rfl

theorem ulpsStep_s10u : ulpsStep t .s10u v s = .next
    ({ { s with ctl := { s.ctl with phyc := v.p &&& ~~~s.pu } }.logged 1 .phyc (v.p &&& ~~~s.pu) with
        phyState := latchState t, phyDegraded := true }.finish .seqDegraded [] 0 .none) := rfl

end

/-! ### Polls -/

section

variable {t : Bool} {mask : Word} {here done late : SLabel} {v : SeqLocals} {s : State}

/-- After a failed read the time base may end a poll, without an access (R275, R385). -/
theorem pollStep_late (hf : v.pollFailed = true) (hd : s.deadline = true) :
    pollStep t mask here done late v s = .next (s.goto (.ulps t late v)) := if_pos ⟨hf, hd⟩

/-- Any other step of a poll reads STAT (R275). -/
theorem pollStep_read (h : v.pollFailed = false ∨ s.deadline = false) :
    pollStep t mask here done late v s =
      if s.ctl.stat &&& mask = mask then
        .next ((s.logged 0 .stat s.ctl.stat).goto (.ulps t done { v with pollFailed := false }))
      else .next ((s.logged 0 .stat s.ctl.stat).goto (.ulps t here { v with pollFailed := true })) :=
  if_neg fun ⟨hf, hd⟩ => by simp [hf, hd] at h

/-- A poll goes on when every bit is there (R275). -/
theorem pollStep_reached (h : v.pollFailed = false ∨ s.deadline = false) (hm : s.ctl.stat &&& mask = mask) :
    pollStep t mask here done late v s =
      .next ((s.logged 0 .stat s.ctl.stat).goto (.ulps t done { v with pollFailed := false })) :=
  (pollStep_read h).trans (if_pos hm)

/-- It stays, with the failure noted, when not (R275). -/
theorem pollStep_failed (h : v.pollFailed = false ∨ s.deadline = false) (hm : s.ctl.stat &&& mask ≠ mask) :
    pollStep t mask here done late v s =
      .next ((s.logged 0 .stat s.ctl.stat).goto (.ulps t here { v with pollFailed := true })) :=
  (pollStep_read h).trans (if_neg hm)

end

/-- Settles O26: S4 and S10 are the same poll. -/
theorem pollSteps : Obligations.PollSteps := by
  intro s t v first i mask here done late read ho
  have hstep : exec i s = pollStep t mask here done late v s := by
    rw [exec_ulps ho]
    cases first <;> rfl
  rw [hstep]
  exact ⟨pollStep_late, fun h => ⟨pollStep_reached h, pollStep_failed h⟩⟩

/-! ### The timeout paths -/

/-- A running sequencer operation, one step on. -/
theorem execTimes_ulps {n : Nat} {t : Bool} {l : SLabel} {v : SeqLocals} {s u : State} (ho : s.op = .ulps t l v)
    (h : ulpsStep t l v s = .next u) :
    execTimes (n + 1) (if t then Instr.ulpsEnter else Instr.ulpsExit) s =
      execTimes n (if t then Instr.ulpsEnter else Instr.ulpsExit) u :=
  execTimes_succ ((exec_ulps ho).trans h)

/-- Settles O27: the poll ends, and each path is a read of PHYC and a write that clears the request bits. -/
theorem timeoutsRollBack : Obligations.TimeoutsRollBack := by
  intro s t v hf hd i p rolled
  refine ⟨fun ho => ?_, fun ho => ?_⟩
  · rw [execTimes_ulps ho ((ulpsStep_s4 ..).trans (pollStep_late hf hd)), execTimes_ulps rfl (ulpsStep_s4t ..),
      execTimes_ulps rfl (ulpsStep_s4u ..)]
    simp [execTimes, p, rolled, State.finish, State.goto, State.emit, State.logged, State.pu, State.off]
  · rw [execTimes_ulps ho ((ulpsStep_s10 ..).trans (pollStep_late hf hd)), execTimes_ulps rfl (ulpsStep_s10t ..),
      execTimes_ulps rfl (ulpsStep_s10u ..)]
    simp [execTimes, p, rolled, State.finish, State.goto, State.emit, State.logged, State.pu, State.off, latchState]

/-! ### The handshake -/

/-- The request words of the two operations (R130, R272, R273). -/
theorem decodeRequest_ulps (t : Bool) :
    decodeRequest ⟨if t then 0x00000005 else 0x00000006, .none⟩ =
      .ok (if t then Instr.ulpsEnter else Instr.ulpsExit) := by
  cases t
  · exact decodeRequest_ofNat (op := 6) (by decide) (by decide) .none
  · exact decodeRequest_ofNat (op := 5) (by decide) (by decide) .none

/-- An idle engine accepts the request on the port and takes S0 (R380). -/
theorem engineStep_ulpsRequest {t : Bool} {s : State} (ho : s.op = .idle)
    (hp : s.port = some ⟨if t then 0x00000005 else 0x00000006, .none⟩) :
    engineStep s = ulpsStart t { s with port := none } := by
  rw [← exec_ulps_idle (s := { s with port := none }) ho t]
  simp only [engineStep, ho, OpState.instr, hp, decodeRequest_ulps]

/-- An engine in a sequencer operation takes its next step (R31). -/
theorem engineStep_ulps {t : Bool} {l : SLabel} {v : SeqLocals} {s : State} (ho : s.op = .ulps t l v) :
    engineStep s = ulpsStep t l v s := by
  have hinstr : s.op.instr = some (if t then Instr.ulpsEnter else Instr.ulpsExit) := by
    rw [ho]
    cases t <;> rfl
  exact (engineStep_of_instr hinstr).trans (exec_ulps ho)

section

variable {n : Nat} {s u : State} {rest : List Choice}

/-- A scheduled choice, one step on. -/
theorem run_cons {c : Choice} (ha : s.agenda = c :: rest) (h : choiceStep c { s with agenda := rest } = .next u) :
    Sys2Proof.core.run (n + 1) s = Sys2Proof.core.run n u :=
  run_succ Sys2Proof.core n s u ((step_cons ha).trans h)

/-- The acceptance of a sequencer request, when the engine is scheduled. -/
theorem run_ulpsRequest {t d : Bool} (ha : s.agenda = .engine d :: rest) (ho : s.op = .idle)
    (hp : s.port = some ⟨if t then 0x00000005 else 0x00000006, .none⟩)
    (h : ulpsStart t { s with agenda := rest, deadline := d, port := none } = .next u) :
    Sys2Proof.core.run (n + 1) s = Sys2Proof.core.run n u :=
  run_cons ha ((engineStep_ulpsRequest (s := { s with agenda := rest, deadline := d }) ho hp).trans h)

/-- The next step of a running sequencer operation, when the engine is scheduled. -/
theorem run_ulps {t d : Bool} {l : SLabel} {v : SeqLocals} (ha : s.agenda = .engine d :: rest)
    (ho : s.op = .ulps t l v) (h : ulpsStep t l v { s with agenda := rest, deadline := d } = .next u) :
    Sys2Proof.core.run (n + 1) s = Sys2Proof.core.run n u :=
  run_cons ha ((engineStep_ulps (s := { s with agenda := rest, deadline := d }) ho).trans h)

/-- A step of the environment, when it is scheduled. -/
theorem run_env {e : EnvStep} (ha : s.agenda = .env e :: rest) :
    Sys2Proof.core.run (n + 1) s = Sys2Proof.core.run n (envStep e { s with agenda := rest }) :=
  run_cons ha rfl

end

/-- Bits just set are all there. -/
theorem or_and_self_right (w mask : Word) : (w ||| mask) &&& mask = mask := by
  ext i hi
  simpa using .inr

/-- Phase 1 (R276): S1 to S3 request ULPS, the environment sets the lane set in time, and the poll of S4 goes on. -/
theorem run_ulpsPhase1 {n : Nat} {t : Bool} {v : SeqLocals} {s : State} {rest : List Choice}
    (ho : s.op = .ulps t .s1 v)
    (ha : s.agenda = List.replicate 3 (.engine false) ++ [.env (.lanes s.su)] ++ .engine false :: rest) :
    let p := s.ctl.phyc
    let w := s.ctl.stat &&& ~~~s.su ||| s.su
    Sys2Proof.core.run (n + 5) s = Sys2Proof.core.run n
      { s with
        agenda := rest, deadline := false, op := .ulps t .s5 { v with p := p, pollFailed := false }
        ctl := { s.ctl with stat := w, phyc := p ||| s.pu }
        trace := s.trace ++
          [⟨1, s.off .stat, s.su⟩, ⟨0, s.off .phyc, p⟩, ⟨1, s.off .phyc, p ||| s.pu⟩, ⟨0, s.off .stat, w⟩] } := by
  intro p w
  rw [run_ulps ha ho (ulpsStep_s1 ..), run_ulps rfl rfl (ulpsStep_s2 ..), run_ulps rfl rfl (ulpsStep_s3 ..),
    run_env rfl, run_ulps rfl rfl ((ulpsStep_s4 ..).trans (pollStep_reached (.inl rfl) (or_and_self_right ..)))]
  simp [envStep, p, w, State.goto, State.logged, State.pu, State.off, State.su]

/-- Phase 2 (R276): S5 to S9 write the latch and drop the request, the environment sets the lane set in time, and S11
returns OK. -/
theorem run_ulpsPhase2 {t : Bool} {v : SeqLocals} {s : State} (ho : s.op = .ulps t .s5 v)
    (ha : s.agenda =
      List.replicate 5 (.engine false) ++ [.env (.lanes s.ss)] ++ List.replicate 2 (.engine false)) :
    let a := s.ctl.phyAfec0
    let a' := latchValue s.params.regMap t a
    let p := s.ctl.phyc
    let p' := p &&& ~~~s.pu
    let w := s.ctl.stat &&& ~~~s.ss ||| s.ss
    Sys2Proof.core.run 8 s = .next
      { s with
        agenda := [], deadline := false, op := .idle, phyState := latchState t, phyDegraded := false
        ctl := { s.ctl with stat := w, phyc := p', phyAfec0 := a' }
        results := s.results ++ [⟨.ok, [], 0, .none⟩]
        trace := s.trace ++
          [⟨0, s.off .phyAfec0, a⟩, ⟨1, s.off .phyAfec0, a'⟩, ⟨1, s.off .stat, s.ss⟩, ⟨0, s.off .phyc, p⟩,
           ⟨1, s.off .phyc, p'⟩, ⟨0, s.off .stat, w⟩] } := by
  intro a a' p p' w
  rw [run_ulps ha ho (ulpsStep_s5 ..), run_ulps rfl rfl (ulpsStep_s6 ..), run_ulps rfl rfl (ulpsStep_s7 ..),
    run_ulps rfl rfl (ulpsStep_s8 ..), run_ulps rfl rfl (ulpsStep_s9 ..), run_env rfl,
    run_ulps rfl rfl ((ulpsStep_s10 ..).trans (pollStep_reached (.inl rfl) (or_and_self_right ..))),
    run_ulps rfl rfl (ulpsStep_s11 ..)]
  simp [Host.Core.run, envStep, a, a', p, p', w, State.finish, State.goto, State.logged, State.pu, State.off, State.ss]

/-- Settles O28: the request is accepted at S0, and the two phases follow. -/
theorem ulpsHandshakeSucceeds : Obligations.UlpsHandshakeSucceeds := by
  intro s t ho hc hp hrun ha latch a a' p w1 w2 p'
  rw [run_ulpsRequest ha ho hp (ulpsStart_run hc hrun), run_ulpsPhase1 rfl rfl, run_ulpsPhase2 rfl rfl]
  simp [latch, a, a', p, p', w1, w2, ho, State.goto, State.logged, State.pu, State.su, State.ss, State.off, latchValue,
    latchMask, latchState]

/-! ### The frame -/

/-- What a step of the sequencer with target `t` from `s` to `s'` keeps: the frame of O29. -/
def SequencerKeeps (t : Bool) (s s' : State) : Prop :=
  s' = { s with
    op := s'.op, phyState := s'.phyState, phyDegraded := s'.phyDegraded, port := s'.port
    results := s'.results, trace := s'.trace, events := s'.events
    ctl := { s.ctl with stat := s'.ctl.stat, phyc := s'.ctl.phyc, phyAfec0 := s'.ctl.phyAfec0 } } ∧
  (∀ r, s.port = some r → s'.port = some r) ∧
  (s'.ctl.stat ≠ s.ctl.stat → ∃ v, s.op = .ulps t .s1 v ∨ s.op = .ulps t .s7 v) ∧
  (s'.ctl.phyc ≠ s.ctl.phyc → ∃ v, s.op = .ulps t .s3 v ∨ s.op = .ulps t .s9 v ∨ s.op = .ulps t .s4u v ∨
    s.op = .ulps t .s10u v) ∧
  (s'.ctl.phyAfec0 ≠ s.ctl.phyAfec0 → ∃ v, s.op = .ulps t .s6 v) ∧
  (s'.phyDegraded ≠ s.phyDegraded → ∃ v, s.op = .ulps t .s11 v ∨ s.op = .ulps t .s10u v)

/-- A step that leaves the controller and `phy_degraded` as they are keeps all that. -/
theorem SequencerKeeps.of_quiet {t : Bool} {s s' : State}
    (h : s' = { s with
      op := s'.op, phyState := s'.phyState, port := s'.port, results := s'.results, trace := s'.trace,
      events := s'.events })
    (hport : ∀ r, s.port = some r → s'.port = some r) : SequencerKeeps t s s' := by
  have hctl : s'.ctl = s.ctl := by rw [h]
  have hdeg : s'.phyDegraded = s.phyDegraded := by rw [h]
  unfold SequencerKeeps
  rw [hctl, hdeg]
  exact ⟨h, hport, (absurd rfl ·), (absurd rfl ·), (absurd rfl ·), (absurd rfl ·)⟩

/-- S0 writes no register (R274). -/
theorem ulpsStart_keeps (t : Bool) (s : State) : ∃ s', ulpsStart t s = .next s' ∧ SequencerKeeps t s s' := by
  cases hc : s.cfg.configured with
  | false => exact ⟨_, ulpsStart_unconfigured hc t, .of_quiet rfl fun _ hr => hr⟩
  | true =>
    by_cases h : bitOf s.ctl.phyAfec0 s.params.regMap.latchUlps = t ∧ s.phyDegraded = false
    · obtain ⟨hcur, hd⟩ := h
      exact ⟨_, ulpsStart_done hc hcur hd, .of_quiet rfl fun _ hr => hr⟩
    · exact ⟨_, ulpsStart_run hc (by grind), .of_quiet rfl fun _ hr => hr⟩

/-- A poll writes no register (R275). -/
theorem pollStep_keeps (t : Bool) (mask : Word) (here done late : SLabel) (v : SeqLocals) (s : State) :
    ∃ s', pollStep t mask here done late v s = .next s' ∧ SequencerKeeps t s s' := by
  by_cases hlate : v.pollFailed = true ∧ s.deadline = true
  · obtain ⟨hf, hd⟩ := hlate
    exact ⟨_, pollStep_late hf hd, .of_quiet rfl fun _ hr => hr⟩
  have hread : v.pollFailed = false ∨ s.deadline = false := by grind
  by_cases hm : s.ctl.stat &&& mask = mask
  · exact ⟨_, pollStep_reached hread hm, .of_quiet rfl fun _ hr => hr⟩
  · exact ⟨_, pollStep_failed hread hm, .of_quiet rfl fun _ hr => hr⟩

/-- S1 to S11 and the timeout paths, by what each label writes (R274). -/
theorem ulpsStep_keeps {t : Bool} {l : SLabel} {v : SeqLocals} {s : State} (ho : s.op = .ulps t l v) :
    ∃ s', ulpsStep t l v s = .next s' ∧ SequencerKeeps t s s' := by
  cases l
  case s4 | s10 => exact pollStep_keeps ..
  case s2 | s5 | s8 | s4t | s10t => exact ⟨_, rfl, .of_quiet rfl fun _ hr => hr⟩
  case s1 | s7 =>
    exact ⟨_, rfl, rfl, fun _ hr => hr, fun _ => ⟨v, by simp [ho]⟩, (absurd rfl ·), (absurd rfl ·), (absurd rfl ·)⟩
  case s3 | s9 | s4u =>
    exact ⟨_, rfl, rfl, fun _ hr => hr, (absurd rfl ·), fun _ => ⟨v, by simp [ho]⟩, (absurd rfl ·), (absurd rfl ·)⟩
  case s6 =>
    exact ⟨_, rfl, rfl, fun _ hr => hr, (absurd rfl ·), (absurd rfl ·), fun _ => ⟨v, ho⟩, (absurd rfl ·)⟩
  case s11 =>
    exact ⟨_, rfl, rfl, fun _ hr => hr, (absurd rfl ·), (absurd rfl ·), (absurd rfl ·), fun _ => ⟨v, .inl ho⟩⟩
  case s10u =>
    exact ⟨_, rfl, rfl, fun _ hr => hr, (absurd rfl ·), fun _ => ⟨v, by simp [ho]⟩, (absurd rfl ·),
      fun _ => ⟨v, .inr ho⟩⟩

/-- The operation while another one runs is held (R380). -/
theorem exec_ulps_busy {t : Bool} {s : State} (ho : s.op ≠ .idle) (hu : ∀ l v, s.op ≠ .ulps t l v) :
    exec (if t then Instr.ulpsEnter else Instr.ulpsExit) s =
      .next (s.hold (if t then Instr.ulpsEnter else Instr.ulpsExit)) := by
  have hseq (i : Instr) : ulpsSeq i t s = .next (s.hold i) := by
    unfold ulpsSeq
    split
    · contradiction
    · next t' l v h => exact if_neg fun ht : t' = t => hu l v (ht ▸ h)
    · rfl
  cases t <;> exact hseq _

/-- Settles O29, by what the engine does: S0, a step of the running operation, or another operation has it held. -/
theorem sequencerFrame : Obligations.SequencerFrame := by
  intro s t
  by_cases ho : s.op = .idle
  · rw [exec_ulps_idle ho]
    exact ulpsStart_keeps t s
  by_cases hu : ∃ l v, s.op = .ulps t l v
  · obtain ⟨l, v, hu⟩ := hu
    rw [exec_ulps hu]
    exact ulpsStep_keeps hu
  · refine ⟨_, exec_ulps_busy ho fun l v h => hu ⟨l, v, h⟩, ?_⟩
    obtain ⟨hframe, hport⟩ := hold_frame s (if t then .ulpsEnter else .ulpsExit)
    exact SequencerKeeps.of_quiet (by rw [hframe]) hport

/-! ### PHY_STATE -/

/-- Settles O30: its one step is a read of the latch (R279). -/
theorem phyStateReports : Obligations.PhyStateReports := by
  intro s ho
  have hread : exec .phyState s = .next ((s.logged 0 .phyAfec0 s.ctl.phyAfec0).finish .ok [] 0
      (.phy s.phyState s.phyDegraded (bitOf s.ctl.phyAfec0 s.params.regMap.latchUlps))) := whenIdle_idle ho
  rw [hread]
  exact congrArg _ (finish_idle (s := s.logged 0 .phyAfec0 s.ctl.phyAfec0) ho ..)

end Sys2Proof.Machine
end

