-- ==== Sys2Proof/Proofs/Transfer.lean ====
section
/-! PROOFS. The statements of 44_transfer.md: the steps of TRANSFER (R300 to R315), its frame (R58, R300), a short write
from the request to OK (R316, R318), and the invariant of a running TRANSFER (R300, R301, R313). -/

namespace Sys2Proof.Machine

open Sys2Proof

/-! ### T0 -/

/-- TRANSFER of an idle engine takes T0 (R301). -/
theorem exec_transfer_idle {s : State} (ho : s.op = .idle) (k : Packet) : exec (.transfer k) s = transferStart k s := by
  simp only [exec, execTransfer, ho]

/-- T0 of a packet ENCODE accepts only names the next label (R301). -/
theorem transferStart_ok {s : State} {k : Packet} (h : encodeCode s.params s.cfg k = .ok) :
    transferStart k s = .next (s.goto (.transfer k (afterEncode (xferLocals (encodePacket s.params k)))
      (xferLocals (encodePacket s.params k)))) := by
  simp only [transferStart, h]

/-- T0 of any other packet returns ENCODE's code (R301). -/
theorem transferStart_rejected {s : State} {k : Packet} (h : encodeCode s.params s.cfg k ≠ .ok) :
    transferStart k s = .next (s.finish (encodeCode s.params s.cfg k) [] 0 .none) := by
  unfold transferStart
  split
  · contradiction
  · rfl

/-- Settles O31: the return of T0 adds a result and nothing else. -/
theorem transferEncodingErrorReturnsAtOnce : Obligations.TransferEncodingErrorReturnsAtOnce := by
  intro s k ho he
  rw [exec_transfer_idle ho, transferStart_rejected he, finish_idle ho]

/-! ### Control words and CMD_EN -/

/-- A word with a bit cleared has the bit 0. -/
theorem bitOf_clear (w : Word) (n : Nat) : bitOf (w &&& ~~~bit n) n = false := by
  by_cases hn : n < 32 <;> simp [bitOf, bit, hn]

/-- The word 0 has every bit 0. -/
theorem bitOf_zero (n : Nat) : bitOf 0 n = false := by simp [bitOf]

/-- The encoder's control word has CMD_EN set, where CMD_EN is a bit of the word (R135). -/
theorem bitOf_control_cmdEn {p : Params} (h : p.regMap.txpkt1c.cmdEn < 32) (k : Packet) :
    bitOf (encodePacket p k).control p.regMap.txpkt1c.cmdEn = true := by
  simp [encodePacket, controlWord, bitOf, bit, h]

/-- A byte extended to a word is its low byte (R187, R189). -/
@[simp] theorem lowByte_zext (b : Byte) : lowByte (zext b) = b := by simp [lowByte, zext]

/-! ### Drawn reads -/

/-- A word with its bits under `mask` replaced by the draw number `n` (R185, R186). -/
def drawnWord (mask w : Word) (n : Nat) : Word := if mask = 0 then w else mixBits mask w (Config.draw n)

/-- The draw counter after such a read. -/
def drawsAfter (mask : Word) (n : Nat) : Nat := if mask = 0 then n else n + 1

/-- A drawn read depends on the draw counter, and moves it; the rest of the state has no part in it (R185, R186). -/
theorem drawBits_eq (mask w : Word) (s : State) :
    drawBits mask w s = (drawnWord mask w s.draws, { s with draws := drawsAfter mask s.draws }) := by
  unfold drawBits drawnWord drawsAfter
  split <;> rfl

/-- The word a read of TXPKT1C returns (R185). -/
def State.txpkt1cRead (s : State) : Word := drawnWord (txpkt1cDrawn s) s.ctl.txpkt1c s.draws

/-- The word a read of CTRL returns (R186). -/
def State.ctrlRead (s : State) : Word := drawnWord s.ctl.ctrlClears s.ctl.ctrl s.draws

/-! ### T1 to T21, label by label (R300)

Each label's one access made. Only the pushes of T1 and T2 can fault. -/

section

variable (k : Packet) (v : XferLocals) (s : State)

theorem transferStep_t1_nil (h : v.cmdLeft = []) :
    transferStep k .t1 v s = .next (s.goto (.transfer k (afterCmd v) v)) := by
  simp only [transferStep, transferT1, h]

theorem transferStep_t1_cons {b : Byte} {rest : List Byte} (h : v.cmdLeft = b :: rest)
    (hroom : s.ctl.cmdQ.length < s.params.cmdFifoDepth) :
    transferStep k .t1 v s = .next
      (({ s with ctl := { s.ctl with cmdQ := s.ctl.cmdQ ++ [b] } }.logged 1 .cmdFifo (zext b)).goto
        (.transfer k (afterEncode { v with cmdLeft := rest }) { v with cmdLeft := rest })) := by
  simp only [transferStep, transferT1, h]
  rw [withWrite_ok (writeReg_cmdFifo (zext b) s hroom), lowByte_zext]

theorem transferStep_t1_full {b : Byte} {rest : List Byte} (h : v.cmdLeft = b :: rest)
    (hfull : s.params.cmdFifoDepth ≤ s.ctl.cmdQ.length) : transferStep k .t1 v s = .fault (.fifoOverflow .cmd) := by
  simp only [transferStep, transferT1, h, withWrite, writeReg_cmdFifo_full (zext b) s hfull]

theorem transferStep_t2_nil (h : v.pixLeft = []) : transferStep k .t2 v s = .next (s.goto (.transfer k .t3 v)) := by
  simp only [transferStep, transferT2, h]

theorem transferStep_t2_cons {w : Word} {rest : List Word} (h : v.pixLeft = w :: rest)
    (hroom : s.ctl.pixQ.length < s.params.pixFifoDepth) :
    transferStep k .t2 v s = .next
      (({ s with ctl := { s.ctl with pixQ := s.ctl.pixQ ++ [w] } }.logged 1 .pixFifo w).goto
        (.transfer k (afterCmd { v with pixLeft := rest }) { v with pixLeft := rest })) := by
  simp only [transferStep, transferT2, h]
  rw [withWrite_ok (writeReg_pixFifo w s hroom)]

theorem transferStep_t2_full {w : Word} {rest : List Word} (h : v.pixLeft = w :: rest)
    (hfull : s.params.pixFifoDepth ≤ s.ctl.pixQ.length) : transferStep k .t2 v s = .fault (.fifoOverflow .pix) := by
  simp only [transferStep, transferT2, h, withWrite, writeReg_pixFifo_full w s hfull]

theorem transferStep_t3 : transferStep k .t3 v s = .next
    ({ s with signal := none, diag := 0, xfer := { s.xfer with pending := true, rxBuf := [] } }.goto
      (.transfer k .t4 v)) := rfl

theorem transferStep_t4 : transferStep k .t4 v s = .next
    (({ s with ctl := { s.ctl with intStat := s.ctl.intStat &&& ~~~completion s.params.regMap } }.logged 1 .intStat
      (completion s.params.regMap)).goto (.transfer k .t5 v)) := rfl

theorem transferStep_t5 : transferStep k .t5 v s = .next
    (({ s with ctl := { s.ctl with intEn := alwaysOn s.params.regMap ||| doneBit s.params.regMap k } }.logged 1 .intEn
      (alwaysOn s.params.regMap ||| doneBit s.params.regMap k)).goto (.transfer k .t6 v)) := rfl

theorem transferStep_t6 : transferStep k .t6 v s = .next
    (({ s with ctl := { s.ctl with txpkt1h := v.header } }.logged 1 .txpkt1h v.header).goto (.transfer k .t7 v)) := rfl

theorem transferStep_t7 : transferStep k .t7 v s = .next
    (((writeTxpkt1c v.control s).logged 1 .txpkt1c v.control).goto (.transfer k .t8 v)) := rfl

theorem transferStep_t7_start (h : bitOf v.control s.params.regMap.txpkt1c.cmdEn = true) :
    transferStep k .t7 v s = .next
      (({ s with ctl := { s.ctl with txpkt1c := v.control, txStepped := false, txActive := true
                                     txHdr := s.ctl.txpkt1h, txCtl := v.control } }.logged 1 .txpkt1c v.control).goto
        (.transfer k .t8 v)) := by
  rw [transferStep_t7, writeTxpkt1c_start h]

theorem transferStep_t8_signal {g : Signal} (h : s.signal = some g) :
    transferStep k .t8 v s = .next (s.goto (.transfer k .t10 { v with r := g.code })) := by
  simp only [transferStep, transferT8, h]

theorem transferStep_t8_late (h : s.signal = none) (hd : s.deadline = true) :
    transferStep k .t8 v s = .next (s.goto (.transfer k .t9 v)) := by
  simp only [transferStep, transferT8, h, if_pos hd]

theorem transferStep_t8_wait (h : s.signal = none) (hd : s.deadline = false) :
    transferStep k .t8 v s = .next s := by
  simp [transferStep, transferT8, h, hd]

theorem transferStep_t9 : transferStep k .t9 v s = .next
    ((s.logged 0 .intStat s.ctl.intStat).goto (.transfer k .t10 { v with
      r := if s.ctl.intStat &&& doneBit s.params.regMap k ≠ 0 ∨ s.signal = some .ok then .ok else .timeout })) := rfl

theorem transferStep_t9_done (h : s.ctl.intStat &&& doneBit s.params.regMap k ≠ 0 ∨ s.signal = some .ok) :
    transferStep k .t9 v s = .next
      ((s.logged 0 .intStat s.ctl.intStat).goto (.transfer k .t10 { v with r := .ok })) := by
  rw [transferStep_t9, if_pos h]

theorem transferStep_t9_late (h : s.ctl.intStat &&& doneBit s.params.regMap k = 0) (hg : s.signal ≠ some .ok) :
    transferStep k .t9 v s = .next
      ((s.logged 0 .intStat s.ctl.intStat).goto (.transfer k .t10 { v with r := .timeout })) := by
  rw [transferStep_t9, if_neg (not_or.mpr ⟨not_not.mpr h, hg⟩)]

theorem transferStep_t10 : transferStep k .t10 v s = .next
    ({ { s with ctl := { s.ctl with intEn := alwaysOn s.params.regMap } }.logged 1 .intEn
          (alwaysOn s.params.regMap) with
        xfer := { s.xfer with pending := false } }.goto (.transfer k (afterWait k v.r) v)) := rfl

theorem transferStep_t11 : transferStep k .t11 v s = .next
    ({ s with
        draws := drawsAfter (txpkt1cDrawn s) s.draws
        trace := s.trace ++ [⟨0, s.off .txpkt1c, s.txpkt1cRead⟩] : State }.goto
      (.transfer k .t12 { v with c := s.txpkt1cRead })) := by
  simp only [transferStep]
  rw [withRead_ok (readReg_txpkt1c s), drawBits_eq]
  rfl

theorem transferStep_t12 : transferStep k .t12 v s = .next
    (({ s with ctl := { s.ctl with txpkt1c := v.c &&& ~~~bit s.params.regMap.txpkt1c.cmdEn, txStepped := false
                                   txActive := false } }.logged 1 .txpkt1c
        (v.c &&& ~~~bit s.params.regMap.txpkt1c.cmdEn)).goto (.transfer k .t13 v)) := by
  rw [← writeTxpkt1c_stop (bitOf_clear v.c s.params.regMap.txpkt1c.cmdEn)]
  rfl

theorem transferStep_t13 : transferStep k .t13 v s = .next (s.goto (.transfer k .t14 v)) := rfl

theorem transferStep_t14 : transferStep k .t14 v s = .next
    ({ s with
        draws := drawsAfter s.ctl.ctrlClears s.draws
        trace := s.trace ++ [⟨0, s.off .ctrl, s.ctrlRead⟩] : State }.goto
      (.transfer k .t15 { v with k := s.ctrlRead })) := by
  simp only [transferStep]
  rw [withRead_ok (readReg_ctrl s), drawBits_eq]
  rfl

theorem transferStep_t15 : transferStep k .t15 v s = .next
    (((writeCtrl (v.k ||| s.params.fifoResetMask) s).logged 1 .ctrl (v.k ||| s.params.fifoResetMask)).goto
      (.transfer k .t16 v)) := rfl

theorem transferStep_t16 : transferStep k .t16 v s = .next
    (({ s with ctl := { s.ctl with txpkt1c := 0, txStepped := false, txActive := false } }.logged 1 .txpkt1c 0).goto
      (.transfer k .t21 { v with rx := [] })) := by
  rw [← writeTxpkt1c_stop (bitOf_zero s.params.regMap.txpkt1c.cmdEn)]
  rfl

theorem transferStep_t17_mismatch (hlong : respIsLong s.params.regMap s.ctl.rxpkt1h = true)
    (hcount : respCount s.params.regMap s.ctl.rxpkt1h ≠ k.rxLen) :
    transferStep k .t17 v s = .next
      ((s.logged 0 .rxpkt1h s.ctl.rxpkt1h).goto (.transfer k .t11 { v with r := .mismatch })) := by
  simp [transferStep, transferT17, withRead, hlong, hcount]

theorem transferStep_t17_long (hlong : respIsLong s.params.regMap s.ctl.rxpkt1h = true)
    (hcount : respCount s.params.regMap s.ctl.rxpkt1h = k.rxLen) :
    transferStep k .t17 v s = .next
      ((s.logged 0 .rxpkt1h s.ctl.rxpkt1h).goto
        (.transfer k (if k.rxLen = 0 then .t21 else .t18) { v with rx := [], rxLeft := k.rxLen })) := by
  simp [transferStep, transferT17, withRead, hlong, hcount]

theorem transferStep_t17_short (hshort : respIsLong s.params.regMap s.ctl.rxpkt1h = false) :
    transferStep k .t17 v s = .next
      ((s.logged 0 .rxpkt1h s.ctl.rxpkt1h).goto (.transfer k .t21
        { v with rx := (respShort s.params.regMap s.ctl.rxpkt1h).take (min k.rxLen 2) })) := by
  simp [transferStep, transferT17, withRead, hshort]

theorem transferStep_t18_zero (h : v.rxLeft = 0) :
    transferStep k .t18 v s = .next (s.goto (.transfer k .t21 v)) := by
  simp only [transferStep, transferT18, h]

theorem transferStep_t18_succ {n : Nat} (h : v.rxLeft = n + 1) :
    transferStep k .t18 v s = .next
      (((popRx s).2.logged 0 .rxFifo (popRx s).1).goto (.transfer k (if n = 0 then .t21 else .t18)
        { v with rx := v.rx ++ [lowByte (popRx s).1], rxLeft := n })) := by
  simp only [transferStep, transferT18, h]
  rfl

theorem transferStep_t21 : transferStep k .t21 v s = .next
    ({ s with xfer := { s.xfer with result := v.r, rxBuf := v.rx } }.finish v.r v.rx s.diag .none) := rfl

end

/-! ### The wait, the re-mask, the return and the response header -/

/-- Settles O33: T8 by the slot and the time base, T9 by what its read finds. -/
theorem transferWaits : Obligations.TransferWaits := by
  intro s k v m done read
  refine ⟨fun ho => ?_, fun ho => ?_⟩ <;> rw [exec_transfer ho]
  · exact ⟨transferStep_t8_signal k v s, transferStep_t8_signal k v s, transferStep_t8_late k v s,
      fun h hd => transferStep_t8_wait k v s h hd⟩
  · exact ⟨transferStep_t9_done k v s, transferStep_t9_late k v s⟩

/-- Settles O34, label by label. -/
theorem transferRemasksAndReturns : Obligations.TransferRemasksAndReturns := fun s k v =>
  ⟨fun ho => (exec_transfer ho).trans (transferStep_t10 k v s),
    fun ho => (exec_transfer ho).trans (transferStep_t21 k v s)⟩

/-- A field read out of a word is the extraction of its bits (R14). -/
theorem getField_eq_extractLsb' (f : Field) (w : Word) : getField f w = (w.extractLsb' f.lo (fieldWidth f)).toNat := by
  rw [getField, BitVec.extractLsb'_toNat, Nat.shiftRight_eq_div_pow]

/-- The count of a long response under the default map (R136, R40). -/
theorem respCount_dsi1 (h : Word) : respCount .dsi1 h = (h.extractLsb' 8 16).toNat := getField_eq_extractLsb' ⟨23, 8⟩ h

/-- The bytes of a short response under the default map (R136, R40). -/
theorem respShort_dsi1 (h : Word) : respShort .dsi1 h = [h.extractLsb' 8 8, h.extractLsb' 16 8] := by
  simp only [respShort, getField_eq_extractLsb', BitVec.ofNat_toNat]
  rfl

/-- Settles O36: the read of T17, with the response header's fields at their default places. -/
theorem responseHeaderDecides : Obligations.ResponseHeaderDecides := by
  intro s k v ho hmap h read
  have hoff : s.off .rxpkt1h = 0x14 := State.off_dsi1 hmap .rxpkt1h
  rw [exec_transfer ho]
  refine ⟨fun hlong hcount => ?_, fun hshort => ?_⟩
  · rw [← respCount_dsi1] at hcount
    rw [transferStep_t17_mismatch k v s (hmap ▸ hlong) (hmap ▸ hcount), State.logged, hoff]
    rfl
  · rw [transferStep_t17_short k v s (hmap ▸ hshort), State.logged, hoff, hmap, respShort_dsi1]
    rfl

/-! ### Runs of TRANSFER -/

/-- A running TRANSFER, one step on. -/
theorem execTimes_transfer {n : Nat} {k : Packet} {l : TLabel} {v : XferLocals} {s t : State}
    (ho : s.op = .transfer k l v) (h : transferStep k l v s = .next t) :
    execTimes (n + 1) (.transfer k) s = execTimes n (.transfer k) t :=
  execTimes_succ ((exec_transfer ho).trans h)

/-! ### The drain of a long response -/

/-- The words that `n` reads of the response FIFO return: its bytes, then draws (R189). -/
def State.rxWords (s : State) (n : Nat) : List Word :=
  (s.ctl.rxQ.take n).map zext ++ (List.range (n - s.ctl.rxQ.length)).map fun i => Config.draw (s.draws + i)

/-- The state after `n` reads of the response FIFO, the trace aside (R189). -/
def State.rxDropped (s : State) (n : Nat) : State :=
  { s with ctl := { s.ctl with rxQ := s.ctl.rxQ.drop n }, draws := s.draws + (n - s.ctl.rxQ.length) }

/-- One read of the response FIFO. -/
theorem popRx_snd (s : State) : (popRx s).2 = s.rxDropped 1 := by
  cases h : s.ctl.rxQ with
  | nil =>
    have hctl : { s.ctl with rxQ := [] } = s.ctl := by rw [← h]
    simp [popRx, State.rxDropped, h, hctl]
  | cons b rest => simp [popRx, State.rxDropped, h]

/-- One read of the response FIFO, and then `n`. -/
theorem State.rxDropped_succ (s : State) (n : Nat) : s.rxDropped (n + 1) = (s.rxDropped 1).rxDropped n := by
  have hdraws : s.draws + (n + 1 - s.ctl.rxQ.length) =
      s.draws + (1 - s.ctl.rxQ.length) + (n - (s.ctl.rxQ.length - 1)) := by omega
  simp only [rxDropped, List.drop_drop, List.length_drop, hdraws, Nat.add_comm 1 n]

/-- The first of `n + 1` reads returns what one read does, and the others what `n` reads after it do. -/
theorem State.rxWords_succ (s : State) (n : Nat) : s.rxWords (n + 1) = (popRx s).1 :: (s.rxDropped 1).rxWords n := by
  cases h : s.ctl.rxQ with
  | nil => simp [rxWords, rxDropped, popRx, h, List.range_succ_eq_map, Function.comp_def, Nat.add_assoc,
      Nat.add_comm 1]
  | cons b rest => simp [rxWords, rxDropped, popRx, h]

/-- There is one word for each read. -/
theorem State.length_rxWords (s : State) (n : Nat) : (s.rxWords n).length = n := by
  simp only [rxWords, List.length_append, List.length_map, List.length_take, List.length_range]
  omega

/-- With bytes for all reads the words are theirs. -/
theorem State.rxWords_of_le {s : State} {n : Nat} (h : n ≤ s.ctl.rxQ.length) :
    s.rxWords n = (s.ctl.rxQ.take n).map zext := by
  simp [rxWords, Nat.sub_eq_zero_of_le h]

/-- The state in which `n` more bytes of a long response are drained, recorded, and in the locals (R313). -/
def State.drained (s : State) (k : Packet) (v : XferLocals) (n : Nat) : State :=
  { s.rxDropped n with
    op := .transfer k .t21 { v with rx := v.rx ++ (s.rxWords n).map lowByte, rxLeft := 0 }
    trace := s.trace ++ (s.rxWords n).map fun w => ⟨0, s.off .rxFifo, w⟩ }

/-- With no byte left nothing is to do. -/
theorem State.drained_zero {s : State} {k : Packet} {v : XferLocals}
    (ho : s.op = .transfer k .t21 { v with rxLeft := 0 }) : s.drained k v 0 = s := by
  simp only [drained, rxDropped, rxWords, List.take_zero, List.map_nil, Nat.zero_sub, List.range_zero, List.append_nil,
    List.drop_zero, Nat.add_zero, ← ho]

/-- One step of T18, and then the rest of the drain. -/
theorem State.drained_succ (s : State) (k : Packet) (v : XferLocals) (n : Nat) (l : TLabel) :
    s.drained k v (n + 1) =
      (((popRx s).2.logged 0 .rxFifo (popRx s).1).goto
        (.transfer k l { v with rx := v.rx ++ [lowByte (popRx s).1], rxLeft := n })).drained k
          { v with rx := v.rx ++ [lowByte (popRx s).1] } n := by
  simp only [drained, rxWords_succ, rxDropped_succ s n, popRx_snd]
  simp [rxDropped, rxWords, State.logged, State.goto, State.off]

/-- T18 repeats until no byte is left (R313). -/
theorem execTimes_drain {n m : Nat} {k : Packet} {v : XferLocals} {s : State}
    (ho : s.op = .transfer k (if n = 0 then .t21 else .t18) { v with rxLeft := n }) :
    execTimes (n + m) (.transfer k) s = execTimes m (.transfer k) (s.drained k v n) := by
  induction n generalizing s v with
  | zero => rw [Nat.zero_add, State.drained_zero ho]
  | succ n ih =>
    rw [Nat.add_right_comm, execTimes_transfer ho (transferStep_t18_succ k _ s rfl), State.drained_succ]
    exact ih (v := { v with rx := v.rx ++ [lowByte (popRx s).1] }) rfl

/-- Settles O37: T17, the drain, and T21. -/
theorem longResponseIsDrained : Obligations.LongResponseIsDrained := by
  intro s k v ho hlong hcount missing words bytes
  have hwords : s.rxWords k.rxLen = words := rfl
  have hbytes : bytes = (s.rxWords k.rxLen).map lowByte :=
    List.map_congr_left fun w _ => (lowByte_eq_extractLsb' w).symm
  refine ⟨?_, fun hle => ?_, ?_⟩
  · rw [hbytes, List.length_map, State.length_rxWords]
  · rw [hbytes, State.rxWords_of_le hle]
    simp [Function.comp_def]
  · rw [show k.rxLen + 2 = k.rxLen + 1 + 1 from rfl, execTimes_transfer ho (transferStep_t17_long k v s hlong hcount),
      execTimes_drain (v := { v with rx := [] }) rfl, execTimes_transfer rfl (transferStep_t21 k ..), hbytes, ← hwords]
    simp [execTimes, State.drained, State.rxWords, State.rxDropped, State.finish, State.goto, State.logged, State.off,
      missing]

/-! ### T0 to the submitting write -/

/-- The transactions that write the words `ws`, in order, to one register. -/
def State.writes (s : State) (r : RegName) (ws : List Word) : List BusAccess := ws.map fun w => ⟨1, s.off r, w⟩

/-- The state after the pushes of all command bytes, at the label after T1 (R302). -/
def State.cmdPushed (s : State) (k : Packet) (v : XferLocals) : State :=
  { s with
    op := .transfer k (afterCmd v) { v with cmdLeft := [] }
    ctl := { s.ctl with cmdQ := s.ctl.cmdQ ++ v.cmdLeft }
    trace := s.trace ++ s.writes .cmdFifo (v.cmdLeft.map zext) }

/-- T1 repeats until no command byte is left (R302). -/
theorem execTimes_pushCmd {n m : Nat} {k : Packet} {v : XferLocals} {s : State}
    (ho : s.op = .transfer k (afterEncode v) v) (hn : v.cmdLeft.length = n)
    (hroom : s.ctl.cmdQ.length + n ≤ s.params.cmdFifoDepth) :
    execTimes (n + m) (.transfer k) s = execTimes m (.transfer k) (s.cmdPushed k v) := by
  induction n generalizing s v with
  | zero =>
    have hnil : v.cmdLeft = [] := List.eq_nil_of_length_eq_zero hn
    have hv : { v with cmdLeft := [] } = v := by rw [← hnil]
    rw [afterEncode, if_pos hnil] at ho
    have hs : s.cmdPushed k v = s := by
      simp only [State.cmdPushed, State.writes, hnil, hv, List.append_nil, List.map_nil, ← ho]
    rw [Nat.zero_add, hs]
  | succ n ih =>
    obtain ⟨b, rest, hb⟩ := List.exists_cons_of_length_eq_add_one hn
    rw [afterEncode, if_neg (by simp [hb])] at ho
    rw [Nat.add_right_comm, execTimes_transfer ho (transferStep_t1_cons k v s hb (by omega)), ih rfl]
    · simp [State.cmdPushed, State.writes, hb, State.goto, State.logged, State.off, afterCmd]
    · simpa [hb] using hn
    · simp only [State.goto, State.logged, List.length_append, List.length_singleton]
      omega

/-- The state after the pushes of all pixel words, at T3 (R302). -/
def State.pixPushed (s : State) (k : Packet) (v : XferLocals) : State :=
  { s with
    op := .transfer k .t3 { v with pixLeft := [] }
    ctl := { s.ctl with pixQ := s.ctl.pixQ ++ v.pixLeft }
    trace := s.trace ++ s.writes .pixFifo v.pixLeft }

/-- T2 repeats until no pixel word is left (R302). -/
theorem execTimes_pushPix {n m : Nat} {k : Packet} {v : XferLocals} {s : State}
    (ho : s.op = .transfer k (afterCmd v) v) (hn : v.pixLeft.length = n)
    (hroom : s.ctl.pixQ.length + n ≤ s.params.pixFifoDepth) :
    execTimes (n + m) (.transfer k) s = execTimes m (.transfer k) (s.pixPushed k v) := by
  induction n generalizing s v with
  | zero =>
    have hnil : v.pixLeft = [] := List.eq_nil_of_length_eq_zero hn
    have hv : { v with pixLeft := [] } = v := by rw [← hnil]
    rw [afterCmd, if_pos hnil] at ho
    have hs : s.pixPushed k v = s := by
      simp only [State.pixPushed, State.writes, hnil, hv, List.append_nil, List.map_nil, ← ho]
    rw [Nat.zero_add, hs]
  | succ n ih =>
    obtain ⟨w, rest, hw⟩ := List.exists_cons_of_length_eq_add_one hn
    rw [afterCmd, if_neg (by simp [hw])] at ho
    rw [Nat.add_right_comm, execTimes_transfer ho (transferStep_t2_cons k v s hw (by omega)), ih rfl]
    · simp [State.pixPushed, State.writes, hw, State.goto, State.logged, State.off]
    · simpa [hw] using hn
    · simp only [State.goto, State.logged, List.length_append, List.length_singleton]
      omega

/-- The state at T8, from the one at T3 (R303 to R306). -/
def State.submitted (s : State) (k : Packet) (v : XferLocals) : State :=
  let mask := alwaysOn s.params.regMap ||| doneBit s.params.regMap k
  { s with
    op := .transfer k .t8 v, signal := none, diag := 0, xfer := { s.xfer with pending := true, rxBuf := [] }
    ctl := { s.ctl with
      intStat := s.ctl.intStat &&& ~~~completion s.params.regMap, intEn := mask, txpkt1h := v.header
      txpkt1c := v.control, txActive := true, txHdr := v.header, txCtl := v.control, txStepped := false }
    trace := s.trace ++ [⟨1, s.off .intStat, completion s.params.regMap⟩, ⟨1, s.off .intEn, mask⟩,
      ⟨1, s.off .txpkt1h, v.header⟩, ⟨1, s.off .txpkt1c, v.control⟩] }

/-- T3 to T7: the slot reset, the completion bits cleared, the mask armed, the header and the control word (R303 to
R306, R410, R411). -/
theorem execTimes_submit {n : Nat} {k : Packet} {v : XferLocals} {s : State} (ho : s.op = .transfer k .t3 v)
    (hen : bitOf v.control s.params.regMap.txpkt1c.cmdEn = true) :
    execTimes (n + 5) (.transfer k) s = execTimes n (.transfer k) (s.submitted k v) := by
  rw [execTimes_transfer ho (transferStep_t3 ..), execTimes_transfer rfl (transferStep_t4 ..),
    execTimes_transfer rfl (transferStep_t5 ..), execTimes_transfer rfl (transferStep_t6 ..),
    execTimes_transfer rfl (transferStep_t7_start k v _ ?_)]
  · simp [State.submitted, State.goto, State.logged, State.off]
  · exact hen

/-- A packet has as many command bytes as its length says (R245, R250). -/
theorem length_cmdBytesOf (p : Params) (k : Packet) : (cmdBytesOf p k).length = cmdLen p k := by
  unfold cmdBytesOf cmdLen
  split
  · rw [List.length_take]
    exact Nat.min_eq_left (Nat.mod_le ..)
  · rfl

/-- A packet has as many pixel words as their number says (R245, R250). -/
theorem length_pixWordsOf (p : Params) (k : Packet) : (pixWordsOf p k).length = pixCount p k := by
  rw [pixWordsOf, List.length_map, List.length_range]

/-- Settles O32: T0, the pushes, and T3 to T7. -/
theorem transferSubmits : Obligations.TransferSubmits := by
  intro s k ho hcode hen hcmd hpix m e mask
  let v := xferLocals e
  have hsteps : 6 + cmdLen s.params k + pixCount s.params k =
      cmdLen s.params k + (pixCount s.params k + (0 + 5)) + 1 := by omega
  have hstart : exec (.transfer k) s = .next (s.goto (.transfer k (afterEncode v) v)) :=
    (exec_transfer_idle ho k).trans (transferStart_ok hcode)
  refine ⟨{ v with cmdLeft := [], pixLeft := [] }, rfl, rfl, ?_⟩
  rw [hsteps, execTimes_succ hstart]
  refine Eq.trans (execTimes_pushCmd (v := v) rfl (length_cmdBytesOf s.params k) hcmd) ?_
  refine Eq.trans
    (execTimes_pushPix (v := { v with cmdLeft := [] }) rfl (length_pixWordsOf s.params k) hpix) ?_
  refine Eq.trans (execTimes_submit rfl (bitOf_control_cmdEn hen k)) ?_
  simp [execTimes, State.submitted, State.pixPushed, State.cmdPushed, State.writes, State.goto, State.off, v,
    xferLocals, m, e, mask, doneBit, zext, Function.comp_def]

/-! ### The failure cleanup -/

/-- The word T14 reads, when the cleanup begins at T11 of `s`: a read of CTRL after the draw of T11 (R311). -/
def State.cleanupCtrlRead (s : State) : Word := { s with draws := drawsAfter (txpkt1cDrawn s) s.draws : State }.ctrlRead

/-- The state after the cleanup and the return, from the one at T11 (R310, R311, R315). -/
def State.cleanedUp (s : State) (v : XferLocals) : State :=
  let c := s.txpkt1cRead &&& ~~~bit s.params.regMap.txpkt1c.cmdEn
  let w := s.cleanupCtrlRead ||| s.params.fifoResetMask
  { s with
    op := .idle, xfer := { s.xfer with result := v.r, rxBuf := [] }
    ctl := { (writeCtrl w s).ctl with txpkt1c := 0, txActive := false, txStepped := false }
    results := s.results ++ [⟨v.r, [], s.diag, .none⟩]
    trace := s.trace ++ [⟨0, s.off .txpkt1c, s.txpkt1cRead⟩, ⟨1, s.off .txpkt1c, c⟩,
      ⟨0, s.off .ctrl, s.cleanupCtrlRead⟩, ⟨1, s.off .ctrl, w⟩, ⟨1, s.off .txpkt1c, 0⟩]
    draws := drawsAfter s.ctl.ctrlClears (drawsAfter (txpkt1cDrawn s) s.draws) }

/-- T11 to T16 and T21 (R310, R311, R315). -/
theorem execTimes_cleanup {k : Packet} {v : XferLocals} {s : State} (ho : s.op = .transfer k .t11 v) :
    execTimes 7 (.transfer k) s = .next (s.cleanedUp v) := by
  rw [execTimes_transfer ho (transferStep_t11 ..), execTimes_transfer rfl (transferStep_t12 ..),
    execTimes_transfer rfl (transferStep_t13 ..), execTimes_transfer rfl (transferStep_t14 ..),
    execTimes_transfer rfl (transferStep_t15 ..), execTimes_transfer rfl (transferStep_t16 ..),
    execTimes_transfer rfl (transferStep_t21 ..)]
  simp only [State.goto, State.logged, State.finish, writeCtrl, List.append_assoc, List.cons_append, List.nil_append]
  rfl

/-- Before a transmit step TXPKT1C reads as the register; after one but for bit 0 (R185, R38). -/
theorem txpkt1cRead_cases {s : State} (hmap : s.params.regMap = .dsi1) :
    s.txpkt1cRead = s.ctl.txpkt1c ∨
      s.ctl.txStepped = true ∧ s.txpkt1cRead &&& 0xFFFFFFFE = s.ctl.txpkt1c &&& 0xFFFFFFFE := by
  cases h : s.ctl.txStepped with
  | false => exact .inl (if_pos (txpkt1cDrawn_of_not_stepped h))
  | true =>
    have hkeeps := drawBits_keeps (txpkt1cDrawn s) s.ctl.txpkt1c s
    rw [drawBits_eq, txpkt1cDrawn_of_stepped hmap h] at hkeeps
    rw [State.txpkt1cRead, txpkt1cDrawn_of_stepped hmap h]
    exact .inr ⟨rfl, hkeeps⟩

/-- CTRL reads as the register but for the clear bits last written 1 (R186). -/
theorem cleanupCtrlRead_keeps (s : State) :
    s.cleanupCtrlRead &&& ~~~s.ctl.ctrlClears = s.ctl.ctrl &&& ~~~s.ctl.ctrlClears := by
  have hkeeps := drawBits_keeps s.ctl.ctrlClears s.ctl.ctrl { s with draws := drawsAfter (txpkt1cDrawn s) s.draws }
  rwa [drawBits_eq] at hkeeps

/-- The default FIFO_RESET_MASK has the three FIFO clear bits of the default map, so that its write empties every queue
(R186, R37). -/
theorem writeCtrl_resets {s : State} (hmap : s.params.regMap = .dsi1) (w : Word) :
    (writeCtrl (w ||| 0x00000070) s).ctl = { s.ctl with
      cmdQ := [], pixQ := [], rxQ := [], ctrl := w ||| 0x00000070
      ctrlClears := (w ||| 0x00000070) &&& ctrlClearBits s.params } := by
  simp [writeCtrl, hmap, bitOf, RegMap.dsi1, CtrlBits.dsi1]

/-- Settles O35: the state after the cleanup is `State.cleanedUp`. -/
theorem transferCleanup : Obligations.TransferCleanup := by
  intro s k v ho hmap hmask
  have htrace : (s.cleanedUp v).trace = s.trace ++
      [⟨0, 0x04, s.txpkt1cRead⟩, ⟨1, 0x04, s.txpkt1cRead &&& 0xFFFFFFFE⟩, ⟨0, 0x00, s.cleanupCtrlRead⟩,
        ⟨1, 0x00, s.cleanupCtrlRead ||| 0x00000070⟩, ⟨1, 0x04, 0⟩] := by
    rw [← hmask]
    simp only [State.cleanedUp, State.off_eq, hmap]
    rfl
  have hctl : (s.cleanedUp v).ctl = { s.ctl with
      cmdQ := [], pixQ := [], rxQ := [], txpkt1c := 0, txActive := false, txStepped := false
      ctrl := s.cleanupCtrlRead ||| 0x00000070, ctrlClears := (s.cleanedUp v).ctl.ctrlClears } := by
    simp only [State.cleanedUp, hmask, writeCtrl_resets hmap]
  refine ⟨s.cleanedUp v, s.txpkt1cRead, s.cleanupCtrlRead, execTimes_cleanup ho, rfl, txpkt1cRead_cases hmap,
    cleanupCtrlRead_keeps s, htrace, hctl, rfl, rfl, rfl, rfl, rfl, rfl, _,
    readReg_of_value nofun nofun (drawBits_of_eq_zero (txpkt1cDrawn_of_not_stepped rfl) 0 _)⟩

/-! ### The frame -/

/-- What a step of TRANSFER from `s` to `s'` keeps: the frame of O39. -/
def TransferKeeps (k : Packet) (s s' : State) : Prop :=
  s' = { s with
    op := s'.op, xfer := s'.xfer, signal := s'.signal, diag := s'.diag, port := s'.port
    results := s'.results, trace := s'.trace, draws := s'.draws
    ctl := { s.ctl with
      ctrl := s'.ctl.ctrl, ctrlClears := s'.ctl.ctrlClears, txpkt1c := s'.ctl.txpkt1c
      txpkt1h := s'.ctl.txpkt1h, intStat := s'.ctl.intStat, intEn := s'.ctl.intEn, cmdQ := s'.ctl.cmdQ
      pixQ := s'.ctl.pixQ, rxQ := s'.ctl.rxQ, txActive := s'.ctl.txActive, txHdr := s'.ctl.txHdr
      txCtl := s'.ctl.txCtl, txStepped := s'.ctl.txStepped } } ∧
  (∀ r, s.port = some r → s'.port = some r) ∧
  (s'.signal ≠ s.signal ∨ s'.diag ≠ s.diag → ∃ v, s.op = .transfer k .t3 v) ∧
  (s'.ctl.txpkt1h ≠ s.ctl.txpkt1h → ∃ v, s.op = .transfer k .t6 v) ∧
  (s'.ctl.intStat ≠ s.ctl.intStat → ∃ v, s.op = .transfer k .t4 v) ∧
  (s'.ctl.intEn ≠ s.ctl.intEn → ∃ v, s.op = .transfer k .t5 v ∨ s.op = .transfer k .t10 v) ∧
  (s'.ctl.txpkt1c ≠ s.ctl.txpkt1c ∨ s'.ctl.txActive ≠ s.ctl.txActive ∨ s'.ctl.txStepped ≠ s.ctl.txStepped →
    ∃ v, s.op = .transfer k .t7 v ∨ s.op = .transfer k .t12 v ∨ s.op = .transfer k .t16 v) ∧
  (s'.ctl.txHdr ≠ s.ctl.txHdr ∨ s'.ctl.txCtl ≠ s.ctl.txCtl → ∃ v, s.op = .transfer k .t7 v) ∧
  (s'.ctl.ctrl ≠ s.ctl.ctrl ∨ s'.ctl.ctrlClears ≠ s.ctl.ctrlClears → ∃ v, s.op = .transfer k .t15 v) ∧
  (s'.ctl.cmdQ ≠ s.ctl.cmdQ → ∃ v, s.op = .transfer k .t1 v ∨ s.op = .transfer k .t15 v) ∧
  (s'.ctl.pixQ ≠ s.ctl.pixQ → ∃ v, s.op = .transfer k .t2 v ∨ s.op = .transfer k .t15 v) ∧
  (s'.ctl.rxQ ≠ s.ctl.rxQ → ∃ v, s.op = .transfer k .t15 v ∨ s.op = .transfer k .t18 v) ∧
  (s'.xfer ≠ s.xfer →
    ∃ v, s.op = .transfer k .t3 v ∨ s.op = .transfer k .t10 v ∨ s.op = .transfer k .t21 v) ∧
  (s'.results ≠ s.results → s.op = .idle ∨ ∃ v, s.op = .transfer k .t21 v) ∧
  (s'.draws ≠ s.draws →
    ∃ v, s.op = .transfer k .t11 v ∨ s.op = .transfer k .t14 v ∨ s.op = .transfer k .t18 v)

/-- A step that writes no register, and of the core only `op_state`, the port and the results, keeps all that. -/
theorem TransferKeeps.of_quiet {k : Packet} {s s' : State}
    (h : s' = { s with op := s'.op, port := s'.port, results := s'.results, trace := s'.trace })
    (hport : ∀ r, s.port = some r → s'.port = some r)
    (hresults : s'.results ≠ s.results → s.op = .idle ∨ ∃ v, s.op = .transfer k .t21 v) : TransferKeeps k s s' := by
  rw [h]
  exact ⟨rfl, hport, by simpa using hresults⟩

/-- A step that at most names the next label, after a read of a register that holds its value. -/
theorem TransferKeeps.of_moves {k : Packet} {s s' : State} (h : s' = { s with op := s'.op, trace := s'.trace }) :
    TransferKeeps k s s' := by
  rw [h]
  exact .of_quiet rfl (fun _ hr => hr) (absurd rfl ·)

/-- The two ways a push of TRANSFER can meet a full queue (R371). -/
def PushBlocked (l : TLabel) (s : State) : Prop :=
  (l = .t1 ∧ s.params.cmdFifoDepth ≤ s.ctl.cmdQ.length) ∨ (l = .t2 ∧ s.params.pixFifoDepth ≤ s.ctl.pixQ.length)

/-- A step of TRANSFER answers a next state with the frame, or a push meets a full queue and faults. -/
def AnswersOrOverflows (k : Packet) (l : TLabel) (s : State) (o : Out) : Prop :=
  (∃ s', o = .next s' ∧ TransferKeeps k s s') ∨ (PushBlocked l s ∧ ∃ q, o = .fault (.fifoOverflow q))

/-- T1 pushes a byte or moves on (R302). -/
theorem transferT1_answers {k : Packet} {v : XferLocals} {s : State} (ho : s.op = .transfer k .t1 v) :
    AnswersOrOverflows k .t1 s (transferStep k .t1 v s) := by
  cases hb : v.cmdLeft with
  | nil => exact .inl ⟨_, transferStep_t1_nil k v s hb, .of_moves rfl⟩
  | cons b rest =>
    by_cases hroom : s.ctl.cmdQ.length < s.params.cmdFifoDepth
    · exact .inl ⟨_, transferStep_t1_cons k v s hb hroom, rfl, fun _ hr => hr, by simp [ho, State.goto, State.logged]⟩
    · have hfull := Nat.not_lt.mp hroom
      exact .inr ⟨.inl ⟨rfl, hfull⟩, _, transferStep_t1_full k v s hb hfull⟩

/-- T2 pushes a word or moves on (R302). -/
theorem transferT2_answers {k : Packet} {v : XferLocals} {s : State} (ho : s.op = .transfer k .t2 v) :
    AnswersOrOverflows k .t2 s (transferStep k .t2 v s) := by
  cases hw : v.pixLeft with
  | nil => exact .inl ⟨_, transferStep_t2_nil k v s hw, .of_moves rfl⟩
  | cons w rest =>
    by_cases hroom : s.ctl.pixQ.length < s.params.pixFifoDepth
    · exact .inl ⟨_, transferStep_t2_cons k v s hw hroom, rfl, fun _ hr => hr, by simp [ho, State.goto, State.logged]⟩
    · have hfull := Nat.not_lt.mp hroom
      exact .inr ⟨.inr ⟨rfl, hfull⟩, _, transferStep_t2_full k v s hw hfull⟩

/-- T8 makes no access (R307). -/
theorem transferT8_keeps (k : Packet) (v : XferLocals) (s : State) :
    ∃ s', transferStep k .t8 v s = .next s' ∧ TransferKeeps k s s' := by
  cases hg : s.signal with
  | some g => exact ⟨_, transferStep_t8_signal k v s hg, .of_moves rfl⟩
  | none =>
    cases hd : s.deadline with
    | true => exact ⟨_, transferStep_t8_late k v s hg hd, .of_moves rfl⟩
    | false => exact ⟨_, transferStep_t8_wait k v s hg hd, .of_moves rfl⟩

/-- T17 makes one read (R312, R314). -/
theorem transferT17_keeps (k : Packet) (v : XferLocals) (s : State) :
    ∃ s', transferStep k .t17 v s = .next s' ∧ TransferKeeps k s s' := by
  cases hlong : respIsLong s.params.regMap s.ctl.rxpkt1h with
  | false => exact ⟨_, transferStep_t17_short k v s hlong, .of_moves rfl⟩
  | true =>
    by_cases hcount : respCount s.params.regMap s.ctl.rxpkt1h = k.rxLen
    · exact ⟨_, transferStep_t17_long k v s hlong hcount, .of_moves rfl⟩
    · exact ⟨_, transferStep_t17_mismatch k v s hlong hcount, .of_moves rfl⟩

/-- T18 reads a byte or moves on (R313). -/
theorem transferT18_keeps {k : Packet} {v : XferLocals} {s : State} (ho : s.op = .transfer k .t18 v) :
    ∃ s', transferStep k .t18 v s = .next s' ∧ TransferKeeps k s s' := by
  cases hn : v.rxLeft with
  | zero => exact ⟨_, transferStep_t18_zero k v s hn, .of_moves rfl⟩
  | succ n =>
    refine ⟨_, transferStep_t18_succ k v s hn, ?_⟩
    rw [popRx_snd]
    exact ⟨rfl, fun _ hr => hr, by simp [ho, State.rxDropped, State.goto, State.logged]⟩

/-- T1 to T21, by what each label writes (R300). -/
theorem transferStep_answers {k : Packet} {l : TLabel} {v : XferLocals} {s : State} (ho : s.op = .transfer k l v) :
    AnswersOrOverflows k l s (transferStep k l v s) := by
  cases l
  case t1 => exact transferT1_answers ho
  case t2 => exact transferT2_answers ho
  case t8 => exact .inl (transferT8_keeps k v s)
  case t17 => exact .inl (transferT17_keeps k v s)
  case t18 => exact .inl (transferT18_keeps ho)
  case t9 | t13 => exact .inl ⟨_, rfl, .of_moves rfl⟩
  case t3 => exact .inl ⟨_, transferStep_t3 k v s, rfl, fun _ hr => hr, by simp [ho, State.goto]⟩
  case t12 => exact .inl ⟨_, transferStep_t12 k v s, rfl, fun _ hr => hr, by simp [ho, State.goto, State.logged]⟩
  case t16 => exact .inl ⟨_, transferStep_t16 k v s, rfl, fun _ hr => hr, by simp [ho, State.goto, State.logged]⟩
  case t7 =>
    refine .inl ⟨_, transferStep_t7 k v s, ?_⟩
    unfold writeTxpkt1c
    simp only
    split <;> exact ⟨rfl, fun _ hr => hr, by simp [ho, State.goto, State.logged]⟩
  case t15 =>
    exact .inl ⟨_, transferStep_t15 k v s, rfl, fun _ hr => hr, by simp [ho, State.goto, State.logged, writeCtrl]⟩
  case t11 => exact .inl ⟨_, transferStep_t11 k v s, rfl, fun _ hr => hr, by simp [ho, State.goto]⟩
  case t14 => exact .inl ⟨_, transferStep_t14 k v s, rfl, fun _ hr => hr, by simp [ho, State.goto]⟩
  case t4 => exact .inl ⟨_, transferStep_t4 k v s, rfl, fun _ hr => hr, by simp [ho, State.goto, State.logged]⟩
  case t5 => exact .inl ⟨_, transferStep_t5 k v s, rfl, fun _ hr => hr, by simp [ho, State.goto, State.logged]⟩
  case t6 => exact .inl ⟨_, transferStep_t6 k v s, rfl, fun _ hr => hr, by simp [ho, State.goto, State.logged]⟩
  case t10 => exact .inl ⟨_, transferStep_t10 k v s, rfl, fun _ hr => hr, by simp [ho, State.goto, State.logged]⟩
  case t21 => exact .inl ⟨_, rfl, rfl, fun _ hr => hr, by simp [ho, State.finish]⟩

/-- TRANSFER while another operation, or a TRANSFER of another packet, runs is held (R380). -/
theorem exec_transfer_busy {k : Packet} {s : State} (ho : s.op ≠ .idle) (hk : ∀ l v, s.op ≠ .transfer k l v) :
    exec (.transfer k) s = .next (s.hold (.transfer k)) := by
  simp only [exec, execTransfer]
  split
  · contradiction
  · next k' l v h => exact if_neg fun heq : k' = k => hk l v (heq ▸ h)
  · rfl

/-- T0 makes no access (R301). -/
theorem transferStart_keeps {k : Packet} {s : State} (ho : s.op = .idle) :
    ∃ s', transferStart k s = .next s' ∧ TransferKeeps k s s' := by
  by_cases hcode : encodeCode s.params s.cfg k = .ok
  · exact ⟨_, transferStart_ok hcode, .of_quiet rfl (fun _ hr => hr) fun _ => .inl ho⟩
  · exact ⟨_, transferStart_rejected hcode, .of_quiet rfl (fun _ hr => hr) fun _ => .inl ho⟩

/-- TRANSFER, by what the engine does: T0, a step of the running operation, or it is held. -/
theorem exec_transfer_answers (k : Packet) (s : State) :
    (∃ s', exec (.transfer k) s = .next s' ∧ TransferKeeps k s s') ∨
      ∃ l v, s.op = .transfer k l v ∧ PushBlocked l s ∧ ∃ q, exec (.transfer k) s = .fault (.fifoOverflow q) := by
  by_cases ho : s.op = .idle
  · rw [exec_transfer_idle ho]
    exact .inl (transferStart_keeps ho)
  by_cases hk : ∃ l v, s.op = .transfer k l v
  · obtain ⟨l, v, hk⟩ := hk
    rw [exec_transfer hk]
    exact (transferStep_answers hk).imp_right fun h => ⟨l, v, hk, h⟩
  · obtain ⟨hframe, hport⟩ := hold_frame s (.transfer k)
    refine .inl ⟨_, exec_transfer_busy ho fun l v h => hk ⟨l, v, h⟩, .of_quiet ?_ hport ?_⟩
    · rw [hframe]
    · rw [hframe]; exact (absurd rfl ·)

/-- Settles O39: a step that answers has the frame, and one that does not meets a full queue. -/
theorem transferFrame : Obligations.TransferFrame := by
  intro s k
  obtain ⟨s', h, hkeeps⟩ | ⟨l, v, ho, hblocked, q, h⟩ := exec_transfer_answers k s
  · rw [h]
    exact ⟨fun t ht => by cases ht; exact hkeeps, fun _ _ => ⟨s', rfl⟩⟩
  · rw [h]
    refine ⟨fun _ ht => absurd ht nofun, fun hcmd hpix => ?_⟩
    obtain ⟨rfl, hfull⟩ | ⟨rfl, hfull⟩ := hblocked
    · exact absurd (hcmd v ho) (Nat.not_lt.mpr hfull)
    · exact absurd (hpix v ho) (Nat.not_lt.mpr hfull)

/-! ### The invariant of a running TRANSFER -/

/-- `TransferSound` of `op_state`, under the parameters and the configuration. -/
def OpState.Sound (p : Params) (cfg : LinkConfig) : OpState → Prop
  | .transfer k l v =>
    encodeCode p cfg k = .ok ∧ v.header = (encodePacket p k).header ∧ v.control = (encodePacket p k).control ∧
      v.cmdLeft <:+ (encodePacket p k).cmdBytes ∧ v.pixLeft <:+ (encodePacket p k).pixWords ∧
      (l = .t18 → v.rx.length + v.rxLeft = k.rxLen)
  | _ => True

/-- `TransferSound` reads `op_state`, the parameters and the configuration alone. -/
theorem transferSound_iff (s : State) : TransferSound s ↔ s.op.Sound s.params s.cfg := by
  unfold TransferSound
  cases s.op with
  | transfer k l v => exact ⟨fun h => h k l v rfl, fun h k' l' v' heq => by cases heq; exact h⟩
  | _ => simp [OpState.Sound]

section

variable {p : Params} {cfg : LinkConfig} {k : Packet} {l : TLabel} {v : XferLocals} {s s' : State}

/-- A TRANSFER going on with the packet's words, with nothing more to push than before. -/
theorem OpState.Sound.goesOn {l' : TLabel} {v' : XferLocals} (hs : (OpState.transfer k l v).Sound p cfg)
    (hheader : v'.header = v.header) (hcontrol : v'.control = v.control) (hcmd : v'.cmdLeft <:+ v.cmdLeft)
    (hpix : v'.pixLeft <:+ v.pixLeft) (hdrain : l' = .t18 → v'.rx.length + v'.rxLeft = k.rxLen) :
    (OpState.transfer k l' v').Sound p cfg := by
  obtain ⟨hcode, hh, hc, hb, hw, -⟩ := hs
  exact ⟨hcode, hheader.trans hh, hcontrol.trans hc, hcmd.trans hb, hpix.trans hw, hdrain⟩

/-- A TRANSFER going on at a label other than T18 with the same lists. -/
theorem OpState.Sound.moves {l' : TLabel} {v' : XferLocals} (hs : (OpState.transfer k l v).Sound p cfg)
    (hheader : v'.header = v.header) (hcontrol : v'.control = v.control) (hcmd : v'.cmdLeft = v.cmdLeft)
    (hpix : v'.pixLeft = v.pixLeft) (hl : l' ≠ .t18) : (OpState.transfer k l' v').Sound p cfg :=
  hs.goesOn hheader hcontrol (hcmd ▸ List.suffix_rfl) (hpix ▸ List.suffix_rfl) fun h => absurd h hl

/-- The drain of T18 does not follow the pushes. -/
theorem afterCmd_ne_t18 (v : XferLocals) : afterCmd v ≠ .t18 := by unfold afterCmd; split <;> decide

/-- Nor after T0 or T1. -/
theorem afterEncode_ne_t18 (v : XferLocals) : afterEncode v ≠ .t18 := by
  unfold afterEncode
  split
  · exact afterCmd_ne_t18 v
  · decide

/-- A read goes from T10 to the response header first (R309). -/
theorem afterWait_ne_t18 (k : Packet) (r : Code) : afterWait k r ≠ .t18 := by
  unfold afterWait
  split
  · decide
  · split <;> decide

/-- The locals after T0 are the encoder's (R301). -/
theorem sound_start (h : encodeCode p cfg k = .ok) :
    (OpState.transfer k (afterEncode (xferLocals (encodePacket p k))) (xferLocals (encodePacket p k))).Sound p cfg :=
  ⟨h, rfl, rfl, List.suffix_rfl, List.suffix_rfl, fun hl => absurd hl (afterEncode_ne_t18 _)⟩

/-- T1 takes one byte off the list (R302). -/
theorem transferT1_sound (h : transferT1 k v s = .next s') (hs : (OpState.transfer k l v).Sound p cfg) :
    s'.op.Sound p cfg := by
  unfold transferT1 at h
  split at h
  · cases h
    exact hs.moves rfl rfl rfl rfl (afterCmd_ne_t18 v)
  · next b rest hb =>
    obtain ⟨t, -, h⟩ := withWrite_next h
    cases h
    exact hs.goesOn rfl rfl (hb ▸ List.suffix_cons b rest) List.suffix_rfl fun hl => absurd hl (afterEncode_ne_t18 _)

/-- T2 takes one word off the list (R302). -/
theorem transferT2_sound (h : transferT2 k v s = .next s') (hs : (OpState.transfer k l v).Sound p cfg) :
    s'.op.Sound p cfg := by
  unfold transferT2 at h
  split at h
  · cases h
    exact hs.moves rfl rfl rfl rfl (by decide)
  · next w rest hw =>
    obtain ⟨t, -, h⟩ := withWrite_next h
    cases h
    exact hs.goesOn rfl rfl List.suffix_rfl (hw ▸ List.suffix_cons w rest) fun hl => absurd hl (afterCmd_ne_t18 _)

/-- T8 names the next label, or stays (R307). -/
theorem transferT8_sound (ho : s.op = .transfer k .t8 v) (h : transferT8 k v s = .next s')
    (hs : (OpState.transfer k .t8 v).Sound p cfg) : s'.op.Sound p cfg := by
  unfold transferT8 at h
  split at h
  · cases h
    exact hs.moves rfl rfl rfl rfl (by decide)
  · split at h
    · cases h
      exact hs.moves rfl rfl rfl rfl (by decide)
    · cases h
      exact ho ▸ hs

/-- T17 begins the drain with no byte read and `rx_len` left (R313). -/
theorem transferT17_sound (h : transferT17 k v s = .next s') (hs : (OpState.transfer k l v).Sound p cfg) :
    s'.op.Sound p cfg := by
  obtain ⟨w, t, -, h⟩ := withRead_next h
  simp only at h
  split at h
  · split at h
    · cases h
      exact hs.moves rfl rfl rfl rfl (by decide)
    · cases h
      exact hs.goesOn rfl rfl List.suffix_rfl List.suffix_rfl fun _ => Nat.zero_add _
  · cases h
    exact hs.moves rfl rfl rfl rfl (by decide)

/-- T18 moves one byte from those left to those read (R313). -/
theorem transferT18_sound (h : transferT18 k v s = .next s') (hs : (OpState.transfer k .t18 v).Sound p cfg) :
    s'.op.Sound p cfg := by
  obtain ⟨-, -, -, -, -, hdrain⟩ := id hs
  unfold transferT18 at h
  split at h
  · cases h
    exact hs.moves rfl rfl rfl rfl (by decide)
  · next n hn =>
    obtain ⟨w, t, -, h⟩ := withRead_next h
    cases h
    refine hs.goesOn rfl rfl List.suffix_rfl List.suffix_rfl fun _ => ?_
    have hsum := hdrain rfl
    simp only [List.length_append, List.length_singleton]
    omega

/-- T1 to T21 keep a running TRANSFER sound (R300). -/
theorem transferStep_sound (ho : s.op = .transfer k l v) (h : transferStep k l v s = .next s')
    (hs : (OpState.transfer k l v).Sound p cfg) : s'.op.Sound p cfg := by
  cases l <;> simp only [transferStep] at h
  case t1 => exact transferT1_sound h hs
  case t2 => exact transferT2_sound h hs
  case t8 => exact transferT8_sound ho h hs
  case t17 => exact transferT17_sound h hs
  case t18 => exact transferT18_sound h hs
  case t3 | t13 =>
    cases h
    exact hs.moves rfl rfl rfl rfl (by decide)
  case t9 | t11 | t14 =>
    obtain ⟨w, t, -, h⟩ := withRead_next h
    cases h
    exact hs.moves rfl rfl rfl rfl (by decide)
  case t4 | t5 | t6 | t7 | t12 | t15 | t16 =>
    obtain ⟨t, -, h⟩ := withWrite_next h
    cases h
    exact hs.moves rfl rfl rfl rfl (by decide)
  case t10 =>
    obtain ⟨t, -, h⟩ := withWrite_next h
    cases h
    exact hs.moves rfl rfl rfl rfl (afterWait_ne_t18 k v.r)
  case t21 =>
    cases h
    trivial

/-- TRANSFER is sound from T0 on (R300, R301). -/
theorem execTransfer_sound (h : execTransfer k s = .next s') (hs : s.op.Sound s.params s.cfg) :
    s'.op.Sound s.params s.cfg := by
  unfold execTransfer at h
  split at h
  · unfold transferStart at h
    split at h
    · cases h
      exact sound_start ‹_›
    · cases h
      trivial
  · next k' l v ho =>
    rw [ho] at hs
    split at h
    · subst k'
      exact transferStep_sound ho h hs
    · cases h
      rwa [State.hold_op, ho]
  · cases h
    rwa [State.hold_op]

/-! ### The steps of the other operations -/

/-- A one-step operation returns, or is held (R380). -/
theorem whenIdle_sound {i : Instr} {run : State → Out} (h : whenIdle i s run = .next s')
    (hr : run s = .next s' → s'.op = .idle) (hs : s.op.Sound p cfg) : s'.op.Sound p cfg := by
  unfold whenIdle at h
  split at h
  · rw [hr h]
    trivial
  · cases h
    rwa [State.hold_op]

/-- CONFIGURE returns at once (R240). -/
theorem configureRun_op {c : ConfigRecord} (h : configureRun c s = .next s') : s'.op = .idle := by
  unfold configureRun at h
  (repeat' split at h) <;> cases h <;> rfl

/-- TIMING_COMPUTE returns at once (R215). -/
theorem timingComputeRun_op {hz : Nat} (h : timingComputeRun hz s = .next s') : s'.op = .idle := by
  unfold timingComputeRun at h
  split at h <;> cases h
  rfl

/-- ENCODE returns at once (R245). -/
theorem encodeRun_op (h : encodeRun k s = .next s') : s'.op = .idle := by
  unfold encodeRun at h
  split at h <;> cases h <;> rfl

/-- PHY_STATE returns at once (R279). -/
theorem phyStateRun_op (h : phyStateRun s = .next s') : s'.op = .idle := by
  obtain ⟨w, t, -, h⟩ := withRead_next h
  cases h
  rfl

/-- PROGRAM_TIMING starts no TRANSFER (R220). -/
theorem execProgramTiming_sound (h : execProgramTiming s = .next s') (hs : s.op.Sound p cfg) : s'.op.Sound p cfg := by
  unfold execProgramTiming at h
  split at h
  · rw [programTimingStart_next h]
    unfold programTimingStart at h
    split at h
    · cases h
    simp only at h
    split at h
    · cases h
      trivial
    · cases h
  · next l b _ =>
    rw [programTimingStep_eq] at h
    cases h
    cases l <;> trivial
  · cases h
    rwa [State.hold_op]

/-- S0 starts no TRANSFER (R274). -/
theorem ulpsStart_sound {t : Bool} (h : ulpsStart t s = .next s') : s'.op.Sound p cfg := by
  unfold ulpsStart at h
  split at h
  · cases h
    trivial
  · obtain ⟨w, u, -, h⟩ := withRead_next h
    simp only at h
    split at h <;> cases h <;> trivial

/-- A poll starts no TRANSFER (R275). -/
theorem pollStep_sound {t mask here done late} {v : SeqLocals} (h : pollStep t mask here done late v s = .next s') :
    s'.op.Sound p cfg := by
  unfold pollStep at h
  split at h
  · cases h
    trivial
  · obtain ⟨w, u, -, h⟩ := withRead_next h
    split at h <;> cases h <;> trivial

/-- S1 to S11 and the timeout paths start no TRANSFER (R274). -/
theorem ulpsStep_sound {t : Bool} {l : SLabel} {v : SeqLocals} (h : ulpsStep t l v s = .next s') :
    s'.op.Sound p cfg := by
  cases l
  case s4 | s10 => exact pollStep_sound h
  all_goals
    cases h
    trivial

/-- The sequencer starts no TRANSFER (R272, R273). -/
theorem ulpsSeq_sound {i : Instr} {t : Bool} (h : ulpsSeq i t s = .next s') (hs : s.op.Sound p cfg) :
    s'.op.Sound p cfg := by
  unfold ulpsSeq at h
  split at h
  · exact ulpsStart_sound h
  · split at h
    · exact ulpsStep_sound h
    · cases h
      rwa [State.hold_op]
  · cases h
    rwa [State.hold_op]

/-- The classifier leaves `op_state` to the engine (R341). -/
theorem classifierStep_op (h : classifierStep s = .next s') : s'.op = s.op := by
  unfold classifierStep at h
  split at h
  · split at h <;> cases h <;> rfl
  · obtain ⟨w, t, hr, h⟩ := withRead_next h
    cases h
    exact (readReg_core hr).op
  · obtain ⟨t, hw, h⟩ := withWrite_next h
    cases h
    exact (writeReg_core hw).op
  · cases h
    simp only [State.returnInterrupt_op, classify, State.emit_op, wake]
    (repeat' split) <;> simp [reportErrors]

/-- An instruction's step keeps `op_state` sound under the configuration it ran in. -/
theorem exec_opSound {i : Instr} (h : exec i s = .next s') (hs : s.op.Sound s.params s.cfg) :
    s'.op.Sound s.params s.cfg := by
  cases i
  case configure => exact whenIdle_sound h configureRun_op hs
  case timingCompute => exact whenIdle_sound h timingComputeRun_op hs
  case programTiming => exact execProgramTiming_sound h hs
  case encode => exact whenIdle_sound h encodeRun_op hs
  case ulpsEnter => exact ulpsSeq_sound h hs
  case ulpsExit => exact ulpsSeq_sound h hs
  case transfer => exact execTransfer_sound h hs
  case phyState => exact whenIdle_sound h phyStateRun_op hs
  case irqClassify => exact classifierStep_op h ▸ hs
  case read32 => exact (execRead32_core h).op ▸ hs
  case write32 => exact (execWrite32_core h).op ▸ hs
  all_goals exact (accessReg_core h).op ▸ hs

/-- No instruction changes the parameters (log 9). -/
theorem CoreStep.params {w w' : CoreView} (h : CoreStep w w') : w'.params = w.params := by cases h <;> rfl

/-- A sound TRANSFER has a configured core. -/
theorem OpState.Sound.configured (hs : (OpState.transfer k l v).Sound p cfg) : cfg.configured = true := by
  obtain ⟨hcode, -⟩ := hs
  obtain ⟨hcfg, -⟩ := encodeCode_eq_ok_iff.mp hcode
  obtain ⟨hc, -⟩ := checkConfig_eq_ok_iff.mp hcfg
  exact hc

/-- An instruction's step keeps TRANSFER sound: while one runs the core is configured, and keeps its configuration. -/
theorem exec_transferSound {i : Instr} (h : exec i s = .next s') (hs : TransferSound s) : TransferSound s' := by
  rw [transferSound_iff] at hs ⊢
  have hop := exec_opSound h hs
  have hcore := exec_coreStep h
  have hparams : s'.params = s.params := hcore.params
  cases ho : s'.op with
  | transfer k l v =>
    rw [ho] at hop
    have hcfg : s'.cfg = s.cfg := hcore.cfg_of_configured hop.configured
    rwa [hparams, hcfg]
  | _ => trivial

end

/-- Settles O60: the other agents' steps leave `op_state`, the parameters and the configuration as they are, or are the
reset. -/
theorem stepsKeepTransferSound : Obligations.StepsKeepTransferSound := by
  intro s s' hs h
  cases step_cases h with
  | goesOn d i hc hi h => exact exec_transferSound h hs
  | accepts d r i hc ho hr hd h => exact exec_transferSound h hs
  | classifies hc h => exact exec_transferSound h hs
  | bus t i hc hd h => exact exec_transferSound h hs
  | mmio t i hc hd h => exact exec_transferSound h hs
  | waits d hc ho hr h => subst h; exact hs
  | env e hc h =>
    subst h
    obtain ⟨c, hz, l, henv⟩ := envStep_core e { s with agenda := s.agenda.tail }
    rw [henv]
    exact hs
  | presents r hc h => subst h; exact hs
  | resets hc h => subst h; exact fun _ _ _ ho => nomatch ho

/-! ### What classification finds -/

/-- Each error has one bit of INT_STAT (R42). -/
theorem ErrBit.mask_eq_bit (m : RegMap) (b : ErrBit) : ∃ n, b.mask m = bit n := by cases b <;> exact ⟨_, rfl⟩

/-- At the bit of an error, the test of the error is the bit of the word. -/
theorem and_mask_bne_zero {m : RegMap} {b : ErrBit} {i : Nat} (w : Word) (h : (b.mask m).getLsbD i = true) :
    (w &&& b.mask m != 0) = w.getLsbD i := by
  obtain ⟨n, hn⟩ := b.mask_eq_bit m
  have htwo : bit n = BitVec.twoPow 32 n := rfl
  rw [hn, htwo] at h ⊢
  obtain ⟨-, rfl⟩ : n < 32 ∧ n = i := by simpa using h
  rw [BitVec.and_twoPow]
  cases w.getLsbD n with
  | false => rfl
  | true =>
    rw [if_pos rfl, bne_iff_ne]
    intro h0
    simp [h0] at h

/-- The errors classified are the always-on bits of the word (R343). -/
theorem errMask_errorsIn (m : RegMap) (w : Word) : errMask m (errorsIn m w) = w &&& alwaysOn m := by
  apply BitVec.eq_of_getLsbD_eq
  intro i _
  have htest (b : ErrBit) :
      ((w &&& b.mask m != 0) && (b.mask m).getLsbD i) = (w.getLsbD i && (b.mask m).getLsbD i) := by
    cases h : (b.mask m).getLsbD i with
    | false => simp
    | true => rw [and_mask_bne_zero w h]
  simp only [alwaysOn, BitVec.getLsbD_and, getLsbD_errMask, errorsIn, List.any_filter, htest,
    List.and_any_distrib_left]

/-- The first signal goes into the slot (R346). -/
theorem raiseSignal_of_empty {s : State} (h : s.signal = none) (g : Signal) :
    s.raiseSignal g = { s with signal := some g } := by
  simp only [State.raiseSignal, h]

/-- A word with a completion bit, classified while the slot is empty: OK is signalled, and the errors are reported
beside it (R343, R344). -/
theorem classify_completion {w : Word} {s : State} (hg : s.signal = none) (h : w &&& completion s.params.regMap ≠ 0) :
    classify w s = { s with
      signal := some .ok, diag := s.diag ||| (w &&& alwaysOn s.params.regMap)
      events := s.events ++ (errorsIn s.params.regMap w).map Event.irqErr ++ [.irqHandled] } := by
  have hwake : wake w (reportErrors w s) = { reportErrors w s with signal := some .ok } :=
    (if_pos h).trans (raiseSignal_of_empty (s := reportErrors w s) hg .ok)
  have hhandled : handled s.params.regMap w = true := Bool.or_eq_true_iff.mpr (.inr (bne_iff_ne.mpr h))
  rw [classify, hwake, if_pos hhandled, reportErrors, errMask_errorsIn]
  rfl

/-! ### The classifier's steps (R341) -/

section

variable {s : State}

theorem classifierStep_cIdle (hc : s.clsState = .cIdle) (hirq : irqIn s = true) :
    classifierStep s = .next s.enterInterrupt := by
  simp only [classifierStep, hc, if_pos hirq]

theorem classifierStep_cRead (hc : s.clsState = .cRead) : classifierStep s = .next
    { s.logged 0 .intStat s.ctl.intStat with clsWord := s.ctl.intStat, clsState := .cClear } := by
  simp only [classifierStep, hc, withRead_ok (readReg_intStat s)]

theorem classifierStep_cClear (hc : s.clsState = .cClear) : classifierStep s = .next
    { { s with ctl := { s.ctl with intStat := s.ctl.intStat &&& ~~~s.clsWord } }.logged 1 .intStat s.clsWord with
      clsState := .cClassify } := by
  simp only [classifierStep, hc, withWrite_ok (writeReg_intStat s.clsWord s)]

theorem classifierStep_cClassify (hc : s.clsState = .cClassify) :
    classifierStep s = .next (classify s.clsWord s).returnInterrupt := by
  simp only [classifierStep, hc]

end

/-! ### Runs of the machine through a TRANSFER -/

/-- An engine in a TRANSFER takes its next step (R31). -/
theorem engineStep_transfer {k : Packet} {l : TLabel} {v : XferLocals} {s : State} (ho : s.op = .transfer k l v) :
    engineStep s = transferStep k l v s := by
  have hinstr : s.op.instr = some (.transfer k) := by rw [ho]; rfl
  exact (engineStep_of_instr hinstr).trans (exec_transfer ho)

/-- An idle engine accepts a TRANSFER request on the port and takes T0 (R380). -/
theorem engineStep_transferRequest {k : Packet} {s : State} (ho : s.op = .idle)
    (hp : s.port = some ⟨0x00000007, .packet k⟩) : engineStep s = transferStart k { s with port := none } := by
  have hdecode : decodeRequest ⟨0x00000007, .packet k⟩ = .ok (.transfer k) :=
    decodeRequest_ofNat (op := 7) (by decide) (by decide) (.packet k)
  rw [← exec_transfer_idle (s := { s with port := none }) ho k]
  simp only [engineStep, ho, OpState.instr, hp, hdecode]

section

variable {n : Nat} {k : Packet} {l : TLabel} {v : XferLocals} {s u : State} {rest : List Choice}

/-- The next step of a running TRANSFER, when the engine is scheduled. -/
theorem run_transfer {d : Bool} (ha : s.agenda = .engine d :: rest) (ho : s.op = .transfer k l v)
    (h : transferStep k l v { s with agenda := rest, deadline := d } = .next u) :
    Sys2Proof.core.run (n + 1) s = Sys2Proof.core.run n u :=
  run_cons ha ((engineStep_transfer (s := { s with agenda := rest, deadline := d }) ho).trans h)

/-- The acceptance of a packet that ENCODE accepts, when the engine is scheduled (R301). -/
theorem run_transferRequest {d : Bool} (ha : s.agenda = .engine d :: rest) (ho : s.op = .idle)
    (hp : s.port = some ⟨0x00000007, .packet k⟩) (hcode : encodeCode s.params s.cfg k = .ok) :
    let v := xferLocals (encodePacket s.params k)
    Sys2Proof.core.run (n + 1) s = Sys2Proof.core.run n
      { s with agenda := rest, deadline := d, port := none, op := .transfer k (afterEncode v) v } :=
  run_cons ha ((engineStep_transferRequest (s := { s with agenda := rest, deadline := d }) ho hp).trans
    (transferStart_ok (s := { s with agenda := rest, deadline := d, port := none }) hcode))

/-- T3 to T7, when the engine is scheduled (R303 to R306). -/
theorem run_submit (ha : s.agenda = List.replicate 5 (.engine false) ++ rest) (ho : s.op = .transfer k .t3 v)
    (hen : bitOf v.control s.params.regMap.txpkt1c.cmdEn = true) :
    Sys2Proof.core.run (n + 5) s =
      Sys2Proof.core.run n ({ s with agenda := rest, deadline := false : State }.submitted k v) := by
  rw [run_transfer ha ho (transferStep_t3 ..), run_transfer rfl rfl (transferStep_t4 ..),
    run_transfer rfl rfl (transferStep_t5 ..), run_transfer rfl rfl (transferStep_t6 ..),
    run_transfer rfl rfl (transferStep_t7_start k v _ ?_)]
  · simp [State.submitted, State.goto, State.logged, State.off]
  · exact hen

/-- A status bit that is enabled can be set, whether or not INT_STAT latches masked ones (R195). -/
theorem State.latched_of_enabled {e : Word} (h : e &&& s.ctl.intEn = e) : s.latched e = e := by
  unfold State.latched
  split
  · rfl
  · exact h

/-- The environment ends a transmission that takes nothing from the queues, and raises TXPKT1_DONE (R196). -/
theorem run_transmit (ha : s.agenda = .env (.transmit 0 0 true) :: rest) (hact : s.ctl.txActive = true)
    (hen : doneTx s.params.regMap &&& s.ctl.intEn = doneTx s.params.regMap) :
    Sys2Proof.core.run (n + 1) s = Sys2Proof.core.run n
      { s with
        agenda := rest
        ctl := { s.ctl with
          txActive := false, txStepped := true, intStat := s.ctl.intStat ||| doneTx s.params.regMap } } := by
  have hlatched : { s with agenda := rest : State }.latched (doneTx s.params.regMap) = doneTx s.params.regMap :=
    State.latched_of_enabled hen
  refine run_cons ha (congrArg Host.Outcome.next ((transmitStep_active (s := { s with agenda := rest }) hact).trans ?_))
  rw [if_pos rfl, hlatched]
  rfl

/-- The next step of the classifier, when it is scheduled. -/
theorem run_classifier (ha : s.agenda = .classifier :: rest)
    (h : classifierStep { s with agenda := rest } = .next u) :
    Sys2Proof.core.run (n + 1) s = Sys2Proof.core.run n u :=
  run_cons ha h

/-- A pass of the classifier over a completion: the status word is read, cleared, and classified (R341, R344). -/
theorem run_classifierPass (ha : s.agenda = List.replicate 4 .classifier ++ rest) (hc : s.clsState = .cIdle)
    (hirq : s.ctl.intStat &&& s.ctl.intEn ≠ 0) (hg : s.signal = none)
    (hdone : s.ctl.intStat &&& completion s.params.regMap ≠ 0) :
    let w := s.ctl.intStat
    let errors := errorsIn s.params.regMap w
    Sys2Proof.core.run (n + 4) s = Sys2Proof.core.run n
      { s with
        agenda := rest, clsWord := w, signal := some .ok, diag := s.diag ||| (w &&& alwaysOn s.params.regMap)
        ctl := { s.ctl with intStat := 0 }, events := s.events ++ errors.map Event.irqErr ++ [.irqHandled]
        trace := s.trace ++ [⟨0, s.off .intStat, w⟩, ⟨1, s.off .intStat, w⟩] } := by
  intro w errors
  have hirqIn : irqIn { s with agenda := List.replicate 3 .classifier ++ rest } = true :=
    Bool.or_eq_true_iff.mpr (.inl (bne_iff_ne.mpr hirq))
  rw [run_classifier ha (classifierStep_cIdle hc hirqIn), run_classifier rfl (classifierStep_cRead rfl),
    run_classifier rfl (classifierStep_cClear rfl), run_classifier rfl (classifierStep_cClassify rfl),
    classify_completion ?_ ?_]
  · simp [State.enterInterrupt, State.returnInterrupt, State.logged, State.off, hc, w, errors]
  · exact hg
  · exact hdone

/-- T8 to T21 of a write whose completion is signalled, when the engine is scheduled (R307, R309, R315). -/
theorem run_return (ha : s.agenda = List.replicate 3 (.engine false) ++ rest) (ho : s.op = .transfer k .t8 v)
    (hg : s.signal = some .ok) (hk : k.expectsResponse = false) :
    Sys2Proof.core.run (n + 3) s = Sys2Proof.core.run n
      { s with
        agenda := rest, deadline := false, op := .idle, xfer := ⟨false, .ok, v.rx⟩
        ctl := { s.ctl with intEn := alwaysOn s.params.regMap }
        results := s.results ++ [⟨.ok, v.rx, s.diag, .none⟩]
        trace := s.trace ++ [⟨1, s.off .intEn, alwaysOn s.params.regMap⟩] } := by
  have hnext : afterWait k .ok = .t21 := by simp [afterWait, hk]
  rw [run_transfer ha ho (transferStep_t8_signal k v _ hg), run_transfer rfl rfl (transferStep_t10 ..),
    run_transfer rfl (congrArg (OpState.transfer k · _) hnext) (transferStep_t21 k ..)]
  rfl

end

/-! ### A short write -/

/-- Two words that both have the bits of a third, which is not 0, have a bit in common. -/
theorem and_ne_zero_of_and_eq {a b d : Word} (hd : d ≠ 0) (ha : a &&& d = d) (hb : b &&& d = d) : a &&& b ≠ 0 := by
  intro h
  refine hd ?_
  rw [← ha, ← hb, ← BitVec.and_assoc, h]
  exact BitVec.zero_and

/-- A short packet goes from T0 to T3 (R301, R251). -/
theorem afterEncode_short {p : Params} {k : Packet} (h : k.isLong = false) :
    afterEncode (xferLocals (encodePacket p k)) = .t3 := by
  have hcmd : cmdBytesOf p k = [] := by simp [cmdBytesOf, h]
  have hpix : pixWordsOf p k = [] := pixWordsOf_eq_nil_iff.mpr (pixCount_short h)
  simp [afterEncode, afterCmd, xferLocals, encodePacket, hcmd, hpix]

/-- The status word the classifier reads in a write: what was pending but for the stale completion bits, and
TXPKT1_DONE (R304, R196). -/
def State.doneWord (s : State) : Word :=
  s.ctl.intStat &&& ~~~completion s.params.regMap ||| doneTx s.params.regMap

/-- The state after a short write, from the idle engine (R316). -/
def State.shortWritten (s : State) (k : Packet) : State :=
  let m := s.params.regMap
  let e := encodePacket s.params k
  let errors := s.doneWord &&& alwaysOn m
  { s with
    agenda := [], deadline := false, port := none, op := .idle, signal := some .ok, diag := errors
    xfer := ⟨false, .ok, []⟩, clsWord := s.doneWord, results := s.results ++ [⟨.ok, [], errors, .none⟩]
    ctl := { s.ctl with
      intStat := 0, intEn := alwaysOn m, txpkt1h := e.header, txpkt1c := e.control, txActive := false
      txHdr := e.header, txCtl := e.control, txStepped := true }
    events := s.events ++ (errorsIn m s.doneWord).map Event.irqErr ++ [.irqHandled]
    trace := s.trace ++
      [⟨1, s.off .intStat, completion m⟩, ⟨1, s.off .intEn, alwaysOn m ||| doneTx m⟩, ⟨1, s.off .txpkt1h, e.header⟩,
       ⟨1, s.off .txpkt1c, e.control⟩, ⟨0, s.off .intStat, s.doneWord⟩, ⟨1, s.off .intStat, s.doneWord⟩,
       ⟨1, s.off .intEn, alwaysOn m⟩] }

/-- Acceptance, T3 to T7, the transmit step, a pass of the classifier, and T8 to T21, under any map whose CMD_EN and
TXPKT1_DONE are bits of their registers. -/
theorem run_shortWrite {s : State} {k : Packet} (ho : s.op = .idle) (hc : s.clsState = .cIdle)
    (hen : s.params.regMap.txpkt1c.cmdEn < 32) (hd : doneTx s.params.regMap ≠ 0)
    (hcode : encodeCode s.params s.cfg k = .ok) (hshort : k.isLong = false) (hwrite : k.expectsResponse = false)
    (hp : s.port = some ⟨0x00000007, .packet k⟩)
    (ha : s.agenda = List.replicate 6 (.engine false) ++ [.env (.transmit 0 0 true)] ++ List.replicate 4 .classifier ++
      List.replicate 3 (.engine false)) :
    Sys2Proof.core.run 14 s = .next (s.shortWritten k) := by
  have hdone : doneBit s.params.regMap k = doneTx s.params.regMap := by simp [doneBit, hwrite]
  have hmask : (alwaysOn s.params.regMap ||| doneBit s.params.regMap k) &&& doneTx s.params.regMap =
      doneTx s.params.regMap := hdone ▸ or_and_self_right ..
  have hcompletion : completion s.params.regMap &&& doneTx s.params.regMap = doneTx s.params.regMap := by
    rw [completion, BitVec.or_comm]
    exact or_and_self_right ..
  have hword : s.doneWord &&& doneTx s.params.regMap = doneTx s.params.regMap := or_and_self_right ..
  rw [run_transferRequest ha ho hp hcode, afterEncode_short hshort, run_submit rfl rfl (bitOf_control_cmdEn hen k),
    run_transmit rfl rfl ?_, run_classifierPass rfl ?_ ?_ rfl ?_, run_return rfl rfl rfl hwrite]
  · simp [Host.Core.run, State.submitted, State.shortWritten, State.doneWord, State.off_eq, xferLocals, hdone]
  · exact hc
  · exact and_ne_zero_of_and_eq hd hword hmask
  · exact and_ne_zero_of_and_eq hd hword hcompletion
  · exact (BitVec.and_comm ..).trans hmask

/-- The always-on errors of the default map are bits 13 to 6 (R44, R42). -/
theorem alwaysOn_dsi1 : alwaysOn .dsi1 = 0x00003FC0 := by decide

/-- The completion bits are no always-on errors, so `diag` holds the errors pending at submission (R318, R44). -/
theorem doneWord_and_alwaysOn {s : State} (hmap : s.params.regMap = .dsi1) :
    s.doneWord &&& alwaysOn s.params.regMap = s.ctl.intStat &&& 0x00003FC0 := by
  have hstale : ~~~completion .dsi1 &&& alwaysOn .dsi1 = 0x00003FC0 := by decide
  have hdone : doneTx .dsi1 &&& alwaysOn .dsi1 = 0 := by decide
  rw [State.doneWord, hmap, BitVec.and_or_distrib_right, BitVec.and_assoc, hstale, hdone]
  exact BitVec.or_zero

/-- Settles O38: the state after the write is `State.shortWritten`. -/
theorem shortWriteSucceeds : Obligations.ShortWriteSucceeds := by
  intro s k ho hc hmap hcode hshort hwrite hp ha e errors
  have hen : s.params.regMap.txpkt1c.cmdEn < 32 := by rw [hmap]; decide
  have hd : doneTx s.params.regMap ≠ 0 := by rw [hmap]; decide
  have herrors : s.doneWord &&& alwaysOn s.params.regMap = errors := doneWord_and_alwaysOn hmap
  have hrun := run_shortWrite ho hc hen hd hcode hshort hwrite hp ha
  have hctl : (s.shortWritten k).ctl = { s.ctl with
      intStat := 0, intEn := 0x00003FC0, txpkt1h := e.header, txpkt1c := e.control, txActive := false
      txHdr := e.header, txCtl := e.control, txStepped := true } := by
    rw [← alwaysOn_dsi1, ← hmap]
    rfl
  refine ⟨_, hrun, rfl, hc, rfl, ?_, rfl, rfl, herrors, hctl, rfl, rfl, rfl, rfl⟩
  rw [← herrors]
  rfl

end Sys2Proof.Machine
end

