-- ==== Sys2Proof/Proofs/Classifier.lean ====
section
/-! PROOFS. The statements of 45_interrupt.md: the classifier's steps up to the classification (R340, R341, R348), the
classification of a word under any map (R343 to R346) and under the default one, and the classifier's frame (R347). -/

namespace Sys2Proof.Machine

open Sys2Proof

/-! ### The steps before classification -/

theorem exec_irqClassify (s : State) : exec .irqClassify s = classifierStep s := rfl

/-- The interrupt input is an enabled status bit or the asserted shared line (R340). -/
theorem irqIn_iff {s : State} :
    irqIn s = true ↔
      s.ctl.intStat &&& s.ctl.intEn ≠ 0 ∨ (s.params.irqShared = true ∧ s.sharedLine = true) := by
  simp only [irqIn, Bool.or_eq_true, bne_iff_ne, Bool.and_eq_true]

/-- An idle classifier with no interrupt stays as it is (R341). -/
theorem classifierStep_cIdle_quiet {s : State} (hc : s.clsState = .cIdle) (hirq : irqIn s = false) :
    classifierStep s = .next s := by
  simp only [classifierStep, hc, hirq, Bool.false_eq_true, if_false]

/-- Settles O40, state by state. -/
theorem classifierReadsAndClears : Obligations.ClassifierReadsAndClears := by
  intro s
  refine ⟨fun hc => ⟨fun hirq => classifierStep_cIdle hc (irqIn_iff.mpr hirq), fun hstat hline => ?_⟩,
    classifierStep_cRead, classifierStep_cClear⟩
  have hquiet : irqIn s = false := by
    rw [← Bool.not_eq_true, irqIn_iff]
    rintro (h | ⟨hshared, hasserted⟩)
    · exact h hstat
    · simp [hshared, hasserted] at hline
  exact classifierStep_cIdle_quiet hc hquiet

/-! ### The classification of a word -/

/-- `signal(r)` fills the slot if it is empty (R346). -/
theorem State.raiseSignal_eq (s : State) (g : Signal) :
    s.raiseSignal g = { s with signal := s.signal.or (some g) } := by
  unfold State.raiseSignal
  split <;> rename_i h <;> rw [h]
  · rfl
  · rw [Option.some_or, ← h]

/-- The signal that a word read from INT_STAT raises: a completion wins over HSTX_TO (R344). -/
def raisedBy (m : RegMap) (w : Word) : Option Signal :=
  if w &&& completion m ≠ 0 then some .ok else if w &&& ErrBit.hstxTo.mask m ≠ 0 then some .timeout else none

/-- The waking part signals `raisedBy` (R344, R346). -/
theorem wake_eq (w : Word) (s : State) :
    wake w s = { s with signal := s.signal.or (raisedBy s.params.regMap w) } := by
  unfold wake raisedBy
  dsimp only
  split
  · exact s.raiseSignal_eq .ok
  · split
    · exact s.raiseSignal_eq .timeout
    · rw [Option.or_none]

/-- The bit of an error is always on (R44). -/
theorem alwaysOn_and_mask (m : RegMap) (b : ErrBit) : alwaysOn m &&& b.mask m = b.mask m := by
  have hb : b ∈ errOrder := by cases b <;> decide
  apply BitVec.eq_of_getLsbD_eq
  intro i _
  rw [BitVec.getLsbD_and, alwaysOn, getLsbD_errMask, Bool.and_eq_right_iff_imp]
  exact fun hi => List.any_eq_true.mpr ⟨b, hb, hi⟩

/-- A word has no error when its always-on bits are 0 (R343). -/
theorem errorsIn_eq_nil_iff {m : RegMap} {w : Word} : errorsIn m w = [] ↔ w &&& alwaysOn m = 0 := by
  constructor
  · intro h
    rw [← errMask_errorsIn, h]
    rfl
  · intro h
    have hnone (b : ErrBit) : w &&& b.mask m = 0 := by
      rw [← alwaysOn_and_mask, ← BitVec.and_assoc, h]
      exact BitVec.zero_and
    simp [errorsIn, hnone]

/-- The claim is that a recognized bit was set (R345). -/
theorem handled_iff {m : RegMap} {w : Word} : handled m w = true ↔ w &&& recognized m ≠ 0 := by
  rw [handled, Bool.or_eq_true, Bool.not_eq_true', List.isEmpty_eq_false_iff, bne_iff_ne, Ne, errorsIn_eq_nil_iff,
    recognized, BitVec.and_or_distrib_left]
  exact not_and_or.symm.trans (not_congr BitVec.or_eq_zero_iff).symm

/-- What `classify` does, under any map (R341, R343 to R346). -/
theorem classify_eq (w : Word) (s : State) :
    classify w s = { s with
      signal := s.signal.or (raisedBy s.params.regMap w), diag := s.diag ||| (w &&& alwaysOn s.params.regMap)
      events := s.events ++ (errorsIn s.params.regMap w).map Event.irqErr ++
        [if w &&& recognized s.params.regMap ≠ 0 then .irqHandled else .irqUnhandled] } := by
  simp only [classify, wake_eq, reportErrors, errMask_errorsIn, handled_iff, State.emit]

/-! ### The default map (R42, R44) -/

/-- The errors of a word, when each error is listed with the number of its bit. -/
theorem errorsIn_eq_filter {m : RegMap} {errs : List (ErrBit × Nat)} (hnames : errs.map Prod.fst = errOrder)
    (hbits : ∀ e ∈ errs, (e.1.mask m).getLsbD e.2 = true) (w : Word) :
    errorsIn m w = (errs.filter fun e => w.getLsbD e.2).map Prod.fst := by
  rw [errorsIn, ← hnames, List.filter_map]
  congr 1
  exact List.filter_congr fun e he => and_mask_bne_zero w (hbits e he)

theorem completion_dsi1 : completion .dsi1 = 0x00200002 := by decide

theorem recognized_dsi1 : recognized .dsi1 = 0x00203FC2 := by decide

/-- The signal raised under the default map, where HSTX_TO is bit 10. -/
theorem raisedBy_dsi1 (w : Word) : raisedBy .dsi1 w =
    if w &&& 0x00200002 ≠ 0 then some .ok else if w.getLsbD 10 then some .timeout else none := by
  have hto : w &&& ErrBit.hstxTo.mask .dsi1 ≠ 0 ↔ w.getLsbD 10 = true := by
    rw [← bne_iff_ne, and_mask_bne_zero (i := 10) w (by decide)]
  simp only [raisedBy, completion_dsi1, hto]

/-- Settles O41: `classify_eq` with the bits of the default map put in. -/
theorem classifierClassifies : Obligations.ClassifierClassifies := by
  intro s hc hmap w errs raised
  have herrors : (errorsIn .dsi1 w).map Event.irqErr =
      (errs.filter fun e => w.getLsbD e.2).map fun e => .irqErr e.1 := by
    rw [errorsIn_eq_filter (errs := errs) rfl (by decide), List.map_map]
    rfl
  have hraised : raisedBy .dsi1 w = raised := raisedBy_dsi1 w
  rw [exec_irqClassify, classifierStep_cClassify hc, classify_eq, hmap, herrors, hraised, alwaysOn_dsi1,
    recognized_dsi1]
  rfl

/-! ### The frame -/

/-- Settles O42, state by state. -/
theorem classifierFrame : Obligations.ClassifierFrame := by
  intro s
  rw [exec_irqClassify]
  cases hc : s.clsState with
  | cIdle =>
    cases hirq : irqIn s with
    | false => exact ⟨s, classifierStep_cIdle_quiet hc hirq, by simp⟩
    | true => exact ⟨_, classifierStep_cIdle hc hirq, rfl, by simp, by simp⟩
  | cRead => exact ⟨_, classifierStep_cRead hc, rfl, by simp, by simp⟩
  | cClear => exact ⟨_, classifierStep_cClear hc, rfl, by simp, by simp⟩
  | cClassify =>
    refine ⟨_, classifierStep_cClassify hc, ?_, ?_, fun _ => rfl⟩ <;> rw [classify_eq]
    · rfl
    · simp

end Sys2Proof.Machine
end

