-- ==== Sys2Proof/Proofs/Exceptions.lean ====
section
/-! PROOFS. The statements of 60_exceptions.md: the acceptance of the request on the port, the hold of a busy port and
the one result of each return (R380), and the faults of the core's own rules (R371). -/

namespace Sys2Proof.Machine

open Sys2Proof

/-! ### Acceptance -/

/-- Settles O5: an idle engine runs no operation, so it decodes the request on the port. -/
theorem stepAcceptsTheRequestOnThePort : Obligations.StepAcceptsTheRequestOnThePort := by
  intro s d r i ho hp hc hd
  rw [step_of_chosen hc]
  simp only [choiceStep, engineStep, ho, OpState.instr, hp, hd]

/-- The step accepts a request: the engine is scheduled and idle, and there is one on the port (R380). -/
def State.Accepts (s : State) : Prop := s.op = .idle ∧ s.port ≠ none ∧ ∃ d, chosen s = .engine d

/-- Only the engine's step accepts a request. -/
theorem State.not_accepts_of_chosen {s : State} {c : Choice} (hc : chosen s = c) (hne : ∀ d, c ≠ .engine d) :
    ¬ s.Accepts := fun ⟨_, _, d, hd⟩ => hne d (hc.symm.trans hd)

/-! ### What a step does to the engine -/

/-- `t` agrees with `s` on `op_state` and the results, and has what `s` has on its port. -/
def LeavesEngine (s t : State) : Prop :=
  t.op = s.op ∧ t.results = s.results ∧ ∀ r, s.port = some r → t.port = some r

/-- A step that changes no register of the core leaves the engine as it is. -/
theorem SameCore.leavesEngine {s t : State} (h : SameCore s t) : LeavesEngine s t :=
  ⟨h.op, h.results, fun _ hr => h.port.trans hr⟩

/-- The classifier leaves the engine as it is (R341, R347). -/
theorem exec_irqClassify_leavesEngine {s s' : State} (h : exec .irqClassify s = .next s') : LeavesEngine s s' := by
  obtain ⟨t, ht, hframe, -⟩ := classifierFrame s
  obtain rfl : t = s' := Host.Outcome.next.inj (ht.symm.trans h)
  rw [hframe]
  exact ⟨rfl, rfl, fun _ hr => hr⟩

/-- The environment leaves the engine as it is (R195 to R198). -/
theorem envStep_leavesEngine (e : EnvStep) (s : State) : LeavesEngine s (envStep e s) := by
  obtain ⟨c, hz, l, h⟩ := envStep_core e s
  rw [h]
  exact ⟨rfl, rfl, fun _ hr => hr⟩

/-- A requester leaves `op_state`, the results and the request on the port as they are (R380). -/
theorem State.present_leavesEngine (s : State) (r : Request) : LeavesEngine s (s.present r) :=
  ⟨rfl, rfl, fun _ hr => (congrArg State.port (State.present_port hr r)).trans hr⟩

/-- A bus row leaves the engine as it is (R180, R181). -/
theorem exec_bus_leavesEngine {t : BusAccess} {s s' : State} (h : exec (decodeBus t) s = .next s') :
    LeavesEngine s s' := by
  unfold decodeBus at h
  split at h
  · exact (execRead32_core h).leavesEngine
  · exact (execWrite32_core h).leavesEngine

/-- A register row leaves the engine as it is (R182 to R189). -/
theorem exec_mmio_leavesEngine {r : RegName} {a : Access} {s s' : State} (h : exec (mmioInstr r a) s = .next s') :
    LeavesEngine s s' := by
  rw [exec_mmio] at h
  exact (accessReg_core h).leavesEngine

/-- The ways a step other than the core's reset leads from `s` to `s'`, by what the engine does. -/
inductive EngineStepped (s s' : State) : Prop
  /-- The running operation takes its next step. -/
  | goesOn (d : Bool) (i : Instr) (hi : s.op.instr = some i)
      (h : exec i { s with agenda := s.agenda.tail, deadline := d } = .next s')
  /-- The request on the port is accepted. -/
  | accepts (d : Bool) (r : Request) (i : Instr) (ha : s.Accepts) (hd : decodeRequest r = .ok i)
      (h : exec i { s with agenda := s.agenda.tail, deadline := d, port := none } = .next s')
  /-- Another agent moves, or the engine waits on the free port. -/
  | leaves (hn : ¬ s.Accepts) (h : LeavesEngine s s')

/-- What a step other than the core's reset does to the engine. -/
theorem step_engineStepped {s s' : State} (h : step s = .next s') (hreset : chosen s ≠ .reset) :
    EngineStepped s s' := by
  cases step_cases h with
  | goesOn d i hc hi h => exact .goesOn d i hi h
  | accepts d r i hc ho hr hd h => exact .accepts d r i ⟨ho, by simp [hr], d, hc⟩ hd h
  | waits d hc ho hr h => subst h; exact .leaves (fun ⟨_, hp, _⟩ => hp hr) ⟨rfl, rfl, fun _ hp => hp⟩
  | classifies hc h => exact .leaves (State.not_accepts_of_chosen hc nofun) (exec_irqClassify_leavesEngine h :)
  | env e hc h => subst h; exact .leaves (State.not_accepts_of_chosen hc nofun) (envStep_leavesEngine e _ :)
  | presents r hc h => subst h; exact .leaves (State.not_accepts_of_chosen hc nofun) (State.present_leavesEngine _ r :)
  | bus t i hc hd h => cases hd; exact .leaves (State.not_accepts_of_chosen hc nofun) (exec_bus_leavesEngine h :)
  | mmio t i hc hd h =>
    obtain ⟨r, -, rfl⟩ := decodeMmio_eq_ok hd
    exact .leaves (State.not_accepts_of_chosen hc nofun) (exec_mmio_leavesEngine h :)
  | resets hc h => exact absurd hc hreset

/-- What a busy engine's step is: that of the running operation (R31). -/
theorem exec_running {s : State} {i : Instr} (hi : s.op.instr = some i) :
    (∃ l b, s.op = .programTiming l b ∧ exec i s = .next (s.programmed l b)) ∨
      (∃ t l v, s.op = .ulps t l v ∧ exec i s = ulpsStep t l v s) ∨
      ∃ k l v, s.op = .transfer k l v ∧ exec i s = transferStep k l v s := by
  cases ho : s.op with
  | idle => rw [ho] at hi; cases hi
  | programTiming l b => rw [ho] at hi; cases hi; exact .inl ⟨l, b, rfl, exec_programTiming ho⟩
  | ulps t l v =>
    rw [ho] at hi
    cases t <;> cases hi <;> exact .inr (.inl ⟨_, l, v, rfl, exec_ulps ho⟩)
  | transfer k l v => rw [ho] at hi; cases hi; exact .inr (.inr ⟨k, l, v, rfl, exec_transfer ho⟩)

/-! ### The hold of a busy port -/

/-- A running operation's step keeps the request on the port (R380). -/
theorem exec_running_port {s s' : State} {i : Instr} {r : Request} (hi : s.op.instr = some i)
    (h : exec i s = .next s') (hp : s.port = some r) : s'.port = some r := by
  obtain ⟨l, b, -, hexec⟩ | ⟨t, l, v, ho, hexec⟩ | ⟨k, l, v, ho, hexec⟩ := exec_running hi <;> rw [hexec] at h
  · cases h
    cases l <;> exact hp
  · obtain ⟨u, hu, -, hport, -⟩ := ulpsStep_keeps ho
    obtain rfl : u = s' := Host.Outcome.next.inj (hu.symm.trans h)
    exact hport r hp
  · obtain ⟨u, hu, -, hport, -⟩ | ⟨-, q, hfault⟩ := transferStep_answers ho
    · obtain rfl : u = s' := Host.Outcome.next.inj (hu.symm.trans h)
      exact hport r hp
    · cases hfault.symm.trans h

/-- Settles O7: only an acceptance takes the request off the port, and a busy engine accepts none. -/
theorem busyPortHoldsTheRequest : Obligations.BusyPortHoldsTheRequest := by
  intro s s' ho h hreset
  refine ⟨fun r hp => ?_, fun r hp hc => ?_⟩
  · cases step_engineStepped h hreset with
    | goesOn d i hi h => exact exec_running_port (s := { s with agenda := s.agenda.tail, deadline := d }) hi h hp
    | accepts d r i ha hd h =>
      obtain ⟨hidle, -⟩ := ha
      exact absurd hidle ho
    | leaves hn h =>
      obtain ⟨-, -, hport⟩ := h
      exact hport r hp
  · rw [step_of_chosen hc] at h
    cases h
    simp [State.present, hp]

/-! ### The result of a return -/

/-- A step of the engine from `s` to `s'` adds one result if it returns to IDLE, and none if not (R380). -/
def YieldsOnReturn (s s' : State) : Prop :=
  (s'.op = .idle → ∃ r, s'.results = s.results ++ [r]) ∧ (s'.op ≠ .idle → s'.results = s.results)

/-- It speaks of the results of `s` alone. -/
theorem YieldsOnReturn.congr {s t s' : State} (h : YieldsOnReturn t s') (ht : t.results = s.results) :
    YieldsOnReturn s s' := by
  rwa [YieldsOnReturn, ht] at h

/-- An outcome that returns a result. -/
theorem YieldsOnReturn.of_finish {s u s' : State} {c : Code} {b : List Byte} {d : Word} {v : Value}
    (h : (Host.Outcome.next (u.finish c b d v) : Out) = .next s') (hu : u.results = s.results) :
    YieldsOnReturn s s' := by
  cases h
  exact ⟨fun _ => ⟨_, by rw [State.finish_results, hu]⟩, fun hne => absurd rfl hne⟩

/-- An outcome that goes on. -/
theorem YieldsOnReturn.of_busy {s u s' : State} (h : (Host.Outcome.next u : Out) = .next s') (hop : u.op ≠ .idle)
    (hu : u.results = s.results) : YieldsOnReturn s s' := by
  cases h
  exact ⟨fun hidle => absurd hidle hop, fun _ => hu⟩

/-- A read adds no result. -/
theorem withRead_yields {r : RegName} {s s' : State} {k : Word → State → Out} (h : withRead r s k = .next s')
    (hk : ∀ w t, k w t = .next s' → YieldsOnReturn t s') : YieldsOnReturn s s' := by
  obtain ⟨w, t, hr, h⟩ := withRead_next h
  exact (hk w t h).congr (readReg_core hr).results

/-- A write adds no result. -/
theorem withWrite_yields {r : RegName} {w : Word} {s s' : State} {k : State → Out} (h : withWrite r w s k = .next s')
    (hk : ∀ t, k t = .next s' → YieldsOnReturn t s') : YieldsOnReturn s s' := by
  obtain ⟨t, hw, h⟩ := withWrite_next h
  exact (hk t h).congr (writeReg_core hw).results

section

variable {s s' : State}

/-- CONFIGURE returns at once (R240). -/
theorem configureRun_yields {c : ConfigRecord} (h : configureRun c s = .next s') : YieldsOnReturn s s' := by
  unfold configureRun at h
  split at h
  · cases h
  split at h
  · exact .of_finish h rfl
  split at h
  · exact .of_finish h rfl
  · exact .of_finish h rfl

/-- TIMING_COMPUTE returns at once (R215). -/
theorem timingComputeRun_yields {hz : Nat} (h : timingComputeRun hz s = .next s') : YieldsOnReturn s s' := by
  unfold timingComputeRun at h
  split at h
  · cases h
  · exact .of_finish h rfl

/-- ENCODE returns at once (R245). -/
theorem encodeRun_yields {k : Packet} (h : encodeRun k s = .next s') : YieldsOnReturn s s' := by
  unfold encodeRun at h
  split at h <;> exact .of_finish h rfl

/-- PHY_STATE returns at once (R279). -/
theorem phyStateRun_yields (h : phyStateRun s = .next s') : YieldsOnReturn s s' :=
  withRead_yields h fun _ _ h => .of_finish h rfl

/-- P0 goes on to P1 (R220). -/
theorem programTimingStart_yields (h : programTimingStart s = .next s') : YieldsOnReturn s s' := by
  unfold programTimingStart at h
  split at h
  · cases h
  simp only at h
  split at h
  · exact .of_busy h nofun rfl
  · cases h

/-- P1 to P8 go on, and P9 returns (R220). -/
theorem programmed_yields (l : PLabel) (b : Bundle) (s : State) : YieldsOnReturn s (s.programmed l b) := by
  cases l
  case p9 => exact .of_finish rfl rfl
  all_goals exact .of_busy rfl nofun rfl

/-- S0 returns at once or starts a run (R274). -/
theorem ulpsStart_yields {t : Bool} (h : ulpsStart t s = .next s') : YieldsOnReturn s s' := by
  unfold ulpsStart at h
  split at h
  · exact .of_finish h rfl
  · refine withRead_yields h fun a u h => ?_
    simp only at h
    split at h
    · exact .of_finish h rfl
    · exact .of_busy h nofun rfl

/-- A poll does not return (R275). -/
theorem pollStep_yields {t mask here done late} {v : SeqLocals} (h : pollStep t mask here done late v s = .next s') :
    YieldsOnReturn s s' := by
  unfold pollStep at h
  split at h
  · exact .of_busy h nofun rfl
  · refine withRead_yields h fun w u h => ?_
    split at h <;> exact .of_busy h nofun rfl

/-- S11 and the ends of the timeout paths return (R274). -/
theorem ulpsStep_yields {t : Bool} {l : SLabel} {v : SeqLocals} (h : ulpsStep t l v s = .next s') :
    YieldsOnReturn s s' := by
  cases l
  case s4 | s10 => exact pollStep_yields h
  case s11 | s4u | s10u => exact .of_finish h rfl
  all_goals exact .of_busy h nofun rfl

/-- T0 returns ENCODE's error or goes on (R301). -/
theorem transferStart_yields {k : Packet} (h : transferStart k s = .next s') : YieldsOnReturn s s' := by
  unfold transferStart at h
  split at h
  · exact .of_busy h nofun rfl
  · exact .of_finish h rfl

/-- T1 does not return (R302). -/
theorem transferT1_yields {k : Packet} {v : XferLocals} (h : transferT1 k v s = .next s') : YieldsOnReturn s s' := by
  unfold transferT1 at h
  split at h
  · exact .of_busy h nofun rfl
  · exact withWrite_yields h fun _ h => .of_busy h nofun rfl

/-- T2 does not return (R302). -/
theorem transferT2_yields {k : Packet} {v : XferLocals} (h : transferT2 k v s = .next s') : YieldsOnReturn s s' := by
  unfold transferT2 at h
  split at h
  · exact .of_busy h nofun rfl
  · exact withWrite_yields h fun _ h => .of_busy h nofun rfl

/-- T8 ends the wait or stays in it, and does not return (R307). -/
theorem transferT8_yields {k : Packet} {v : XferLocals} (ho : s.op = .transfer k .t8 v)
    (h : transferT8 k v s = .next s') : YieldsOnReturn s s' := by
  unfold transferT8 at h
  split at h
  · exact .of_busy h nofun rfl
  split at h
  · exact .of_busy h nofun rfl
  · exact .of_busy h (by simp [ho]) rfl

/-- T17 does not return (R312, R314). -/
theorem transferT17_yields {k : Packet} {v : XferLocals} (h : transferT17 k v s = .next s') : YieldsOnReturn s s' := by
  refine withRead_yields h fun w t h => ?_
  simp only at h
  split at h
  · split at h <;> exact .of_busy h nofun rfl
  · exact .of_busy h nofun rfl

/-- T18 does not return (R313). -/
theorem transferT18_yields {k : Packet} {v : XferLocals} (h : transferT18 k v s = .next s') : YieldsOnReturn s s' := by
  unfold transferT18 at h
  split at h
  · exact .of_busy h nofun rfl
  · exact withRead_yields h fun _ _ h => .of_busy h nofun rfl

/-- Of T1 to T21, only T21 returns (R300, R315). -/
theorem transferStep_yields {k : Packet} {l : TLabel} {v : XferLocals} (ho : s.op = .transfer k l v)
    (h : transferStep k l v s = .next s') : YieldsOnReturn s s' := by
  cases l <;> simp only [transferStep] at h
  case t1 => exact transferT1_yields h
  case t2 => exact transferT2_yields h
  case t8 => exact transferT8_yields ho h
  case t17 => exact transferT17_yields h
  case t18 => exact transferT18_yields h
  case t3 | t13 => exact .of_busy h nofun rfl
  case t9 | t11 | t14 => exact withRead_yields h fun _ _ h => .of_busy h nofun rfl
  case t4 | t5 | t6 | t7 | t10 | t12 | t15 | t16 => exact withWrite_yields h fun _ h => .of_busy h nofun rfl
  case t21 => exact .of_finish h rfl

/-- A running operation's step, by the operation. -/
theorem exec_running_yields {i : Instr} (hi : s.op.instr = some i) (h : exec i s = .next s') :
    YieldsOnReturn s s' := by
  obtain ⟨l, b, -, hexec⟩ | ⟨t, l, v, -, hexec⟩ | ⟨k, l, v, ho, hexec⟩ := exec_running hi <;> rw [hexec] at h
  · cases h
    exact programmed_yields l b s
  · exact ulpsStep_yields h
  · exact transferStep_yields ho h

/-- The first step of an accepted request, by the operation it decodes to. -/
theorem exec_accepted_yields {r : Request} {i : Instr} (ho : s.op = .idle) (hd : decodeRequest r = .ok i)
    (h : exec i s = .next s') : YieldsOnReturn s s' := by
  have himage : encode .dsi1 i = .request r := encode_of_decodeRequest .dsi1 hd
  cases i with
  | configure c => exact configureRun_yields ((exec_configure ho c).symm.trans h)
  | timingCompute hz => exact timingComputeRun_yields ((exec_timingCompute ho hz).symm.trans h)
  | programTiming => exact programTimingStart_yields ((exec_programTiming_idle ho).symm.trans h)
  | encode k => exact encodeRun_yields ((exec_encode ho k).symm.trans h)
  | ulpsEnter => exact ulpsStart_yields ((exec_ulps_idle ho true).symm.trans h)
  | ulpsExit => exact ulpsStart_yields ((exec_ulps_idle ho false).symm.trans h)
  | transfer k => exact transferStart_yields ((exec_transfer_idle ho k).symm.trans h)
  | phyState => exact phyStateRun_yields ((whenIdle_idle ho).symm.trans h)
  | _ => cases himage

end

/-- A step from a busy engine, or one that accepts a request, yields on return: another agent's step leaves a busy
engine busy. -/
theorem step_yields {s s' : State} (h : step s = .next s') (hreset : chosen s ≠ .reset)
    (hrun : s.op ≠ .idle ∨ s.Accepts) : YieldsOnReturn s s' := by
  cases step_engineStepped h hreset with
  | goesOn d i hi h => exact exec_running_yields (s := { s with agenda := s.agenda.tail, deadline := d }) hi h
  | accepts d r i ha hd h =>
    obtain ⟨ho, -⟩ := ha
    exact exec_accepted_yields (s := { s with agenda := s.agenda.tail, deadline := d, port := none }) ho hd h
  | leaves hn h =>
    obtain ⟨hop, hresults, -⟩ := h
    have hbusy : s.op ≠ .idle := hrun.resolve_right hn
    exact ⟨fun hidle => absurd (hop.symm.trans hidle) hbusy, fun _ => hresults⟩

/-- A step that accepts no request leaves an idle engine idle and adds no result. -/
theorem step_idle_not_accepts {s s' : State} (h : step s = .next s') (hreset : chosen s ≠ .reset) (ho : s.op = .idle)
    (hn : ¬ s.Accepts) : s'.op = .idle ∧ s'.results = s.results := by
  cases step_engineStepped h hreset with
  | goesOn d i hi h => simp [ho, OpState.instr] at hi
  | accepts d r i ha hd h => exact absurd ha hn
  | leaves hn h =>
    obtain ⟨hop, hresults, -⟩ := h
    exact ⟨hop.trans ho, hresults⟩

/-- Settles O9: the engine's steps yield on return, and a step that accepts nothing leaves an idle engine as it is. -/
theorem everyReturnYieldsOneResult : Obligations.EveryReturnYieldsOneResult := fun _ _ h hreset =>
  ⟨fun hrun => (step_yields h hreset hrun).1, fun hrun => (step_yields h hreset hrun).2,
    step_idle_not_accepts h hreset⟩

/-! ### The faults of the core's own rules -/

section

variable {s : State} {f : Fault}

/-- A one-step operation faults only if its run does. -/
theorem whenIdle_ne_fault {i : Instr} {run : State → Out} (h : run s ≠ .fault f) : whenIdle i s run ≠ .fault f := by
  unfold whenIdle
  split
  · exact h
  · nofun

/-- CONFIGURE makes no access; it returns or refuses (R240). -/
theorem configureRun_ne_fault {c : ConfigRecord} : configureRun c s ≠ .fault f := by
  unfold configureRun
  (repeat' split) <;> nofun

/-- TIMING_COMPUTE makes no access; it returns or refuses (R215). -/
theorem timingComputeRun_ne_fault {hz : Nat} : timingComputeRun hz s ≠ .fault f := by
  unfold timingComputeRun
  split <;> nofun

/-- ENCODE makes no access, and returns (R245). -/
theorem encodeRun_ne_fault {k : Packet} : encodeRun k s ≠ .fault f := by
  unfold encodeRun
  split <;> nofun

/-- The read of the latch does not fault (R279). -/
theorem phyStateRun_ne_fault : phyStateRun s ≠ .fault f := by
  rw [phyStateRun, withRead_ok (readReg_phyAfec0 s)]
  nofun

/-- P0 makes no access; it goes on or refuses (R220). -/
theorem programTimingStart_ne_fault : programTimingStart s ≠ .fault f := by
  unfold programTimingStart
  split
  · nofun
  simp only
  split <;> nofun

/-- PROGRAM_TIMING writes plain registers, which do not fault (R182, R220). -/
theorem exec_programTiming_ne_fault : exec .programTiming s ≠ .fault f := by
  cases ho : s.op with
  | idle => rw [exec_programTiming_idle ho]; exact programTimingStart_ne_fault
  | programTiming l b => rw [exec_programTiming ho]; nofun
  | ulps | transfer => rw [exec_programTiming_busy (by simp [ho]) (by simp [ho])]; nofun

/-- The sequencer always answers a next state (R274). -/
theorem exec_ulps_ne_fault (t : Bool) : exec (if t then .ulpsEnter else .ulpsExit) s ≠ .fault f := by
  obtain ⟨s', h, -⟩ := sequencerFrame s t
  rw [h]
  nofun

/-- The classifier always answers a next state (R341). -/
theorem exec_irqClassify_ne_fault : exec .irqClassify s ≠ .fault f := by
  obtain ⟨s', h, -⟩ := classifierFrame s
  rw [h]
  nofun

/-- T1 with a full command queue faults only with its overflow (R187). -/
theorem transferStep_t1_fault {k : Packet} {v : XferLocals} (hfull : s.params.cmdFifoDepth ≤ s.ctl.cmdQ.length)
    (h : transferStep k .t1 v s = .fault f) : f = .fifoOverflow .cmd := by
  cases hb : v.cmdLeft with
  | nil => rw [transferStep_t1_nil k v s hb] at h; cases h
  | cons b rest => rw [transferStep_t1_full k v s hb hfull] at h; cases h; rfl

/-- T2 with a full pixel queue faults only with its overflow (R188). -/
theorem transferStep_t2_fault {k : Packet} {v : XferLocals} (hfull : s.params.pixFifoDepth ≤ s.ctl.pixQ.length)
    (h : transferStep k .t2 v s = .fault f) : f = .fifoOverflow .pix := by
  cases hw : v.pixLeft with
  | nil => rw [transferStep_t2_nil k v s hw] at h; cases h
  | cons w rest => rw [transferStep_t2_full k v s hw hfull] at h; cases h; rfl

/-- TRANSFER faults only at T1 or T2, with the overflow of the full queue it pushes onto (R187, R188, R371). -/
theorem exec_transfer_fault {k : Packet} (h : exec (.transfer k) s = .fault f) :
    (∃ v, s.op = .transfer k .t1 v ∧ f = .fifoOverflow .cmd ∧ s.params.cmdFifoDepth ≤ s.ctl.cmdQ.length) ∨
      ∃ v, s.op = .transfer k .t2 v ∧ f = .fifoOverflow .pix ∧ s.params.pixFifoDepth ≤ s.ctl.pixQ.length := by
  obtain ⟨s', hnext, -⟩ | ⟨l, v, ho, hblocked, -⟩ := exec_transfer_answers k s
  · cases hnext.symm.trans h
  · rw [exec_transfer ho] at h
    obtain ⟨rfl, hfull⟩ | ⟨rfl, hfull⟩ := hblocked
    · exact .inl ⟨v, ho, transferStep_t1_fault hfull h, hfull⟩
    · exact .inr ⟨v, ho, transferStep_t2_fault hfull h, hfull⟩

end

/-- An instruction whose image is an mmio transaction is the row of a register (R144). -/
theorem exists_mmioInstr_of_encode {i : Instr} {t : BusAccess} (h : encode .dsi1 i = .mmio t) :
    ∃ r a, i = mmioInstr r a := by
  have hdecode := decodeOfEncodeIsTheInstruction .dsi1 dsi1_offsetsValid i
  rw [h] at hdecode
  obtain ⟨r, -, hi⟩ := decodeMmio_eq_ok hdecode
  exact ⟨r, _, hi⟩

/-- Settles O10: TRANSFER by `exec_transfer_fault`, and no other instruction of the core faults. -/
theorem onlyPushesOfTransferFault : Obligations.OnlyPushesOfTransferFault := by
  intro s f i hread hwrite hmmio h
  have hrow (t : BusAccess) : encode .dsi1 i ≠ .mmio t := fun ht => by
    obtain ⟨r, a, hi⟩ := exists_mmioInstr_of_encode ht
    exact hmmio r a hi
  cases i with
  | transfer k =>
    obtain ⟨v, hv⟩ | ⟨v, hv⟩ := exec_transfer_fault h
    · exact .inl ⟨k, v, rfl, hv⟩
    · exact .inr ⟨k, v, rfl, hv⟩
  | configure => exact absurd h (whenIdle_ne_fault configureRun_ne_fault)
  | timingCompute => exact absurd h (whenIdle_ne_fault timingComputeRun_ne_fault)
  | programTiming => exact absurd h exec_programTiming_ne_fault
  | encode => exact absurd h (whenIdle_ne_fault encodeRun_ne_fault)
  | ulpsEnter => exact absurd h (exec_ulps_ne_fault true)
  | ulpsExit => exact absurd h (exec_ulps_ne_fault false)
  | phyState => exact absurd h (whenIdle_ne_fault phyStateRun_ne_fault)
  | irqClassify => exact absurd h exec_irqClassify_ne_fault
  | read32 off => exact absurd rfl (hread off)
  | write32 off v => exact absurd rfl (hwrite off v)
  | _ => exact absurd rfl (hrow _)

end Sys2Proof.Machine
end

