-- ==== Sys2Proof/Proofs/Reset.lean ====
section
/-! PROOFS. The statement of 70_reset_and_hazards.md about the core's reset (R400, R402). -/

namespace Sys2Proof.Machine

open Sys2Proof

/-- A scheduled reset is the core's reset, of the state with its agenda moved on (R400, log 1). -/
theorem step_of_reset {s : State} (h : chosen s = .reset) :
    step s = .next { s with agenda := s.agenda.tail }.coreReset :=
  step_of_chosen h

/-- Settles O55: the step is `State.coreReset`, whose reset values are those written out; every other field is the
state's own, the agenda moved on. -/
theorem coreResetAbandons : Obligations.CoreResetAbandons := by
  intro s hc
  rw [step_of_reset hc, State.coreReset, XferSlot.reset]

end Sys2Proof.Machine
end
